-- ==== Sys2Proof/Word.lean ====
section
/-! DEFINITION. The word types of the spec's notation (00_scope.md R8): every value is unsigned, bit 0 is the
least significant bit. -/

namespace Sys2Proof

/-- A byte, 0..255 (R8). -/
abbrev Byte := BitVec 8

/-- A u16, 0..65535 (R8); `+` on it wraps mod 2^16. -/
abbrev U16 := BitVec 16

/-- A word, 32 bits (R8): one host register, one command word. -/
abbrev Word := BitVec 32

/-- A word index of the host register space, 0x000 to 0x7FF (20_memory.md R60). -/
abbrev WordIndex := BitVec 11

end Sys2Proof
end

