-- ==== Sys2Proof/Config.lean ====
section
/-! DEFINITION. The implementation parameters of 00_scope.md R6, fixed at elaboration (R242), with this
hardware's values, and the one free value the spec leaves (93_implementation_defined.md U7). -/

namespace Sys2Proof

/-- The two wire protocols (R2): battery management and motor controller. -/
inductive Profile where
  | bm
  | mc
  deriving DecidableEq, Repr

/-- What seeds the decoder's running sum, parameter DEC_CK_SEED (R6, R118). -/
inductive SeedKind where
  /-- the command id plus the length: this hardware's value -/
  | idLen
  /-- the length alone -/
  | lenOnly
  deriving DecidableEq, Repr

/-- The parameters of R6. Only the values that satisfy `Config.Legal` are hardware. -/
structure Config where
  /-- NCH, the number of decoder channels -/
  nch : Nat
  /-- PROFILE(c), channel 0 first -/
  profiles : List Profile
  /-- BUF_CAP, the PendingBuffer capacity in bytes -/
  bufCap : Nat
  /-- ENC_CAP, the encoder staging capacity in bytes -/
  encCap : Nat
  /-- IN_CAP, the size of the IN window in bytes -/
  inCap : Nat
  /-- DEC_CK_SEED -/
  seed : SeedKind
  deriving DecidableEq, Repr

namespace Config

/-- PROFILE(c) (R6, R25), for `c < NCH`. -/
def profile (cfg : Config) (c : Nat) : Profile := cfg.profiles.getD c .bm

/-- The legal ranges of R6. -/
abbrev Legal (cfg : Config) : Prop :=
  1 ≤ cfg.nch ∧ cfg.nch ≤ 16 ∧ cfg.profiles.length = cfg.nch ∧ 1 ≤ cfg.bufCap ∧ cfg.bufCap ≤ 511 ∧
    7 ≤ cfg.encCap ∧ cfg.encCap ≤ 262 ∧ 1 ≤ cfg.inCap ∧ cfg.inCap ≤ 1024

/-- This hardware's values (R6; log 7): two channels, channel 0 BM and channel 1 MC. -/
def hw : Config :=
  { nch := 2, profiles := [.bm, .mc], bufCap := 40, encCap := 30, inCap := 512, seed := .idLen }

/-- FREE VALUE (93_implementation_defined.md U7; log 4): the byte an IN cell powered up with, by power cycle and
cell number. The spec gives it no value; nothing in Lean can evaluate it. Only a host read of a cell that no host
write has reached since the last power-on reset shows it (10_state.md R42). -/
opaque powerUpIn : (powerCycle cell : Nat) → Byte

end Config

end Sys2Proof
end

