-- ==== Sys2Proof/Syntax.lean ====
section
/-! DEFINITION. The commands: one constructor per row of spec/opcode_table.json (30_encoding.md R83, R84), with the
operand fields the command word carries. -/

namespace Sys2Proof

/-- The five commands (R83). `ch` is the field CH, `len` the field LEN (R81); ARG is no part of the word. -/
inductive Instr where
  /-- DECODE (40_frame_decoder.md R110): decode the chunk `IN[0..len)` on channel `ch`. -/
  | decode (ch : BitVec 4) (len : BitVec 16)
  /-- RESET (41_reassembly_buffer.md R156): clear channel `ch`. -/
  | reset (ch : BitVec 4)
  /-- BUILD (43_encoder.md R190): build a BM request frame around the payload `IN[0..len)`. -/
  | build (len : BitVec 16)
  /-- CK_COMPUTE (42_checksum.md R171): checksum of the payload `IN[0..len)`. -/
  | ckCompute (len : BitVec 16)
  /-- CK_VERIFY (42_checksum.md R173): compare the byte pairs held in ARG. -/
  | ckVerify
  deriving DecidableEq, Repr

/-- Why a command word is no instruction (30_encoding.md R89, R90). The hardware reports every one of them as
ILLEGAL_COMMAND; the names are the model's own (log 14). -/
inductive DecodeError where
  /-- OP is 0x00 or 0x06 to 0xFF -/
  | illegalOpcode
  /-- RSV is not 0 -/
  | reservedBitsSet
  /-- DECODE or RESET with CH >= NCH -/
  | channelOutOfRange
  /-- BUILD, CK_COMPUTE or CK_VERIFY with CH not 0 -/
  | channelNotZero
  /-- DECODE, BUILD or CK_COMPUTE with LEN > IN_CAP -/
  | lengthOutOfRange
  /-- RESET or CK_VERIFY with LEN not 0 -/
  | lengthNotZero
  deriving DecidableEq, Repr

end Sys2Proof
end

