-- ==== Sys2Proof/WellFormed.lean ====
section
/-! DEFINITION. Which instruction terms stand for a legal command word: the operand checks of 30_encoding.md R89
that the syntax itself does not already make. -/

namespace Sys2Proof

/-- A channel operand names a channel of the block (R84, R89). -/
def channelOk (cfg : Config) (ch : BitVec 4) : Bool := decide (ch.toNat < cfg.nch)

/-- A byte count fits the IN window (R84, R89). -/
def lengthOk (cfg : Config) (len : BitVec 16) : Bool := decide (len.toNat ≤ cfg.inCap)

/-- The checks of R89 on an instruction's operands. -/
def Instr.wellFormedIn (cfg : Config) : Instr → Bool
  | .decode ch len => channelOk cfg ch && lengthOk cfg len
  | .reset ch => channelOk cfg ch
  | .build len => lengthOk cfg len
  | .ckCompute len => lengthOk cfg len
  | .ckVerify => true

/-- An instruction of this hardware whose operands pass the checks of R89. -/
abbrev Instr.WellFormed (i : Instr) : Prop := i.wellFormedIn Config.hw = true

end Sys2Proof
end

