-- ==== Sys2Proof/Decode.lean ====
section
/-! DEFINITION. The command word (30_encoding.md R81 to R91): its fields, the decoder, total on every word and
rejecting by name, and the encoder of R98. -/

namespace Sys2Proof

/-- OP = w[7:0] (R82). -/
def fieldOp (w : Word) : BitVec 8 := w.extractLsb' 0 8

/-- CH = w[11:8] (R82). -/
def fieldCh (w : Word) : BitVec 4 := w.extractLsb' 8 4

/-- RSV = w[15:12] (R82). -/
def fieldRsv (w : Word) : BitVec 4 := w.extractLsb' 12 4

/-- LEN = w[31:16] (R82). -/
def fieldLen (w : Word) : BitVec 16 := w.extractLsb' 16 16

/-- The opcode map of R83 with the operand checks of R84 and R89. Which of several failing checks names the error
is not observable (R89). -/
def decodeOp (cfg : Config) (w : Word) : Except DecodeError Instr :=
  match (fieldOp w).toNat with
  | 1 =>
    if channelOk cfg (fieldCh w) = false then .error .channelOutOfRange
    else if lengthOk cfg (fieldLen w) = false then .error .lengthOutOfRange
    else .ok (.decode (fieldCh w) (fieldLen w))
  | 2 =>
    if channelOk cfg (fieldCh w) = false then .error .channelOutOfRange
    else if fieldLen w ≠ 0#16 then .error .lengthNotZero
    else .ok (.reset (fieldCh w))
  | 3 =>
    if fieldCh w ≠ 0#4 then .error .channelNotZero
    else if lengthOk cfg (fieldLen w) = false then .error .lengthOutOfRange
    else .ok (.build (fieldLen w))
  | 4 =>
    if fieldCh w ≠ 0#4 then .error .channelNotZero
    else if lengthOk cfg (fieldLen w) = false then .error .lengthOutOfRange
    else .ok (.ckCompute (fieldLen w))
  | 5 =>
    if fieldCh w ≠ 0#4 then .error .channelNotZero
    else if fieldLen w ≠ 0#16 then .error .lengthNotZero
    else .ok .ckVerify
  | _ => .error .illegalOpcode

/-- The decoder: the instruction a command word stands for, or the reason it is illegal (R80, R89, R90). -/
def decodeWordIn (cfg : Config) (w : Word) : Except DecodeError Instr :=
  if fieldRsv w = 0#4 then decodeOp cfg w else .error .reservedBitsSet

/-- The decoder of this hardware. -/
def decodeWord (w : Word) : Except DecodeError Instr := decodeWordIn Config.hw w

/-- The opcode of an instruction (R83). -/
def Instr.opcode : Instr → BitVec 8
  | .decode _ _ => 0x01#8
  | .reset _ => 0x02#8
  | .build _ => 0x03#8
  | .ckCompute _ => 0x04#8
  | .ckVerify => 0x05#8

/-- The field CH an instruction's word carries: 0 where R84 says it must be. -/
def Instr.channelField : Instr → BitVec 4
  | .decode ch _ => ch
  | .reset ch => ch
  | .build _ => 0#4
  | .ckCompute _ => 0#4
  | .ckVerify => 0#4

/-- The field LEN an instruction's word carries: 0 where R84 says it must be. -/
def Instr.lengthField : Instr → BitVec 16
  | .decode _ len => len
  | .reset _ => 0#16
  | .build len => len
  | .ckCompute len => len
  | .ckVerify => 0#16

/-- `OP | (CH << 8) | (LEN << 16)`, RSV = 0 (R81, R98). -/
def commandWord (op : BitVec 8) (ch : BitVec 4) (len : BitVec 16) : Word :=
  op.setWidth 32 ||| (ch.setWidth 32 <<< 8) ||| (len.setWidth 32 <<< 16)

/-- The encoder: the word of an instruction (R98). -/
def encode (i : Instr) : Word := commandWord i.opcode i.channelField i.lengthField

/-- The decoder on a word numbered as spec/opcode_table.json numbers it: a command is one 32-bit word (R91), bit 0
its least significant bit, bits from `nbits` up are 0 (log 13). -/
def decodeTableWord (nbits w : Nat) : Option Instr :=
  if w % 2 ^ nbits < 2 ^ 32 then (decodeWord (BitVec.ofNat 32 (w % 2 ^ nbits))).toOption else none

end Sys2Proof
end

