-- ==== Sys2Proof/Machine/Profile.lean ====
section
/-! DEFINITION. The framing constants a channel's profile selects (00_scope.md R7); they are no parameters. -/

namespace Sys2Proof.Machine

/-- The header byte HDR (R7). -/
def hdr : Profile → Byte
  | .bm => 0xDD#8
  | .mc => 0xAA#8

/-- The suffix byte SFX (R7). -/
def sfx : Profile → Byte
  | .bm => 0x77#8
  | .mc => 0x85#8

/-- The payload length of an MC frame (R7, 40_frame_decoder.md R115). -/
def mcPayloadLength : Nat := 9

/-- The maximum payload size MAXP (R7): for BM what the length byte can hold, for MC the fixed length. -/
def maxPayload : Profile → Nat
  | .bm => 255
  | .mc => mcPayloadLength

/-- The PROFILE bit of CH_STAT (10_state.md R39). -/
def profileBit : Profile → Bool
  | .bm => false
  | .mc => true

/-- The DEC_CK_SEED bit of CONFIG1 (10_state.md R38). -/
def seedBit : SeedKind → Bool
  | .idLen => false
  | .lenOnly => true

end Sys2Proof.Machine
end

