-- ==== Sys2Proof/Machine/State.lean ====
section
/-! DEFINITION. The state of the block (10_state.md R20), the events the outside world sends it, the reasons a step
can stop, and the state after power-on reset (R45, R240). -/

namespace Sys2Proof.Machine

/-- One channel's Reassembly Buffer (R21): the byte cells `PB_c`, the cursor `CUR_c`, the flag `CONT_c`. The profile
of the channel is configuration (R25). -/
structure Channel where
  /-- `PB_c[0..BUF_CAP-1]`; cells at and above the cursor are read by no rule (R21, R44) -/
  cells : List Byte
  /-- `CUR_c`, an integer 0..BUF_CAP, shown in 9 bits (R39; log 16) -/
  cur : Nat
  /-- `CONT_c` -/
  cont : Bool
  deriving DecidableEq, Repr

/-- The byte windows PKT_PAYLOAD, ENC_OUT and IN (R40 to R42), keyed by word index (20_memory.md R61), in the
canonical form `Memory.wf` (log 6). -/
abbrev Memory := List Host.Cell

/-- What the outside world does to the block (20_memory.md R60, R75; 70_reset_and_hazards.md R240). -/
inductive HostEvent where
  /-- `MemRead(index, 4)` -/
  | read (index : WordIndex)
  /-- `MemWrite(index, 4, value)` -/
  | write (index : WordIndex) (value : Word)
  /-- the platform asserts power-on reset (R240; log 3) -/
  | powerOnReset
  deriving DecidableEq, Repr

/-- The state of the block (R20) and, last, the model's own three fields. -/
structure State where
  /-- the channels' buffers, channel 0 first (R21) -/
  channels : List Channel
  /-- ARG (R31) -/
  arg : Word
  /-- RESULT (R32) -/
  result : Word
  /-- CK (R33) -/
  ck : Word
  /-- ENC_LEN (R34) -/
  encLen : Word
  /-- PKT0 (R35) -/
  pkt0 : Word
  /-- PKT1 (R36) -/
  pkt1 : Word
  /-- the data windows PKT_PAYLOAD, ENC_OUT and IN (R40 to R42) -/
  mem : Memory
  /-- MODEL: the events not yet served, oldest first (log 1) -/
  hostQueue : List HostEvent
  /-- MODEL: the word answered to the last host read served (log 2) -/
  readData : Option Word
  /-- MODEL: the number of power-on resets served, which the free power-up bytes depend on (log 3, log 4) -/
  powerCycle : Nat
  deriving DecidableEq, Repr

/-- Why the machine stops. -/
inductive Fault where
  /-- `Fault(UnwrittenInput)` (70_reset_and_hazards.md R244): raised by DECODE, BUILD and CK_COMPUTE when `IN[0..LEN)`
  holds a cell no host write has reached since power-on reset. SAFE: nothing can be proved of what follows. -/
  | unwrittenInput
  deriving DecidableEq, Repr

/-- Why an instruction has no meaning. -/
inductive Refusal where
  /-- raised by `exec` for an instruction not modelled yet; no arm of this model raises it. SAFE. -/
  | notModelled (mnemonic : String)
  deriving DecidableEq, Repr

/-- A channel right after reset (R45): empty, no continuation. The cells are unspecified and never read while the
cursor is 0; the model holds 0x00 (DESIGN CHOICE, log 5). -/
def Channel.fresh (cfg : Config) : Channel :=
  { cells := List.replicate cfg.bufCap 0x00#8, cur := 0, cont := false }

/-- The block of parameters `cfg` right after power-on reset (R45, R240). -/
def State.resetIn (cfg : Config) : State :=
  { channels := List.replicate cfg.nch (Channel.fresh cfg)
    arg := 0x00000000#32
    result := 0x00000000#32
    ck := 0x00000000#32
    encLen := 0x00000000#32
    pkt0 := 0x00000000#32
    pkt1 := 0x00000000#32
    mem := []
    hostQueue := []
    readData := none
    powerCycle := 0 }

/-- This hardware right after power-on reset (R45, R240). -/
def State.reset : State := State.resetIn Config.hw

end Sys2Proof.Machine
end

