-- ==== Sys2Proof/Machine/Ops.lean ====
section
/-! DEFINITION. The operations on memory and on the channels that every instruction shares, and `raise
ILLEGAL_COMMAND`, the one exceptional outcome a command takes by itself (60_exceptions.md R212). The block takes no
traps and returns from none (R218, R219). -/

namespace Sys2Proof.Machine

/-! ## The data windows -/

/-- The word index of `PKT_PAYLOAD[0]` (10_state.md R40). -/
def pktBase : Nat := 0x100

/-- The word index of `ENC_OUT[0]` (R41). -/
def encBase : Nat := 0x200

/-- The word index of `IN[0]` (R42). -/
def inBase : Nat := 0x400

/-- The number of cells of PKT_PAYLOAD (R40). -/
def pktCells : Nat := 256

/-- The word indices that hold a byte cell (20_memory.md R61): the three windows, less their reserved rest. -/
def isWindowCell (cfg : Config) (a : Nat) : Bool :=
  decide (pktBase ≤ a ∧ a < pktBase + pktCells) || decide (encBase ≤ a ∧ a < encBase + cfg.encCap) ||
    decide (inBase ≤ a ∧ a < inBase + cfg.inCap)

/-- What a cell no write has reached since reset holds (R45): 0x00 in PKT_PAYLOAD and ENC_OUT, no value in IN. -/
def Memory.unlisted (a : Nat) : Option Byte := if a < inBase then some 0x00#8 else none

/-- The listed byte of a cell. -/
def Memory.lookup : Memory → Nat → Option Byte
  | [], _ => none
  | (k, b) :: m, a => if a = k then some b else Memory.lookup m a

/-- Reading one byte: what the cell holds, none where it is unwritten. -/
def Memory.read (m : Memory) (a : Nat) : Option Byte :=
  match Memory.lookup m a with
  | some b => some b
  | none => Memory.unlisted a

/-- Listing a byte at its place in the rising order of addresses. -/
def Memory.insert : Memory → Nat → Byte → Memory
  | [], a, b => [(a, b)]
  | (k, v) :: m, a, b =>
    if a < k then (a, b) :: (k, v) :: m
    else if a = k then (a, b) :: m
    else (k, v) :: Memory.insert m a b

/-- Unlisting an address. -/
def Memory.erase : Memory → Nat → Memory
  | [], _ => []
  | (k, v) :: m, a => if a = k then Memory.erase m a else (k, v) :: Memory.erase m a

/-- Writing one byte; writing what an unlisted address reads as unlists it, so the form stays canonical. -/
def Memory.write (m : Memory) (a : Nat) (b : Byte) : Memory :=
  if Memory.unlisted a = some b then Memory.erase m a else Memory.insert m a b

/-- Writing `bs` to the cells from `a` up. -/
def Memory.writeBytes : Memory → Nat → List Byte → Memory
  | m, _, [] => m
  | m, a, b :: bs => Memory.writeBytes (Memory.write m a b) (a + 1) bs

/-- Reading `n` cells from `a` up, none if one of them is unwritten. -/
def Memory.readBytes (m : Memory) : Nat → Nat → Option (List Byte)
  | _, 0 => some []
  | a, n + 1 =>
    match Memory.read m a, Memory.readBytes m (a + 1) n with
    | some b, some bs => some (b :: bs)
    | _, _ => none

/-- The canonical form: addresses strictly rising, no entry equal to what an unlisted address reads as. -/
abbrev Memory.wf (m : Memory) : Prop :=
  m.Pairwise (fun x y => x.1 < y.1) ∧ ∀ e ∈ m, Memory.unlisted e.1 ≠ some e.2

/-! ## Channels -/

/-- Channel `c` of a block that has one (10_state.md R21). Outside `0..NCH-1`, which no legal command names, an
empty buffer stands for it (log 11). -/
def State.channel (s : State) (c : Nat) : Channel :=
  s.channels.getD c { cells := [], cur := 0, cont := false }

/-- Channel `c` replaced, every other channel left alone (R24). -/
def State.setChannel (s : State) (c : Nat) (ch : Channel) : State :=
  { s with channels := s.channels.set c ch }

/-- `R.RESULT <- w`: every command writes the whole register (60_exceptions.md R213). -/
def State.setResult (s : State) (w : Word) : State := { s with result := w }

/-- `raise ILLEGAL_COMMAND`: `R.RESULT <- 0x0000000A` and nothing else (00_scope.md R11, 60_exceptions.md R212). -/
def raiseIllegalCommand (s : State) : State := s.setResult 0x0000000A#32

end Sys2Proof.Machine
end

