-- ==== Sys2Proof/Machine/Flags.lean ====
section
/-! DEFINITION. The result codes (60_exceptions.md R210), the words RESULT, PKT0 and PKT1 with their flag bits
(10_state.md R32, R35, R36, R43), and the fields a host reads out of them. -/

namespace Sys2Proof.Machine

/-- The result codes (R210). -/
inductive ResultCode where
  | none
  | packet
  | shortData
  | checksumError
  | suffixError
  | detectedError
  | noDataAvailable
  | bufferOverflow
  | payloadTooLarge
  | ok
  | illegalCommand
  deriving DecidableEq, Repr

/-- The numbers of R210. -/
def ResultCode.number : ResultCode → Byte
  | .none => 0x00#8
  | .packet => 0x01#8
  | .shortData => 0x02#8
  | .checksumError => 0x03#8
  | .suffixError => 0x04#8
  | .detectedError => 0x05#8
  | .noDataAvailable => 0x06#8
  | .bufferOverflow => 0x07#8
  | .payloadTooLarge => 0x08#8
  | .ok => 0x09#8
  | .illegalCommand => 0x0A#8

/-- The five classes of BB's taxonomy and the two the spec adds (R211), and `success`, which R211 does not have: the
model's own class for PACKET and OK (DESIGN CHOICE, log 18). -/
inductive ResultClass where
  | benign
  | continuation
  | corruptFrame
  | deviceReportedFault
  | fatalForTheFrame
  | encoderRefusal
  | commandRefusal
  | success
  deriving DecidableEq, Repr

/-- The class of a result (R211). R211 gives PACKET and OK no class, nor NONE, which no command leaves: that the first two
are `success` and the last has none is the model's choice (DESIGN CHOICE, log 18). -/
def ResultCode.class : ResultCode → Option ResultClass
  | .none => .none
  | .packet => some .success
  | .shortData => some .continuation
  | .checksumError => some .corruptFrame
  | .suffixError => some .corruptFrame
  | .detectedError => some .deviceReportedFault
  | .noDataAvailable => some .benign
  | .bufferOverflow => some .fatalForTheFrame
  | .payloadTooLarge => some .encoderRefusal
  | .ok => some .success
  | .illegalCommand => some .commandRefusal

/-- One bit at position `n` of a word. -/
def flagBit (n : Nat) (v : Bool) : Word := (BitVec.ofBool v).setWidth 32 <<< n

/-- RESULT: CODE in 7:0, STATUS in 15:8, VERIFY_OK in bit 16, the rest 0 (R32, R213). -/
def resultWord (code : ResultCode) (status : Byte) (verifyOk : Bool) : Word :=
  code.number.setWidth 32 ||| (status.setWidth 32 <<< 8) ||| flagBit 16 verifyOk

/-- RESULT of a command that reports only a code (R213). -/
def codeWord (code : ResultCode) : Word := resultWord code 0x00#8 false

/-- `PKT0` of a packet (40_frame_decoder.md R126): for BM the id and the three flags, for MC the header alone. -/
def pkt0Word (prof : Profile) (id : Byte) : Word :=
  match prof with
  | .bm =>
    (hdr .bm).setWidth 32 ||| (id.setWidth 32 <<< 8) ||| ((0x00#8).setWidth 32 <<< 16) ||| flagBit 24 true |||
      flagBit 25 true ||| flagBit 26 true
  | .mc => (hdr .mc).setWidth 32

/-- `PKT1` of a packet: the payload length and the channel (R126). -/
def pkt1Word (n c : Nat) : Word := BitVec.ofNat 32 n ||| (BitVec.ofNat 32 c <<< 16)

/-- RESULT.CODE (R32). -/
def State.resultCode (s : State) : Byte := s.result.extractLsb' 0 8

/-- RESULT.STATUS (R32). -/
def State.resultStatus (s : State) : Byte := s.result.extractLsb' 8 8

/-- RESULT.VERIFY_OK (R32, R43). -/
def State.verifyOk (s : State) : Bool := s.result.getLsbD 16

/-- PKT0.HDR (R35). -/
def State.pktHdr (s : State) : Byte := s.pkt0.extractLsb' 0 8

/-- PKT0.ID (R35). -/
def State.pktId (s : State) : Byte := s.pkt0.extractLsb' 8 8

/-- PKT0.STATUS (R35). -/
def State.pktStatus (s : State) : Byte := s.pkt0.extractLsb' 16 8

/-- PKT0.HAS_ID (R35, R43). -/
def State.pktHasId (s : State) : Bool := s.pkt0.getLsbD 24

/-- PKT0.HAS_STATUS (R35, R43). -/
def State.pktHasStatus (s : State) : Bool := s.pkt0.getLsbD 25

/-- PKT0.CK_VALID (R35, R43). -/
def State.pktCkValid (s : State) : Bool := s.pkt0.getLsbD 26

/-- PKT1.LEN (R36). -/
def State.pktLen (s : State) : BitVec 9 := s.pkt1.extractLsb' 0 9

/-- PKT1.CH (R36). -/
def State.pktCh (s : State) : BitVec 4 := s.pkt1.extractLsb' 16 4

end Sys2Proof.Machine
end

