-- ==== Sys2Proof/Machine/Operands.lean ====
section
/-! DEFINITION. The operands of a command besides its word: the bytes of ARG (30_encoding.md R85 to R88) and the
bytes `IN[0..LEN)`, sampled when the CMD write is served (20_memory.md R72). -/

namespace Sys2Proof.Machine

/-- ARG[7:0]: mode (R85), the length value (R86), expectedHigh (R87). -/
def State.arg0 (s : State) : Byte := s.arg.extractLsb' 0 8

/-- ARG[15:8]: cmdID (R85, R86), expectedLow (R87). -/
def State.arg1 (s : State) : Byte := s.arg.extractLsb' 8 8

/-- ARG[23:16]: receivedHigh (R87). -/
def State.arg2 (s : State) : Byte := s.arg.extractLsb' 16 8

/-- ARG[31:24]: receivedLow (R87). -/
def State.arg3 (s : State) : Byte := s.arg.extractLsb' 24 8

/-- `IN[0..n)`, none where a cell is unwritten (70_reset_and_hazards.md R244). -/
def State.sampleIn (s : State) (n : Nat) : Option (List Byte) := Memory.readBytes s.mem inBase n

end Sys2Proof.Machine
end

