-- ==== Sys2Proof/Machine/Checksum.lean ====
section
/-! DEFINITION. The Checksum Validator (42_checksum.md): `compute`, `verify`, and the commands CK_COMPUTE and
CK_VERIFY. -/

namespace Sys2Proof.Machine

/-- Two's-complement negation truncated to 16 bits (00_scope.md R9). -/
def neg16 (v : Nat) : U16 := BitVec.ofNat 16 ((0x10000 - v % 0x10000) % 0x10000)

/-- The sum of a byte sequence as an unbounded integer (R10). -/
def sum8 (p : List Byte) : Nat := (p.map BitVec.toNat).sum

/-- `compute(cmdID, length, payload)` (R170). -/
def compute (cmdId length : Byte) (payload : List Byte) : U16 :=
  neg16 (length.toNat + cmdId.toNat + sum8 payload)

/-- The byte sent first on the wire, `v[15:8]` (20_memory.md R67). -/
def highByte (v : U16) : Byte := v.extractLsb' 8 8

/-- The byte sent second, `v[7:0]` (R67). -/
def lowByte (v : U16) : Byte := v.extractLsb' 0 8

/-- `verify(expectedHigh, expectedLow, receivedHigh, receivedLow)` (R172). -/
def verify (expectedHigh expectedLow receivedHigh receivedLow : Byte) : Bool :=
  decide (expectedHigh = receivedHigh) && decide (expectedLow = receivedLow)

/-- CK_COMPUTE (R171) on a block of parameters `cfg`. -/
def execCkComputeIn (cfg : Config) (len : BitVec 16) (s : State) : Host.Outcome State Fault Refusal :=
  if lengthOk cfg len then
    match s.sampleIn len.toNat with
    | none => .fault .unwrittenInput
    | some p => .next { s with ck := (compute s.arg1 s.arg0 p).setWidth 32, result := codeWord .ok }
  else .next (raiseIllegalCommand s)

/-- CK_COMPUTE (R171). -/
def execCkCompute (len : BitVec 16) (s : State) : Host.Outcome State Fault Refusal :=
  execCkComputeIn Config.hw len s

/-- CK_VERIFY (R173): RESULT is OK with VERIFY_OK saying whether the two byte pairs of ARG are equal. -/
def execCkVerify (s : State) : Host.Outcome State Fault Refusal :=
  .next (s.setResult (resultWord .ok 0x00#8 (verify s.arg0 s.arg1 s.arg2 s.arg3)))

end Sys2Proof.Machine
end

