-- ==== Sys2Proof/Machine/Encoder.lean ====
section
/-! DEFINITION. The Packet Encoder (43_encoder.md): the BM request frame and the command BUILD. -/

namespace Sys2Proof.Machine

/-- The checksum, high byte first, and the suffix: the last three bytes of every BM frame (30_encoding.md R92, R93). -/
def bmTrailer (ck : U16) : List Byte := [highByte ck, lowByte ck, sfx .bm]

/-- `frame(mode, cmdID, p)` (R192), the BM request frame of 30_encoding.md R92. -/
def requestFrame (mode cmdId : Byte) (p : List Byte) : List Byte :=
  [hdr .bm, mode, cmdId, BitVec.ofNat 8 p.length] ++ p ++ bmTrailer (compute cmdId (BitVec.ofNat 8 p.length) p)

/-- The size check of R191. -/
def payloadTooLarge (cfg : Config) (n : Nat) : Bool := decide (255 < n ∨ cfg.encCap < 7 + n)

/-- BUILD (R190) on a block of parameters `cfg`. -/
def execBuildIn (cfg : Config) (len : BitVec 16) (s : State) : Host.Outcome State Fault Refusal :=
  if lengthOk cfg len then
    match s.sampleIn len.toNat with
    | none => .fault .unwrittenInput
    | some p =>
      if payloadTooLarge cfg len.toNat then
        .next { s with encLen := 0x00000000#32, result := codeWord .payloadTooLarge }
      else
        .next { s with
          mem := Memory.writeBytes s.mem encBase (requestFrame s.arg0 s.arg1 p)
          encLen := BitVec.ofNat 32 (7 + len.toNat)
          result := codeWord .ok }
  else .next (raiseIllegalCommand s)

/-- BUILD (R190). -/
def execBuild (len : BitVec 16) (s : State) : Host.Outcome State Fault Refusal := execBuildIn Config.hw len s

end Sys2Proof.Machine
end

