-- ==== Sys2Proof/Machine/Reassembly.lean ====
section
/-! DEFINITION. The Reassembly Buffer (41_reassembly_buffer.md): `append`, `clear`, the contents, the save of a SHORT
result, and the command RESET. -/

namespace Sys2Proof.Machine

/-- The buffered bytes, `PB_c[0..CUR_c)` (R150). -/
def Channel.contents (ch : Channel) : List Byte := ch.cells.take ch.cur

/-- Bytes written to the cells from index `k` up. -/
def putCells : List Byte → Nat → List Byte → List Byte
  | cells, _, [] => cells
  | cells, k, b :: bs => putCells (cells.set k b) (k + 1) bs

/-- `append(c, bs)` (R151): none, with nothing written, where the bytes do not fit. -/
def Channel.append (cfg : Config) (ch : Channel) (bs : List Byte) : Option Channel :=
  if cfg.bufCap < ch.cur + bs.length then none
  else some { ch with cells := putCells ch.cells ch.cur bs, cur := ch.cur + bs.length }

/-- `clear(c)` (R154): the cells keep what they held. -/
def Channel.clear (ch : Channel) : Channel := { ch with cur := 0, cont := false }

/-- `clear(c)` on the state. -/
def State.clearChannel (s : State) (c : Nat) : State := s.setChannel c (s.channel c).clear

/-- BUFFER_OVERFLOW on channel `c`: the channel is cleared and nothing but RESULT tells of it (R152, R153, R155). -/
def State.overflow (s : State) (c : Nat) : State :=
  (s.clearChannel c).setResult (codeWord .bufferOverflow)

/-- `save(c, input, st, h)` (R153), `h` being none exactly where the pass ended in ReadHeader: SHORT_DATA with the
retained bytes `input[h..)` kept, or with nothing kept, or BUFFER_OVERFLOW. -/
def State.saveShort (cfg : Config) (s : State) (c : Nat) (input : List Byte) (h : Option Nat) : State :=
  match h with
  | none => (s.clearChannel c).setResult (codeWord .shortData)
  | some h =>
    match (s.channel c).clear.append cfg (input.drop h) with
    | none => s.overflow c
    | some ch => (s.setChannel c { ch with cont := true }).setResult (codeWord .shortData)

/-- RESET (R156) on a block of parameters `cfg`. -/
def execResetIn (cfg : Config) (ch : BitVec 4) (s : State) : Host.Outcome State Fault Refusal :=
  if channelOk cfg ch then .next ((s.clearChannel ch.toNat).setResult (codeWord .ok))
  else .next (raiseIllegalCommand s)

/-- RESET (R156). -/
def execReset (ch : BitVec 4) (s : State) : Host.Outcome State Fault Refusal :=
  execResetIn Config.hw ch s

end Sys2Proof.Machine
end

