-- ==== Sys2Proof/Machine/FrameDecoder.lean ====
section
/-! DEFINITION. The Frame Decoder (40_frame_decoder.md): the finite-state machine, the decode pass, how its result is
applied, and the command DECODE. -/

namespace Sys2Proof.Machine

/-- DecodeState (10_state.md R27). -/
inductive DecodeState where
  | readHeader
  | readRegister
  | checkStatus
  | readLength
  | readPayload
  | checksumHigh
  | checksumLow
  | readSuffix
  deriving DecidableEq, Repr

/-- The code of a state (R27); no host-visible field carries it. -/
def DecodeState.code : DecodeState → BitVec 3
  | .readHeader => 0
  | .readRegister => 1
  | .checkStatus => 2
  | .readLength => 3
  | .readPayload => 4
  | .checksumHigh => 5
  | .checksumLow => 6
  | .readSuffix => 7

/-- The states a profile uses (R27, R28). -/
def DecodeState.active (prof : Profile) (st : DecodeState) : Bool :=
  match prof with
  | .bm => true
  | .mc =>
    match st with
    | .readHeader | .readPayload | .readSuffix => true
    | .readRegister | .checkStatus | .readLength | .checksumHigh | .checksumLow => false

/-- The working state of one decode pass (10_state.md R26). It is no part of `State`. -/
structure Transient where
  /-- the current FSM state -/
  st : DecodeState
  /-- the position of the next input byte -/
  i : Nat
  /-- the position of the header byte -/
  h : Option Nat
  /-- the command id captured in ReadRegister -/
  id : Byte
  /-- the status captured in CheckStatus -/
  status : Byte
  /-- the payload length, 0..255 -/
  n : Nat
  /-- the payload bytes received so far, 0..255 -/
  k : Nat
  /-- `P`, those bytes -/
  payload : List Byte
  /-- the running sum -/
  sum : U16
  /-- the received checksum high byte -/
  ckh : Byte
  /-- a checksum mismatch was seen -/
  ckerr : Bool
  deriving DecidableEq, Repr

/-- The initial state of every pass (R26, R112). -/
def Transient.init : Transient :=
  { st := .readHeader, i := 0, h := none, id := 0x00#8, status := 0x00#8, n := 0, k := 0, payload := []
    sum := 0x0000#16, ckh := 0x00#8, ckerr := false }

/-- What a completed frame hands on (R126). -/
structure Packet where
  /-- the command id (BM) -/
  id : Byte
  /-- the payload length -/
  n : Nat
  /-- the payload -/
  payload : List Byte
  deriving DecidableEq, Repr

/-- The results of a decode pass (R113). -/
inductive PassResult where
  | packet (pkt : Packet)
  | checksumError
  | suffixError
  | detectedError (status : Byte)
  /-- `SHORT(st, h)` (R124) -/
  | short (st : DecodeState) (h : Option Nat)
  deriving DecidableEq, Repr

/-- What one byte does: the pass goes on, or the byte is terminal (R113). -/
inductive ByteStep where
  | go (t : Transient)
  | done (r : PassResult)
  deriving DecidableEq, Repr

/-- ReadHeader (R114, R115). -/
def readHeader (prof : Profile) (b : Byte) (t : Transient) : ByteStep :=
  if b = hdr prof then
    match prof with
    | .bm => .go { t with h := some t.i, st := .readRegister }
    | .mc => .go { t with h := some t.i, n := mcPayloadLength, k := 0, payload := [], st := .readPayload }
  else .go t

/-- ReadRegister (R116). -/
def readRegister (b : Byte) (t : Transient) : ByteStep := .go { t with id := b, st := .checkStatus }

/-- CheckStatus (R117). -/
def checkStatus (b : Byte) (t : Transient) : ByteStep :=
  if b = 0x00#8 then .go { t with status := b, st := .readLength } else .done (.detectedError b)

/-- The seed of the running sum (R118). -/
def seedSum (seed : SeedKind) (id len : Byte) : U16 :=
  match seed with
  | .idLen => id.setWidth 16 + len.setWidth 16
  | .lenOnly => len.setWidth 16

/-- ReadLength (R118). -/
def readLength (cfg : Config) (b : Byte) (t : Transient) : ByteStep :=
  .go { t with n := b.toNat, sum := seedSum cfg.seed t.id b, k := 0, payload := []
               st := if b = 0x00#8 then .checksumHigh else .readPayload }

/-- ReadPayload (R119 for BM, R120 for MC). -/
def readPayload (prof : Profile) (b : Byte) (t : Transient) : ByteStep :=
  match prof with
  | .bm =>
    .go { t with payload := t.payload ++ [b], k := t.k + 1, sum := t.sum + b.setWidth 16
                 st := if t.k + 1 = t.n then .checksumHigh else .readPayload }
  | .mc =>
    .go { t with payload := t.payload ++ [b], k := t.k + 1
                 st := if t.k + 1 = mcPayloadLength then .readSuffix else .readPayload }

/-- ChecksumHigh (R121). -/
def checksumHigh (b : Byte) (t : Transient) : ByteStep := .go { t with ckh := b, st := .checksumLow }

/-- ChecksumLow (R122): a mismatch is noted and the frame goes on. -/
def checksumLow (b : Byte) (t : Transient) : ByteStep :=
  let e := neg16 t.sum.toNat
  .go { t with ckerr := t.ckerr || !verify (highByte e) (lowByte e) t.ckh b, st := .readSuffix }

/-- ReadSuffix (R123): a mismatch seen earlier wins over the suffix test. -/
def readSuffix (prof : Profile) (b : Byte) (t : Transient) : ByteStep :=
  if t.ckerr then .done .checksumError
  else if b = sfx prof then .done (.packet { id := t.id, n := t.n, payload := t.payload })
  else .done .suffixError

/-- One byte of the pass, by the current state (R113, R125). The inactive states of MC are never entered (R28), so
what they would do there is not observable (log 10). -/
def stepByte (cfg : Config) (prof : Profile) (b : Byte) (t : Transient) : ByteStep :=
  match t.st with
  | .readHeader => readHeader prof b t
  | .readRegister => readRegister b t
  | .checkStatus => checkStatus b t
  | .readLength => readLength cfg b t
  | .readPayload => readPayload prof b t
  | .checksumHigh => checksumHigh b t
  | .checksumLow => checksumLow b t
  | .readSuffix => readSuffix prof b t

/-- The pass loop (R113) from working state `t` over the bytes still to come; R124 where they run out. -/
def passFrom (cfg : Config) (prof : Profile) : List Byte → Transient → PassResult
  | [], t => .short t.st t.h
  | b :: rest, t =>
    match stepByte cfg prof b t with
    | .done r => r
    | .go t' => passFrom cfg prof rest { t' with i := t'.i + 1 }

/-- `pass(prof, input)` (R112, R113). -/
def pass (cfg : Config) (prof : Profile) (input : List Byte) : PassResult :=
  passFrom cfg prof input Transient.init

/-- PACKET applied (R126): the packet registers and the payload cells are written, the channel is cleared. -/
def State.applyPacket (s : State) (c : Nat) (prof : Profile) (pkt : Packet) : State :=
  { s.clearChannel c with
    pkt0 := pkt0Word prof pkt.id
    pkt1 := pkt1Word pkt.n c
    mem := Memory.writeBytes s.mem pktBase (pkt.payload.take pkt.n)
    result := codeWord .packet }

/-- A terminal error applied (R127): the channel is cleared, only RESULT tells of it. -/
def State.applyError (s : State) (c : Nat) (w : Word) : State := (s.clearChannel c).setResult w

/-- `apply(c, prof, r, input)` (R126 to R128); a SHORT that ended in ReadHeader retains nothing (R153). -/
def State.applyResult (cfg : Config) (s : State) (c : Nat) (prof : Profile) (r : PassResult)
    (input : List Byte) : State :=
  match r with
  | .packet pkt => s.applyPacket c prof pkt
  | .checksumError => s.applyError c (codeWord .checksumError)
  | .suffixError => s.applyError c (codeWord .suffixError)
  | .detectedError status => s.applyError c (resultWord .detectedError status false)
  | .short .readHeader _ => s.saveShort cfg c input none
  | .short _ h => s.saveShort cfg c input h

/-- The decode of a non-empty chunk on channel `c` (R111): parsed in place, or appended to the buffer first. -/
def State.decodeChunk (cfg : Config) (s : State) (c : Nat) (chunk : List Byte) : State :=
  let prof := cfg.profile c
  if (s.channel c).cont then
    match (s.channel c).append cfg chunk with
    | none => s.overflow c
    | some ch =>
      (s.setChannel c { ch with cont := false }).applyResult cfg c prof (pass cfg prof ch.contents) ch.contents
  else s.applyResult cfg c prof (pass cfg prof chunk) chunk

/-- DECODE (R110, R111) on a block of parameters `cfg`, its checks in the order of 60_exceptions.md R215. -/
def execDecodeIn (cfg : Config) (ch : BitVec 4) (len : BitVec 16) (s : State) : Host.Outcome State Fault Refusal :=
  if channelOk cfg ch && lengthOk cfg len then
    match s.sampleIn len.toNat with
    | none => .fault .unwrittenInput
    | some chunk =>
      if len = 0#16 then .next (s.setResult (codeWord .noDataAvailable))
      else .next (s.decodeChunk cfg ch.toNat chunk)
  else .next (raiseIllegalCommand s)

/-- DECODE (R110, R111). -/
def execDecode (ch : BitVec 4) (len : BitVec 16) (s : State) : Host.Outcome State Fault Refusal :=
  execDecodeIn Config.hw ch len s

end Sys2Proof.Machine
end

