-- ==== Sys2Proof/Machine/Dispatch.lean ====
section
/-! DEFINITION. One arm per command. -/

namespace Sys2Proof.Machine

def exec (i : Instr) (s : State) : Host.Outcome State Fault Refusal :=
  match i with
  | .decode ch len => Sys2Proof.Machine.execDecode ch len s
  | .reset ch => Sys2Proof.Machine.execReset ch s
  | .build len => Sys2Proof.Machine.execBuild len s
  | .ckCompute len => Sys2Proof.Machine.execCkCompute len s
  | .ckVerify => Sys2Proof.Machine.execCkVerify s

end Sys2Proof.Machine
end

