-- ==== Sys2Proof/Machine/HostBus.lean ====
section
/-! DEFINITION. The host register space (20_memory.md R60 to R66): the register map, what a host read returns, what
a host write does, the issue of a command by a write to CMD (30_encoding.md R80), and the host statements of R97 to
R99. -/

namespace Sys2Proof.Machine

/-- The registers and window cells of 10_state.md R29. -/
inductive HostReg where
  | cmd
  | arg
  | result
  | ck
  | encLen
  | pkt0
  | pkt1
  | config0
  | config1
  | chStat (c : Nat)
  | pktPayload (j : Nat)
  | encOut (j : Nat)
  | inCell (j : Nat)
  deriving DecidableEq, Repr

/-- The register a word index names, none where the index is reserved (R29, R61). -/
def regAt (cfg : Config) (a : WordIndex) : Option HostReg :=
  let n := a.toNat
  if n < 0x010 then
    match n with
    | 0x000 => some .cmd
    | 0x001 => some .arg
    | 0x002 => some .result
    | 0x003 => some .ck
    | 0x004 => some .encLen
    | 0x005 => some .pkt0
    | 0x006 => some .pkt1
    | 0x007 => some .config0
    | 0x008 => some .config1
    | _ => none
  else if n < 0x020 then
    if n - 0x010 < cfg.nch then some (.chStat (n - 0x010)) else none
  else if n < 0x100 then none
  else if n < 0x200 then some (.pktPayload (n - 0x100))
  else if n < 0x400 then
    if n - 0x200 < cfg.encCap then some (.encOut (n - 0x200)) else none
  else if n - 0x400 < cfg.inCap then some (.inCell (n - 0x400)) else none

/-- `index(<reg>)` (R97). -/
def HostReg.index : HostReg → WordIndex
  | .cmd => 0x000#11
  | .arg => 0x001#11
  | .result => 0x002#11
  | .ck => 0x003#11
  | .encLen => 0x004#11
  | .pkt0 => 0x005#11
  | .pkt1 => 0x006#11
  | .config0 => 0x007#11
  | .config1 => 0x008#11
  | .chStat c => BitVec.ofNat 11 (0x010 + c)
  | .pktPayload j => BitVec.ofNat 11 (0x100 + j)
  | .encOut j => BitVec.ofNat 11 (0x200 + j)
  | .inCell j => BitVec.ofNat 11 (0x400 + j)

/-- CONFIG0 (10_state.md R37): BUF_CAP in 8:0, ENC_CAP in 24:16. -/
def config0Word (cfg : Config) : Word :=
  (BitVec.ofNat 9 cfg.bufCap).setWidth 32 ||| ((BitVec.ofNat 9 cfg.encCap).setWidth 32 <<< 16)

/-- CONFIG1 (R38): IN_CAP in 10:0, NCH in 20:16, DEC_CK_SEED in bit 24. -/
def config1Word (cfg : Config) : Word :=
  (BitVec.ofNat 11 cfg.inCap).setWidth 32 ||| ((BitVec.ofNat 5 cfg.nch).setWidth 32 <<< 16) |||
    flagBit 24 (seedBit cfg.seed)

/-- CH_STAT[c] (R39): CUR_c in 8:0, CONT_c in bit 9, PROFILE(c) in bit 10. -/
def chStatWord (cfg : Config) (s : State) (c : Nat) : Word :=
  (BitVec.ofNat 9 (s.channel c).cur).setWidth 32 ||| flagBit 9 (s.channel c).cont |||
    flagBit 10 (profileBit (cfg.profile c))

/-- A window cell as a word: the byte in bits 7:0 (R40 to R42). -/
def cellWord (b : Byte) : Word := b.setWidth 32

/-- The byte a host read of `IN[j]` returns: what was written, or the free power-up byte of an unwritten cell
(R42, 93_implementation_defined.md U7; log 4). -/
def inReadByte (s : State) (j : Nat) : Byte :=
  match Memory.read s.mem (inBase + j) with
  | some b => b
  | none => Config.powerUpIn s.powerCycle j

/-- The value of a host read of a register. CMD reads 0 (R63). -/
def readReg (cfg : Config) (s : State) : HostReg → Word
  | .cmd => 0x00000000#32
  | .arg => s.arg
  | .result => s.result
  | .ck => s.ck
  | .encLen => s.encLen
  | .pkt0 => s.pkt0
  | .pkt1 => s.pkt1
  | .config0 => config0Word cfg
  | .config1 => config1Word cfg
  | .chStat c => chStatWord cfg s c
  | .pktPayload j => cellWord ((Memory.read s.mem (pktBase + j)).getD 0x00#8)
  | .encOut j => cellWord ((Memory.read s.mem (encBase + j)).getD 0x00#8)
  | .inCell j => cellWord (inReadByte s j)

/-- `MemRead(a, 4)`: a reserved index reads 0 (R62). -/
def busRead (cfg : Config) (a : WordIndex) (s : State) : Word :=
  match regAt cfg a with
  | some r => readReg cfg s r
  | none => 0x00000000#32

/-- A command issued by writing `w` to CMD (30_encoding.md R80): an illegal word raises ILLEGAL_COMMAND. -/
def issueCommand (w : Word) (s : State) : Host.Outcome State Fault Refusal :=
  match decodeWord w with
  | .ok i => exec i s
  | .error _ => .next (raiseIllegalCommand s)

/-- `MemWrite(a, 4, w)`: a write to CMD issues a command, one to ARG or IN stores, every other is ignored
(20_memory.md R62, R63, R65). -/
def busWrite (cfg : Config) (a : WordIndex) (w : Word) (s : State) : Host.Outcome State Fault Refusal :=
  match regAt cfg a with
  | some .cmd => issueCommand w s
  | some .arg => .next { s with arg := w }
  | some (.inCell j) => .next { s with mem := Memory.write s.mem (inBase + j) (w.extractLsb' 0 8) }
  | some .result | some .ck | some .encLen | some .pkt0 | some .pkt1 | some .config0 | some .config1
  | some (.chStat _) | some (.pktPayload _) | some (.encOut _) => .next s
  | none => .next s

/-- Power-on reset (70_reset_and_hazards.md R240): every piece of the block's state goes to its reset value. The
events still to come stay, and the unwritten IN cells hold what this power-up left in them (log 3). -/
def powerOn (s : State) : State :=
  { State.reset with hostQueue := s.hostQueue, powerCycle := s.powerCycle + 1 }

/-- One event served on this hardware, the event itself already taken from the queue. -/
def serve (e : HostEvent) (s : State) : Host.Outcome State Fault Refusal :=
  match e with
  | .read a => .next { s with readData := some (busRead Config.hw a s) }
  | .write a w => busWrite Config.hw a w s
  | .powerOnReset => .next (powerOn s)

/-! ## Host statements (30_encoding.md R97 to R99) -/

/-- `WR <reg>, <value>` (R97). -/
def hostWr (r : HostReg) (v : Word) : HostEvent := .write r.index v

/-- `RD <reg>` (R97). -/
def hostRd (r : HostReg) : HostEvent := .read r.index

/-- A command mnemonic: exactly one `WR CMD, w` (R98). -/
def hostCommand (i : Instr) : HostEvent := hostWr .cmd (encode i)

/-- The writes of `LOADIN`, from cell `j` up. -/
def loadInFrom : Nat → List Byte → List HostEvent
  | _, [] => []
  | j, b :: bs => hostWr (.inCell j) (b.setWidth 32) :: loadInFrom (j + 1) bs

/-- `LOADIN {b0 … bk-1}` (R99), none where `k` exceeds IN_CAP. -/
def hostLoadIn (cfg : Config) (bs : List Byte) : Option (List HostEvent) :=
  if bs.length ≤ cfg.inCap then some (loadInFrom 0 bs) else none

/-- Two bytes of ARG, the lower first, as BUILD and CK_COMPUTE take them (R99). -/
def argPair (low high : Byte) : Word := low.setWidth 32 ||| (high.setWidth 32 <<< 8)

/-- `FEED ch<c>, {bytes}` (R99). -/
def hostFeed (cfg : Config) (c : BitVec 4) (bs : List Byte) : Option (List HostEvent) :=
  (hostLoadIn cfg bs).map (· ++ [hostCommand (.decode c (BitVec.ofNat 16 bs.length))])

/-- `SEND <mode>, <cmd>, {payload}` (R99). -/
def hostSend (cfg : Config) (mode cmdId : Byte) (p : List Byte) : Option (List HostEvent) :=
  (hostLoadIn cfg p).map
    (· ++ [hostWr .arg (argPair mode cmdId), hostCommand (.build (BitVec.ofNat 16 p.length))])

/-- `CKSUM <cmd>, <len>, {payload}` (R99). -/
def hostCksum (cfg : Config) (cmdId length : Byte) (p : List Byte) : Option (List HostEvent) :=
  (hostLoadIn cfg p).map
    (· ++ [hostWr .arg (argPair length cmdId), hostCommand (.ckCompute (BitVec.ofNat 16 p.length))])

/-- `VERIFY <eh>, <el>, <rh>, <rl>` (R99). -/
def hostVerify (eh el rh rl : Byte) : List HostEvent :=
  [hostWr .arg (argPair eh el ||| (rh.setWidth 32 <<< 16) ||| (rl.setWidth 32 <<< 24)), hostCommand .ckVerify]

end Sys2Proof.Machine
end

