-- ==== Sys2Proof/Machine/Step.lean ====
section
/-! DEFINITION. One step of the machine: the oldest event of the queue is served as one indivisible step
(20_memory.md R66, R69); with none the block is idle and keeps its state (60_exceptions.md R227). -/

namespace Sys2Proof.Machine

/-- One step (00_scope.md R5, R12). -/
def step (s : State) : Host.Outcome State Fault Refusal :=
  match s.hostQueue with
  | [] => .next s
  | e :: rest => serve e { s with hostQueue := rest }

/-- The host's next access is the write of the command word `w` to CMD: the block fetches no instructions
(20_memory.md R72), a command reaches it only so (10_state.md R30; log 1). -/
def State.withFetchWord (s : State) (nbits w : Nat) : State :=
  { s with hostQueue := .write 0x000#11 (BitVec.ofNat 32 (w % 2 ^ nbits)) :: s.hostQueue }

end Sys2Proof.Machine
end

