-- ==== Sys2Proof/Safety.lean ====
section
/-! DEFINITION. The terms claims are made in: the invariants of the state (10_state.md R22, R23, R32 to R36), what two
states may differ in without any host telling them apart (R44), and what a safe run is (70_reset_and_hazards.md
R244). -/

namespace Sys2Proof.Machine

/-- Channel `ch` of profile `prof` is as R21 to R23 say: BUF_CAP cells, the cursor within them, a continuation only
with a header byte buffered, no byte buffered without a continuation. -/
def Channel.Ok (cfg : Config) (prof : Profile) (ch : Channel) : Prop :=
  ch.cells.length = cfg.bufCap ∧ ch.cur ≤ cfg.bufCap ∧
    (ch.cont = true → 1 ≤ ch.cur ∧ ch.cells[0]? = some (hdr prof)) ∧ (ch.cont = false → ch.cur = 0)

/-- Every channel of the block is as R21 to R23 say. -/
def State.ChannelsOk (cfg : Config) (s : State) : Prop :=
  s.channels.length = cfg.nch ∧ ∀ c, c < cfg.nch → (s.channel c).Ok cfg (cfg.profile c)

/-- The windows' memory is canonical and lists window cells only (20_memory.md R61). -/
def State.MemoryOk (cfg : Config) (s : State) : Prop :=
  Memory.wf s.mem ∧ ∀ e ∈ s.mem, isWindowCell cfg e.1 = true

/-- RESULT: the bits R32 does not name are 0, CODE is a number of R210, STATUS is nonzero exactly for
DETECTED_ERROR, VERIFY_OK is set only beside OK. -/
def State.ResultOk (s : State) : Prop :=
  s.result >>> 17 = 0#32 ∧ s.resultCode.toNat ≤ 0x0A ∧ (s.resultStatus ≠ 0#8 ↔ s.resultCode = 0x05#8) ∧
    (s.verifyOk = true → s.resultCode = 0x09#8)

/-- CK and ENC_LEN: the bits R33 and R34 do not name are 0, and ENC_LEN is 0 or the length of a frame that fits
ENC_OUT. -/
def State.OutputsOk (cfg : Config) (s : State) : Prop :=
  s.ck >>> 16 = 0#32 ∧ (s.encLen = 0#32 ∨ 7 ≤ s.encLen.toNat ∧ s.encLen.toNat ≤ cfg.encCap)

/-- PKT0 and PKT1: the bits R35 and R36 do not name are 0, STATUS is 0, the three flags agree, LEN is at most 255
and CH names a channel. -/
def State.PacketOk (cfg : Config) (s : State) : Prop :=
  s.pkt0 >>> 27 = 0#32 ∧ s.pktStatus = 0#8 ∧ s.pktHasId = s.pktCkValid ∧ s.pktHasStatus = s.pktCkValid ∧
    s.pkt1 &&& 0xFFF0FE00#32 = 0#32 ∧ s.pktLen.toNat ≤ 255 ∧ s.pktCh.toNat < cfg.nch

/-- The invariant of the machine. -/
structure State.Inv (cfg : Config) (s : State) : Prop where
  channels : s.ChannelsOk cfg
  memory : s.MemoryOk cfg
  result : s.ResultOk
  outputs : s.OutputsOk cfg
  packet : s.PacketOk cfg

/-- What a cell of the windows or the output registers holds alike in two states: everything but the channels. -/
def State.SameButChannels (s t : State) : Prop :=
  s.arg = t.arg ∧ s.result = t.result ∧ s.ck = t.ck ∧ s.encLen = t.encLen ∧ s.pkt0 = t.pkt0 ∧ s.pkt1 = t.pkt1 ∧
    s.mem = t.mem ∧ s.hostQueue = t.hostQueue ∧ s.readData = t.readData ∧ s.powerCycle = t.powerCycle

/-- Two channels no rule can tell apart (10_state.md R44): the same cursor, flag and buffered bytes; cells at and
above the cursor may differ. -/
def Channel.Alike (x y : Channel) : Prop :=
  x.cells.length = y.cells.length ∧ x.cur = y.cur ∧ x.cont = y.cont ∧ x.contents = y.contents

/-- Two states no host can tell apart (R44). -/
def State.Alike (s t : State) : Prop :=
  s.SameButChannels t ∧ s.channels.length = t.channels.length ∧ ∀ c, (s.channel c).Alike (t.channel c)

/-- A command leaves ARG, the model's own fields and every IN cell as they were (10_state.md R31, R42). -/
structure Untouched (s t : State) : Prop where
  arg : t.arg = s.arg
  hostQueue : t.hostQueue = s.hostQueue
  readData : t.readData = s.readData
  powerCycle : t.powerCycle = s.powerCycle
  inCells : ∀ a, inBase ≤ a → Memory.read t.mem a = Memory.read s.mem a

/-- The packet registers and PKT_PAYLOAD hold what they held (R35, R36, R40). -/
def SamePacket (s t : State) : Prop :=
  t.pkt0 = s.pkt0 ∧ t.pkt1 = s.pkt1 ∧
    ∀ a, pktBase ≤ a → a < encBase → Memory.read t.mem a = Memory.read s.mem a

/-- ENC_LEN and ENC_OUT hold what they held (R34, R41). -/
def SameEncoder (s t : State) : Prop :=
  t.encLen = s.encLen ∧ ∀ a, encBase ≤ a → a < inBase → Memory.read t.mem a = Memory.read s.mem a

/-- Every byte of every window reads as before. -/
def SameMemory (s t : State) : Prop := ∀ a, Memory.read t.mem a = Memory.read s.mem a

/-- Every channel but `c` holds what it held (R24). -/
def OthersKept (c : Nat) (s t : State) : Prop := ∀ d, d ≠ c → t.channel d = s.channel d

/-- Every channel holds what it held. -/
def ChannelsKept (s t : State) : Prop := ∀ d, t.channel d = s.channel d

/-- A channel with nothing buffered and no continuation, as `clear(c)` leaves it (41_reassembly_buffer.md R154). -/
def Channel.Cleared (ch : Channel) : Prop := ch.cur = 0 ∧ ch.cont = false

/-- What a DECODE shows the host, alike after two of them: RESULT, the packet registers and the payload cells. -/
def SameDecodeOutputs (s t : State) : Prop :=
  s.result = t.result ∧ s.pkt0 = t.pkt0 ∧ s.pkt1 = t.pkt1 ∧
    ∀ a, pktBase ≤ a → a < encBase → Memory.read s.mem a = Memory.read t.mem a

/-- A word read as R89 reads it: its fields by their bit positions, and the four conditions. -/
def LegalWord (cfg : Config) (w : Word) : Prop :=
  let op := w.toNat % 2 ^ 8
  let ch := w.toNat / 2 ^ 8 % 2 ^ 4
  let rsv := w.toNat / 2 ^ 12 % 2 ^ 4
  let len := w.toNat / 2 ^ 16
  (op = 0x01 ∨ op = 0x02 ∨ op = 0x03 ∨ op = 0x04 ∨ op = 0x05) ∧ rsv = 0 ∧
    (if op = 0x01 ∨ op = 0x02 then ch < cfg.nch else ch = 0) ∧
    (if op = 0x01 ∨ op = 0x03 ∨ op = 0x04 then len ≤ cfg.inCap else len = 0)

/-- The channel an instruction names, if it names one (30_encoding.md R84). -/
def namedChannel : Instr → Option Nat
  | .decode ch _ => some ch.toNat
  | .reset ch => some ch.toNat
  | .build _ => none
  | .ckCompute _ => none
  | .ckVerify => none

/-- How many IN cells an instruction reads (R84). -/
def inBytesRead : Instr → Nat
  | .decode _ len => len.toNat
  | .reset _ => 0
  | .build len => len.toNat
  | .ckCompute len => len.toNat
  | .ckVerify => 0

/-- The reserved indices of this hardware (20_memory.md R61): those R29 gives no register or cell. -/
def ReservedIndex (cfg : Config) (a : WordIndex) : Prop :=
  (0x009 ≤ a.toNat ∧ a.toNat ≤ 0x00F) ∨ (0x010 + cfg.nch ≤ a.toNat ∧ a.toNat ≤ 0x0FF) ∨
    (0x200 + cfg.encCap ≤ a.toNat ∧ a.toNat ≤ 0x3FF) ∨ 0x400 + cfg.inCap ≤ a.toNat

/-- The indices of the read-only registers and windows (R29, R63). -/
def ReadOnlyIndex (cfg : Config) (a : WordIndex) : Prop :=
  (0x002 ≤ a.toNat ∧ a.toNat ≤ 0x008) ∨ (0x010 ≤ a.toNat ∧ a.toNat < 0x010 + cfg.nch) ∨
    (0x100 ≤ a.toNat ∧ a.toNat ≤ 0x1FF) ∨ (0x200 ≤ a.toNat ∧ a.toNat < 0x200 + cfg.encCap)

/-- The bits of a register that 10_state.md R30 to R42 do not name; CMD names none that can be read. -/
def unnamedBits : HostReg → Word
  | .cmd => 0xFFFFFFFF#32
  | .arg => 0x00000000#32
  | .result => 0xFFFE0000#32
  | .ck => 0xFFFF0000#32
  | .encLen => 0xFFFFFE00#32
  | .pkt0 => 0xF8000000#32
  | .pkt1 => 0xFFF0FE00#32
  | .config0 => 0xFE00FE00#32
  | .config1 => 0xFEE0F800#32
  | .chStat _ => 0xFFFFF800#32
  | .pktPayload _ => 0xFFFFFF00#32
  | .encOut _ => 0xFFFFFF00#32
  | .inCell _ => 0xFFFFFF00#32

/-- The checksum value the decoder expects of a BM frame (40_frame_decoder.md R133). -/
def expectedChecksum (seed : SeedKind) (id : Byte) (p : List Byte) : U16 :=
  match seed with
  | .idLen => compute id (BitVec.ofNat 8 p.length) p
  | .lenOnly => compute 0x00#8 (BitVec.ofNat 8 p.length) p

/-- The BM response frame with id `id` and payload `p` that decodes to PACKET (30_encoding.md R93). -/
def responseFrame (seed : SeedKind) (id : Byte) (p : List Byte) : List Byte :=
  [hdr .bm, id, 0x00#8, BitVec.ofNat 8 p.length] ++ p ++ bmTrailer (expectedChecksum seed id p)

/-- The MC frame with payload `p` (R94). -/
def mcFrame (p : List Byte) : List Byte := [hdr .mc] ++ p ++ [sfx .mc]

/-- The whole frames a channel of profile `prof` accepts, by R93 and R94. -/
def IsFrame (seed : SeedKind) (prof : Profile) (f : List Byte) : Prop :=
  match prof with
  | .bm => ∃ id p, p.length ≤ 255 ∧ f = responseFrame seed id p
  | .mc => ∃ p, p.length = 9 ∧ f = mcFrame p

/-- The byte strings a pass on profile `prof` goes through to the last byte (40_frame_decoder.md R114 to R123): the shape
of R93 with status 0, or of R94, with any checksum bytes and any last byte. -/
def ShapedAsFrame (prof : Profile) (f : List Byte) : Prop :=
  match prof with
  | .bm => ∃ id c1 c2 x p, p.length ≤ 255 ∧
      f = [hdr .bm, id, 0x00#8, BitVec.ofNat 8 p.length] ++ p ++ [c1, c2, x]
  | .mc => ∃ x p, p.length = 9 ∧ f = [hdr .mc] ++ p ++ [x]

/-- An access that issues no command, resets nothing and does not write the ARG or IN cell at index `a`: what may stand
between two reads of `a` that answer alike (20_memory.md R65). -/
def LeavesIndex (cfg : Config) (a : WordIndex) : HostEvent → Prop
  | .read _ => True
  | .write b _ => b ≠ 0x000#11 ∧ (b = a → ReadOnlyIndex cfg a ∨ ReservedIndex cfg a)
  | .powerOnReset => False

/-- A run of `k` steps is safe when it ends in a state: the faulted state is never a good final state (R244). -/
def SafeRun (k : Nat) (s : State) : Prop := ∃ t, Host.Core.run Sys2Proof.core k s = .next t

end Sys2Proof.Machine
end

