-- ==== Sys2Proof/Certificates/Slice0/Obligations.lean ====
section
/-! DEFINITION. The statements for the provers, one `def Obligations.<Name> : Prop` each. Each docstring names the rule
of spec/ it formalises, or says what of it is the model's own choice. -/

open Sys2Proof Sys2Proof.Machine

/-! ## The command word -/

/-- 30_encoding.md R100, whole: the worked words and the five illegal ones. -/
def Obligations.WorkedCommandWords : Prop :=
  (encode (.decode 0 4) = 0x00040001#32 ∧ decodeWord 0x00040001#32 = .ok (.decode 0 4)) ∧
  (encode (.decode 1 11) = 0x000B0101#32 ∧ decodeWord 0x000B0101#32 = .ok (.decode 1 11)) ∧
  (encode (.reset 1) = 0x00000102#32 ∧ decodeWord 0x00000102#32 = .ok (.reset 1)) ∧
  (encode (.build 2) = 0x00020003#32 ∧ decodeWord 0x00020003#32 = .ok (.build 2)) ∧
  (encode (.ckCompute 0) = 0x00000004#32 ∧ decodeWord 0x00000004#32 = .ok (.ckCompute 0)) ∧
  (encode .ckVerify = 0x00000005#32 ∧ decodeWord 0x00000005#32 = .ok .ckVerify) ∧
  ∀ w ∈ [0x00000000#32, 0x00001001#32, 0x00000201#32, 0x00010002#32, 0x00000103#32],
    (decodeWord w).toOption = none

/-- R81, R82, R98: no operand bit of any command is dropped or moved, for every choice of the parameters. -/
def Obligations.EncodedCommandDecodesBack : Prop :=
  ∀ (cfg : Config) (i : Instr), i.wellFormedIn cfg = true → decodeWordIn cfg (encode i) = .ok i

/-- R81, R89: a word the decoder takes is the very word of the instruction it gives, and that instruction is
well-formed; so no two words have one meaning. -/
def Obligations.DecodedWordEncodesBack : Prop :=
  ∀ (cfg : Config) (w : Word) (i : Instr), decodeWordIn cfg w = .ok i →
    encode i = w ∧ i.wellFormedIn cfg = true

/-- R89 and 60_exceptions.md R212: the legal words are the ones that run, and an illegal one writes
RESULT = 0x0000000A and changes nothing else. The queue only holds the access served (log 1). -/
def Obligations.LegalWordsRunAndIllegalOnesOnlyReport : Prop :=
  ∀ (s : State) (w : Word) (rest : List HostEvent), s.hostQueue = .write 0x000#11 w :: rest →
    (LegalWord Config.hw w →
      ∃ i, decodeWord w = .ok i ∧ i.WellFormed ∧ step s = exec i { s with hostQueue := rest }) ∧
    (¬ LegalWord Config.hw w → step s = .next { s with hostQueue := rest, result := 0x0000000A#32 })

/-- R80 and 20_memory.md R66: when the access the block serves next writes a word to CMD that decodes to `i`, the step is
`exec i` on the state without that access; and `withFetchWord` puts exactly such an access first. The queue is the
model's own field (log 1). -/
def Obligations.StepRunsTheDecodedCommand : Prop :=
  (∀ (s : State) (w : Word) (rest : List HostEvent) (i : Instr),
    s.hostQueue = .write 0x000#11 w :: rest → decodeWord w = .ok i →
      step s = exec i { s with hostQueue := rest }) ∧
  ∀ (s : State) (w : Nat) (i : Instr), w < 2 ^ 32 → decodeWord (BitVec.ofNat 32 w) = .ok i →
    step (s.withFetchWord 32 w) = exec i s

/-! ## Host accesses -/

/-- 20_memory.md R62, whole: a reserved index reads 0, a write to it is ignored, neither has another effect. The queue
and the answer's field only hold the access and what it returned (log 1, log 2). -/
def Obligations.ReservedIndicesReadZeroAndIgnoreWrites : Prop :=
  ∀ (s : State) (a : WordIndex) (v : Word) (rest : List HostEvent), ReservedIndex Config.hw a →
    (s.hostQueue = .read a :: rest →
      step s = .next { s with hostQueue := rest, readData := some 0x00000000#32 }) ∧
    (s.hostQueue = .write a v :: rest → step s = .next { s with hostQueue := rest })

/-- 20_memory.md R63, whole: a write to a read-only register or window changes nothing; CMD reads 0; in every state
that meets the invariant, a read shows 0 in every bit 10_state.md does not name, and a write does the same whatever those
bits of its word are. The queue and the answer's field only hold the access and what it returned (log 1, log 2). -/
def Obligations.ReadOnlyRegistersAndUnnamedBits : Prop :=
  (∀ (s : State) (a : WordIndex) (v : Word) (rest : List HostEvent), ReadOnlyIndex Config.hw a →
    s.hostQueue = .write a v :: rest → step s = .next { s with hostQueue := rest }) ∧
  (∀ (s : State) (rest : List HostEvent), s.hostQueue = .read 0x000#11 :: rest →
    step s = .next { s with hostQueue := rest, readData := some 0x00000000#32 }) ∧
  (∀ (s : State) (a : WordIndex) (r : HostReg) (rest : List HostEvent), s.Inv Config.hw →
    regAt Config.hw a = some r → s.hostQueue = .read a :: rest →
      ∃ v, step s = .next { s with hostQueue := rest, readData := some v } ∧ v &&& unnamedBits r = 0#32) ∧
  ∀ (s : State) (a : WordIndex) (r : HostReg) (v : Word) (rest : List HostEvent),
    regAt Config.hw a = some r → r ≠ .cmd →
      step { s with hostQueue := .write a v :: rest } =
        step { s with hostQueue := .write a (v &&& ~~~ unnamedBits r) :: rest }

/-- 20_memory.md R65: reads are idempotent. Two reads of one index answer the same word, an unwritten IN cell included,
whatever reads and writes stand between them, as long as none is to CMD and none writes the very ARG or IN cell read;
writes to other ARG or IN indices, to read-only and to reserved indices may. A read changes nothing but the answer and
the queue, both the model's own fields (log 1, log 2). That an unwritten cell answers alike at both is the model's
reading of R65 (log 4). -/
def Obligations.ReadsRepeatAndChangeNothing : Prop :=
  ∀ (s : State) (a : WordIndex) (between rest : List HostEvent), (∀ e ∈ between, LeavesIndex Config.hw a e) →
    s.hostQueue = .read a :: (between ++ .read a :: rest) →
      ∃ v t, step s = .next { s with hostQueue := between ++ .read a :: rest, readData := some v } ∧
        Host.Core.run core (between.length + 2) s = .next t ∧ t.readData = some v ∧ t.hostQueue = rest ∧
        ((∀ e ∈ between, ∃ b, e = .read b) → t = { s with hostQueue := rest, readData := some v })

/-- 10_state.md R31 and R42: a write to ARG stores all 32 bits, which ARG then reads as; a write to IN[j] stores the low
byte in that cell and touches no other, and the cell then reads as that byte. -/
def Obligations.HostWritesReachArgAndIn : Prop :=
  (∀ (s : State) (v : Word) (rest : List HostEvent), s.hostQueue = .write 0x001#11 v :: rest →
    step s = .next { s with hostQueue := rest, arg := v } ∧
    ∀ rest', step { s with arg := v, hostQueue := .read 0x001#11 :: rest' } =
      .next { s with arg := v, hostQueue := rest', readData := some v }) ∧
  ∀ (s : State) (j : Nat) (v : Word) (rest : List HostEvent), j < 512 →
    s.hostQueue = .write (BitVec.ofNat 11 (0x400 + j)) v :: rest →
      ∃ m, step s = .next { s with hostQueue := rest, mem := m } ∧
        (∀ a, a ≠ 0x400 + j → Memory.read m a = Memory.read s.mem a) ∧
        ∀ rest', step { s with mem := m, hostQueue := .read (BitVec.ofNat 11 (0x400 + j)) :: rest' } =
          .next { s with mem := m, hostQueue := rest', readData := some (BitVec.ofNat 32 (v.toNat % 256)) }

/-- 10_state.md R42, 93_implementation_defined.md U7: a host read of an unwritten IN cell does not fault, has no side
effect, and shows an unspecified byte with bits 31:8 zero. The byte is the model's free value (log 4); the statement
holds whatever it is. -/
def Obligations.UnwrittenCellReadsAsSomeByte : Prop :=
  ∀ (s : State) (j : Nat) (rest : List HostEvent), j < 512 → Memory.read s.mem (0x400 + j) = none →
    s.hostQueue = .read (BitVec.ofNat 11 (0x400 + j)) :: rest →
      ∃ b : Byte, step s = .next { s with hostQueue := rest, readData := some (BitVec.ofNat 32 b.toNat) }

/-- 10_state.md R37 and R38, whole: CONFIG0 and CONFIG1 hold the parameters in the named bits and 0 elsewhere, for every
legal choice of the parameters and in every state, and a write to them is ignored. -/
def Obligations.ConfigRegistersHoldTheParameters : Prop :=
  ∀ (cfg : Config) (s : State), cfg.Legal →
    (busRead cfg 0x007#11 s).toNat = cfg.bufCap + cfg.encCap * 2 ^ 16 ∧
    (busRead cfg 0x008#11 s).toNat =
      cfg.inCap + cfg.nch * 2 ^ 16 + (match cfg.seed with | .idLen => 0 | .lenOnly => 1) * 2 ^ 24 ∧
    ∀ w : Word, busWrite cfg 0x007#11 w s = .next s ∧ busWrite cfg 0x008#11 w s = .next s

/-- 10_state.md R39: CH_STAT[c] shows the cursor, the flag and the profile in the named bits and 0 elsewhere, for every
legal choice of the parameters, in every state whose cursor is within the capacity. -/
def Obligations.ChannelStatusShowsTheChannel : Prop :=
  ∀ (cfg : Config) (s : State) (c : Nat), cfg.Legal → c < cfg.nch → (s.channel c).cur ≤ cfg.bufCap →
    (busRead cfg (BitVec.ofNat 11 (0x010 + c)) s).toNat =
      (s.channel c).cur + (s.channel c).cont.toNat * 2 ^ 9 +
        (match cfg.profile c with | .bm => 0 | .mc => 1) * 2 ^ 10

/-! ## Reset -/

/-- 10_state.md R45 with R37 to R39: what a host reads straight after power-on reset, and that every IN cell is
unwritten. That the model's queue is then empty is its own choice (log 1). -/
def Obligations.ResetReadsTheSpecifiedValues : Prop :=
  (∀ a ∈ [0x000#11, 0x001#11, 0x002#11, 0x003#11, 0x004#11, 0x005#11, 0x006#11, 0x009#11, 0x010#11, 0x012#11],
    busRead Config.hw a State.reset = 0x00000000#32) ∧
  busRead Config.hw 0x007#11 State.reset = 0x001E0028#32 ∧
  busRead Config.hw 0x008#11 State.reset = 0x00020200#32 ∧
  busRead Config.hw 0x011#11 State.reset = 0x00000400#32 ∧
  (∀ j, j < 256 → busRead Config.hw (BitVec.ofNat 11 (0x100 + j)) State.reset = 0x00000000#32) ∧
  (∀ j, j < 30 → busRead Config.hw (BitVec.ofNat 11 (0x200 + j)) State.reset = 0x00000000#32) ∧
  (∀ j, j < 512 → Memory.read State.reset.mem (0x400 + j) = none) ∧
  ∀ c, c < 2 → (State.reset.channel c).Cleared

/-- 70_reset_and_hazards.md R240, R242: a power-on reset, served from any state at all, puts every piece of the block's
state to its reset value. That it comes as an event of the queue is the model's choice (log 3). -/
def Obligations.PowerOnResetReachesEveryState : Prop :=
  ∀ (s : State) (rest : List HostEvent), s.hostQueue = .powerOnReset :: rest →
    ∃ t, step s = .next t ∧ t.arg = 0#32 ∧ t.result = 0#32 ∧ t.ck = 0#32 ∧ t.encLen = 0#32 ∧ t.pkt0 = 0#32 ∧
      t.pkt1 = 0#32 ∧ t.hostQueue = rest ∧ (∀ c, c < 2 → (t.channel c).Cleared) ∧
      (∀ a, a < 0x400 → Memory.read t.mem a = some 0x00#8) ∧
      (∀ a, 0x400 ≤ a → Memory.read t.mem a = none) ∧
      ∀ a : WordIndex, a.toNat < 0x400 → busRead Config.hw a t = busRead Config.hw a State.reset

/-- The invariant holds right after reset, for every legal choice of the parameters, this hardware's among them. -/
def Obligations.ResetMeetsTheInvariant : Prop :=
  Config.hw.Legal ∧ State.reset = State.resetIn Config.hw ∧
    ∀ cfg : Config, cfg.Legal → (State.resetIn cfg).Inv cfg

/-! ## Invariants of every step -/

/-- From every state that meets the invariant a step gives one that meets it: the buffers (10_state.md R22, R23), the
canonical memory, the fields of RESULT, CK, ENC_LEN, PKT0 and PKT1 (R32 to R36). -/
def Obligations.EveryStepKeepsTheInvariant : Prop :=
  ∀ s t : State, s.Inv Config.hw → step s = .next t → t.Inv Config.hw

/-- 10_state.md R22 and R23: in every state reached from reset, whatever the host does, the cursor of each channel is
within the capacity, a continuation has at least one byte buffered, the header byte first, and without a continuation
nothing is buffered. That the host's accesses and the power-on resets come as a queue of events, empty at reset, is the
model's own choice (log 1, log 3); the statement is about every list of them. -/
def Obligations.ReachableBuffersKeepTheirInvariants : Prop :=
  ∀ (events : List HostEvent) (k : Nat) (t : State) (c : Nat),
    Host.Core.run core k { State.reset with hostQueue := events } = .next t → c < 2 →
      (t.channel c).cur ≤ 40 ∧
      ((t.channel c).cont = true → 1 ≤ (t.channel c).cur ∧ (t.channel c).cur ≤ 40 ∧
        (t.channel c).cells[0]? = some (if c = 0 then 0xDD#8 else 0xAA#8)) ∧
      ((t.channel c).cont = false → (t.channel c).cur = 0)

/-- 10_state.md R24, whole: a command that does not name channel `d` does not write it, and, run on a state with
anything else in channel `d`, does the same and leaves that there. -/
def Obligations.CommandsKeepToTheirChannel : Prop :=
  ∀ (i : Instr) (s : State) (d : Nat) (x : Channel), namedChannel i ≠ some d →
    (∀ t, exec i s = .next t →
      t.channel d = s.channel d ∧ exec i (s.setChannel d x) = .next (t.setChannel d x)) ∧
    (∀ f, exec i s = .fault f → exec i (s.setChannel d x) = .fault f)

/-- 10_state.md R44: buffer cells at and above the cursor are never observable. Two states of the invariant that differ
in nothing else answer every event alike and stay so. -/
def Obligations.CellsAboveTheCursorAreUnobservable : Prop :=
  ∀ s t : State, s.Inv Config.hw → t.Inv Config.hw → s.Alike t →
    (∀ s', step s = .next s' → ∃ t', step t = .next t' ∧ s'.Alike t') ∧
    (∀ f, step s = .fault f → step t = .fault f)

/-- 60_exceptions.md R211, R218: nothing stops the block but an unwritten input cell (70_reset_and_hazards.md R244),
and that only while it serves a write to CMD. No step is refused. The queue is the model's own field (log 1). -/
def Obligations.OnlyUnwrittenInputStopsTheBlock : Prop :=
  ∀ s : State, (∃ t, step s = .next t) ∨
    (step s = .fault .unwrittenInput ∧ ∃ w rest, s.hostQueue = .write 0x000#11 w :: rest)

/-- 70_reset_and_hazards.md R244, R243: a well-formed command stops exactly when a cell of the IN range it reads is
unwritten, and otherwise completes; so a command with an empty range always completes. -/
def Obligations.CommandsCompleteExactlyOnWrittenInput : Prop :=
  ∀ (i : Instr) (s : State), i.WellFormed →
    (exec i s = .fault .unwrittenInput ↔ ∃ j, j < inBytesRead i ∧ Memory.read s.mem (0x400 + j) = none) ∧
    ((∃ t, exec i s = .next t) ↔ ∀ j, j < inBytesRead i → ∃ b, Memory.read s.mem (0x400 + j) = some b)

/-- 70_reset_and_hazards.md R248, 60_exceptions.md R223: a channel changes only when a DECODE with at least one byte or
a RESET names it, or at power-on reset; a pending continuation never expires. The queue holds the access served, and
power-on reset comes through it, by the model's choice (log 1, log 3). -/
def Obligations.ChannelsChangeOnlyByTheirCommands : Prop :=
  ∀ (s t : State) (c : Nat), step s = .next t → t.channel c ≠ s.channel c →
    (∃ w rest ch, s.hostQueue = .write 0x000#11 w :: rest ∧ ch.toNat = c ∧
      (decodeWord w = .ok (.reset ch) ∨ ∃ len, len ≠ 0#16 ∧ decodeWord w = .ok (.decode ch len))) ∨
    ∃ rest, s.hostQueue = .powerOnReset :: rest

/-- 10_state.md R31 to R36, 70_reset_and_hazards.md R247: each register changes only by its own writer, or at power-on
reset: ARG by a write to it, CK by CK_COMPUTE, ENC_LEN by BUILD, PKT0 and PKT1 by a DECODE that gives PACKET, RESULT by
a write to CMD. The queue holds the access served (log 1). -/
def Obligations.EachRegisterHasOneWriter : Prop :=
  ∀ s t : State, step s = .next t → (∀ rest, s.hostQueue ≠ .powerOnReset :: rest) →
    (t.arg ≠ s.arg → ∃ v rest, s.hostQueue = .write 0x001#11 v :: rest) ∧
    (t.ck ≠ s.ck → ∃ w rest len, s.hostQueue = .write 0x000#11 w :: rest ∧ decodeWord w = .ok (.ckCompute len)) ∧
    (t.encLen ≠ s.encLen → ∃ w rest len, s.hostQueue = .write 0x000#11 w :: rest ∧ decodeWord w = .ok (.build len)) ∧
    (t.pkt0 ≠ s.pkt0 ∨ t.pkt1 ≠ s.pkt1 → ∃ w rest ch len, s.hostQueue = .write 0x000#11 w :: rest ∧
      decodeWord w = .ok (.decode ch len) ∧ t.result = 0x00000001#32) ∧
    (t.result ≠ s.result → ∃ w rest, s.hostQueue = .write 0x000#11 w :: rest)

/-- 60_exceptions.md R213, whole: what RESULT held before a command is of no account; STATUS is 0 but for
DETECTED_ERROR, where it is the byte on which the decode pass over the buffered bytes and the chunk ended; VERIFY_OK is 0
but for CK_VERIFY; the bits above it are 0. -/
def Obligations.EveryCommandWritesTheWholeResult : Prop :=
  ∀ (i : Instr) (s t : State), exec i s = .next t →
    (∀ r, exec i { s with result := r } = .next t) ∧ t.result >>> 17 = 0#32 ∧
    (t.resultStatus ≠ 0x00#8 → t.resultCode = 0x05#8) ∧
    (t.resultCode = 0x05#8 → s.ChannelsOk Config.hw → ∃ ch len chunk, i = .decode ch len ∧
      s.sampleIn len.toNat = some chunk ∧
      pass Config.hw (Config.hw.profile ch.toNat) ((s.channel ch.toNat).contents ++ chunk) =
        .detectedError t.resultStatus) ∧
    (i = .ckVerify →
      t.verifyOk = (decide (s.arg0 = s.arg2) && decide (s.arg1 = s.arg3))) ∧
    (i ≠ .ckVerify → t.verifyOk = false)

/-- 30_encoding.md R88, whole: DECODE and RESET do the same whatever ARG holds, and no command writes ARG. With it
10_state.md R42's 'No command writes IN', and that no command touches the model's own fields. -/
def Obligations.CommandsNeverWriteArgOrIn : Prop :=
  (∀ (i : Instr) (s t : State), exec i s = .next t → Untouched s t) ∧
  ∀ (i : Instr) (s t : State) (v : Word), (∃ ch len, i = .decode ch len) ∨ (∃ ch, i = .reset ch) →
    exec i s = .next t → exec i { s with arg := v } = .next { t with arg := v }

/-! ## DECODE -/

/-- 40_frame_decoder.md R134 (a), 41_reassembly_buffer.md R160, whole: a legal DECODE with L = 0 returns
NO_DATA_AVAILABLE and touches no channel; a pending continuation stays pending. -/
def Obligations.EmptyChunkLeavesTheChannelAlone : Prop :=
  ∀ (s : State) (ch : BitVec 4), ch.toNat < 2 →
    exec (.decode ch 0#16) s = .next { s with result := 0x00000006#32 }

/-- 40_frame_decoder.md R130, whole: a DECODE over written bytes completes, on channel 1 (MC) with one of five results,
on channel 0 (BM) with one of seven, and each of them does occur. -/
def Obligations.DecodeResultsOfEachProfile : Prop :=
  (∀ (s : State) (ch : BitVec 4) (len : BitVec 16) (chunk : List Byte), ch.toNat < 2 → len.toNat ≤ 512 →
    s.sampleIn len.toNat = some chunk →
      ∃ t, exec (.decode ch len) s = .next t ∧
        (t.result ∈ [0x00000001#32, 0x00000002#32, 0x00000004#32, 0x00000006#32, 0x00000007#32] ∨
          ch.toNat = 0 ∧ (t.result = 0x00000003#32 ∨
            ∃ status : Byte, status ≠ 0x00#8 ∧ t.result = BitVec.ofNat 32 (0x05 + status.toNat * 2 ^ 8)))) ∧
  (∀ code ∈ [0x01#8, 0x02#8, 0x03#8, 0x04#8, 0x05#8, 0x06#8, 0x07#8], ∃ s len t,
    s.Inv Config.hw ∧ exec (.decode 0#4 len) s = .next t ∧ t.resultCode = code) ∧
  ∀ code ∈ [0x01#8, 0x02#8, 0x04#8, 0x06#8, 0x07#8], ∃ s len t,
    s.Inv Config.hw ∧ exec (.decode 1#4 len) s = .next t ∧ t.resultCode = code

/-- 40_frame_decoder.md R110, R126 to R128: what a DECODE leaves alone. ARG, IN, CK, ENC_LEN, ENC_OUT and every other
channel always; the packet registers and payload cells unless the result is PACKET, and then the cells from PKT1.LEN
up. -/
def Obligations.DecodeFrame : Prop :=
  ∀ (s t : State) (ch : BitVec 4) (len : BitVec 16), exec (.decode ch len) s = .next t →
    Untouched s t ∧ t.ck = s.ck ∧ SameEncoder s t ∧ OthersKept ch.toNat s t ∧
    (t.resultCode ≠ 0x01#8 → SamePacket s t) ∧
    (t.resultCode = 0x01#8 → ∀ a, 0x100 + t.pktLen.toNat ≤ a → Memory.read t.mem a = Memory.read s.mem a)

/-- 41_reassembly_buffer.md R153, R154, 60_exceptions.md R210: the result decides what the channel holds. SHORT_DATA
keeps bytes that begin with the header and sets the flag, or keeps nothing; NO_DATA_AVAILABLE changes nothing; every
other result of DECODE clears the channel. -/
def Obligations.DecodeResultDecidesTheChannel : Prop :=
  ∀ (s t : State) (ch : BitVec 4) (len : BitVec 16), s.ChannelsOk Config.hw → ch.toNat < 2 → len.toNat ≤ 512 →
    exec (.decode ch len) s = .next t →
      (t.resultCode = 0x06#8 → t.channel ch.toNat = s.channel ch.toNat) ∧
      (t.resultCode = 0x02#8 → (t.channel ch.toNat).Cleared ∨
        ((t.channel ch.toNat).cont = true ∧ 1 ≤ (t.channel ch.toNat).cur ∧ (t.channel ch.toNat).cur ≤ 40 ∧
          (t.channel ch.toNat).contents[0]? = some (hdr (Config.hw.profile ch.toNat)))) ∧
      (t.resultCode ≠ 0x06#8 → t.resultCode ≠ 0x02#8 → (t.channel ch.toNat).Cleared)

/-- 30_encoding.md R93, R96, 40_frame_decoder.md R114, R126, R129, the law of 43_encoder.md R196: for every id and
payload, a BM response frame, behind any noise without 0xDD and before any trailing bytes, decodes as one chunk to
PACKET with that id and payload; the payload cells from N up, ENC_OUT and IN read as before. -/
def Obligations.ResponseFrameDecodesToItsPacket : Prop :=
  ∀ (s : State) (id : Byte) (p g trail : List Byte) (len : BitVec 16), p.length ≤ 255 → 0xDD#8 ∉ g →
    (s.channel 0).cont = false → len.toNat ≤ 512 →
    s.sampleIn len.toNat = some (g ++ responseFrame .idLen id p ++ trail) →
      ∃ t, exec (.decode 0#4 len) s = .next t ∧ t.result = 0x00000001#32 ∧
        t.pktHdr = 0xDD#8 ∧ t.pktId = id ∧ t.pktStatus = 0x00#8 ∧ t.pktHasId = true ∧ t.pktHasStatus = true ∧
        t.pktCkValid = true ∧ t.pktLen.toNat = p.length ∧ t.pktCh = 0#4 ∧
        (∀ j, j < p.length → Memory.read t.mem (0x100 + j) = p[j]?) ∧
        (∀ a, a < 0x100 ∨ 0x100 + p.length ≤ a → Memory.read t.mem a = Memory.read s.mem a) ∧
        (t.channel 0).Cleared ∧ OthersKept 0 s t ∧ Untouched s t ∧ t.ck = s.ck ∧ t.encLen = s.encLen

/-- 40_frame_decoder.md R134 (e), 30_encoding.md R94: on the MC channel a header, nine payload bytes and a last byte
`x`, behind noise without 0xAA and before any trailing bytes, give PACKET with no checksum flag if `x` is 0x85 and
SUFFIX_ERROR otherwise. -/
def Obligations.McFrameDecodesByItsSuffix : Prop :=
  ∀ (s : State) (p g trail : List Byte) (x : Byte) (len : BitVec 16), p.length = 9 → 0xAA#8 ∉ g →
    (s.channel 1).cont = false → len.toNat ≤ 512 →
    s.sampleIn len.toNat = some (g ++ ([0xAA#8] ++ p ++ [x]) ++ trail) →
      ∃ t, exec (.decode 1#4 len) s = .next t ∧ (t.channel 1).Cleared ∧ OthersKept 1 s t ∧ Untouched s t ∧
        t.ck = s.ck ∧ SameEncoder s t ∧
        (x = 0x85#8 → t.result = 0x00000001#32 ∧ t.pkt0 = 0x000000AA#32 ∧ t.pkt1 = 0x00010009#32 ∧
          (∀ j, j < 9 → Memory.read t.mem (0x100 + j) = p[j]?) ∧
          ∀ a, a < 0x100 ∨ 0x109 ≤ a → Memory.read t.mem a = Memory.read s.mem a) ∧
        (x ≠ 0x85#8 → t.result = 0x00000004#32 ∧ SamePacket s t ∧ SameMemory s t)

/-- 40_frame_decoder.md R122, R123, 60_exceptions.md R216: on a whole BM frame with status 0, a checksum mismatch gives
CHECKSUM_ERROR whatever the suffix byte is, and a right checksum with a wrong suffix byte gives SUFFIX_ERROR; the channel
is cleared and nothing else but RESULT changes. -/
def Obligations.ChecksumErrorBeatsTheSuffix : Prop :=
  ∀ (s : State) (id c1 c2 x : Byte) (p g trail : List Byte) (len : BitVec 16), p.length ≤ 255 → 0xDD#8 ∉ g →
    (s.channel 0).cont = false → len.toNat ≤ 512 →
    s.sampleIn len.toNat =
      some (g ++ ([0xDD#8, id, 0x00#8, BitVec.ofNat 8 p.length] ++ p ++ [c1, c2, x]) ++ trail) →
    let e := (2 ^ 16 - (id.toNat + p.length + sum8 p) % 2 ^ 16) % 2 ^ 16
    (c1.toNat * 2 ^ 8 + c2.toNat ≠ e → exec (.decode 0#4 len) s =
      .next { s.setChannel 0 (s.channel 0).clear with result := 0x00000003#32 }) ∧
    (c1.toNat * 2 ^ 8 + c2.toNat = e → x ≠ 0x77#8 → exec (.decode 0#4 len) s =
      .next { s.setChannel 0 (s.channel 0).clear with result := 0x00000004#32 })

/-- 40_frame_decoder.md R117, R127, 60_exceptions.md R214: a nonzero status byte ends the frame at once, whatever
follows it: RESULT is DETECTED_ERROR with the byte in STATUS, the channel is cleared, nothing else changes. -/
def Obligations.NonzeroStatusEndsTheFrame : Prop :=
  ∀ (s : State) (id status : Byte) (g trail : List Byte) (len : BitVec 16), status ≠ 0x00#8 → 0xDD#8 ∉ g →
    (s.channel 0).cont = false → len.toNat ≤ 512 →
    s.sampleIn len.toNat = some (g ++ [0xDD#8, id, status] ++ trail) →
      exec (.decode 0#4 len) s = .next { s.setChannel 0 (s.channel 0).clear with
        result := BitVec.ofNat 32 (0x05 + status.toNat * 2 ^ 8) }

/-- 41_reassembly_buffer.md R153, 40_frame_decoder.md R132 item 10: a chunk with no header byte gives SHORT_DATA and
keeps nothing. -/
def Obligations.ChunkWithoutHeaderKeepsNothing : Prop :=
  ∀ (s : State) (ch : BitVec 4) (g : List Byte) (len : BitVec 16), ch.toNat < 2 →
    hdr (Config.hw.profile ch.toNat) ∉ g → g ≠ [] → (s.channel ch.toNat).cont = false → len.toNat ≤ 512 →
    s.sampleIn len.toNat = some g →
      exec (.decode ch len) s =
        .next { s.setChannel ch.toNat (s.channel ch.toNat).clear with result := 0x00000002#32 }

/-- 41_reassembly_buffer.md R153, 40_frame_decoder.md R124, R128, R132 item 6: a chunk that ends before the last byte of a
frame, whatever the frame's checksum bytes are (a mismatch already seen is not reported), behind noise without the
header byte, keeps exactly the bytes from the header on if they fit BUF_CAP, with SHORT_DATA; if they do not, the
channel is cleared with BUFFER_OVERFLOW. -/
def Obligations.IncompleteFrameIsKeptFromItsHeader : Prop :=
  ∀ (s : State) (ch : BitVec 4) (f g a b : List Byte) (len : BitVec 16), ch.toNat < 2 →
    s.ChannelsOk Config.hw → ShapedAsFrame (Config.hw.profile ch.toNat) f → f = a ++ b → a ≠ [] → b ≠ [] →
    hdr (Config.hw.profile ch.toNat) ∉ g → (s.channel ch.toNat).cont = false → len.toNat ≤ 512 →
    s.sampleIn len.toNat = some (g ++ a) →
      ∃ t, exec (.decode ch len) s = .next t ∧ Untouched s t ∧ SamePacket s t ∧ SameEncoder s t ∧ t.ck = s.ck ∧
        OthersKept ch.toNat s t ∧
        (a.length ≤ 40 → t.result = 0x00000002#32 ∧ (t.channel ch.toNat).cont = true ∧
          (t.channel ch.toNat).contents = a) ∧
        (40 < a.length → t.result = 0x00000007#32 ∧ (t.channel ch.toNat).Cleared)

/-- 41_reassembly_buffer.md R152, R158, 40_frame_decoder.md R111: a continuation call that fits does what a fresh channel
does on the buffered bytes followed by the chunk: the same result, outputs and channel. -/
def Obligations.ContinuationIsDecodeOfTheConcatenation : Prop :=
  ∀ (s u : State) (ch : BitVec 4) (len len' : BitVec 16) (chunk : List Byte), ch.toNat < 2 →
    s.ChannelsOk Config.hw → u.ChannelsOk Config.hw → (s.channel ch.toNat).cont = true →
    (u.channel ch.toNat).cont = false → 1 ≤ len.toNat → len.toNat ≤ 512 →
    s.sampleIn len.toNat = some chunk → (s.channel ch.toNat).cur + len.toNat ≤ 40 →
    u.sampleIn len'.toNat = some ((s.channel ch.toNat).contents ++ chunk) → SameDecodeOutputs s u →
      ∃ t v, exec (.decode ch len) s = .next t ∧ exec (.decode ch len') u = .next v ∧
        SameDecodeOutputs t v ∧ (t.channel ch.toNat).Alike (v.channel ch.toNat)

/-- 41_reassembly_buffer.md R152: a continuation call whose chunk does not fit the rest of the buffer gives
BUFFER_OVERFLOW and clears the channel, even if the frame would complete within the chunk; nothing else changes. -/
def Obligations.ContinuationThatDoesNotFitOverflows : Prop :=
  ∀ (s : State) (ch : BitVec 4) (len : BitVec 16) (chunk : List Byte), ch.toNat < 2 →
    (s.channel ch.toNat).cont = true → 1 ≤ len.toNat → len.toNat ≤ 512 → s.sampleIn len.toNat = some chunk →
    40 < (s.channel ch.toNat).cur + len.toNat →
      exec (.decode ch len) s =
        .next { s.setChannel ch.toNat (s.channel ch.toNat).clear with result := 0x00000007#32 }

/-- 41_reassembly_buffer.md R155, whole: after BUFFER_OVERFLOW the channel is empty with no continuation, no other
channel and no register or cell other than RESULT is affected, and the next DECODE, over any written bytes, is that of
a channel with no continuation. -/
def Obligations.OverflowClearsTheChannelAndNothingElse : Prop :=
  ∀ (s t : State) (ch : BitVec 4) (len : BitVec 16), ch.toNat < 2 → exec (.decode ch len) s = .next t →
    t.resultCode = 0x07#8 →
      (t.channel ch.toNat).Cleared ∧ OthersKept ch.toNat s t ∧ Untouched s t ∧ t.ck = s.ck ∧ SamePacket s t ∧
      SameEncoder s t ∧
      ∀ (u : State) (len' : BitVec 16) (chunk : List Byte), u.channels = t.channels → 1 ≤ len'.toNat →
        len'.toNat ≤ 512 → u.sampleIn len'.toNat = some chunk →
          exec (.decode ch len') u = .next (u.applyResult Config.hw ch.toNat (Config.hw.profile ch.toNat)
            (pass Config.hw (Config.hw.profile ch.toNat) chunk) chunk)

/-- 40_frame_decoder.md R134 (b): noise without the header byte before a non-empty input changes neither the result nor
the outputs nor the channel. R134 (b) says 'any input'; for the empty one it fails by R111, and the statement leaves it
out. -/
def Obligations.NoiseBeforeTheInputChangesNothing : Prop :=
  ∀ (s u : State) (ch : BitVec 4) (g x : List Byte) (len len' : BitVec 16), ch.toNat < 2 → g ≠ [] → x ≠ [] →
    hdr (Config.hw.profile ch.toNat) ∉ g → len.toNat ≤ 512 → len'.toNat ≤ 512 →
    (s.channel ch.toNat).cont = false → s.channels = u.channels → SameDecodeOutputs s u →
    s.sampleIn len.toNat = some (g ++ x) → u.sampleIn len'.toNat = some x →
      ∃ t v, exec (.decode ch len) s = .next t ∧ exec (.decode ch len') u = .next v ∧
        SameDecodeOutputs t v ∧ t.channels = v.channels

/-- 40_frame_decoder.md R134 (c), first half: a whole frame of at most BUF_CAP bytes split into two non-empty chunks at
any place gives SHORT_DATA and then the PACKET and outputs of the single chunk. `m` is what the host's loading of the
second chunk makes of the windows. -/
def Obligations.FragmentedFrameDecodesAsTheWhole : Prop :=
  ∀ (s : State) (ch : BitVec 4) (f a b : List Byte) (len : BitVec 16), ch.toNat < 2 → s.ChannelsOk Config.hw →
    IsFrame .idLen (Config.hw.profile ch.toNat) f → f.length ≤ 40 → f = a ++ b → a ≠ [] → b ≠ [] →
    (s.channel ch.toNat).cont = false → s.sampleIn len.toNat = some a →
      ∃ t, exec (.decode ch len) s = .next t ∧ t.result = 0x00000002#32 ∧ SamePacket s t ∧
        ∀ (m : Memory) (len' : BitVec 16), ({ t with mem := m }).sampleIn len'.toNat = some b →
          (∀ a, a < 0x400 → Memory.read m a = Memory.read t.mem a) →
          ∃ v, exec (.decode ch len') { t with mem := m } = .next v ∧ v.result = 0x00000001#32 ∧
            (v.channel ch.toNat).Cleared ∧
            ∀ (u w : State) (len'' : BitVec 16), u.sampleIn len''.toNat = some f →
              (u.channel ch.toNat).cont = false → SameDecodeOutputs s u →
              exec (.decode ch len'') u = .next w → SameDecodeOutputs w v

/-- 40_frame_decoder.md R134 (c), second half, 41_reassembly_buffer.md R159: of a whole frame longer than BUF_CAP split
into two non-empty chunks, one call or the other gives BUFFER_OVERFLOW, at every split. -/
def Obligations.LongFrameOverflowsAtEverySplit : Prop :=
  ∀ (s : State) (ch : BitVec 4) (f a b : List Byte) (len : BitVec 16), ch.toNat < 2 → s.ChannelsOk Config.hw →
    IsFrame .idLen (Config.hw.profile ch.toNat) f → 40 < f.length → f = a ++ b → a ≠ [] → b ≠ [] →
    (s.channel ch.toNat).cont = false → s.sampleIn len.toNat = some a →
      ∃ t, exec (.decode ch len) s = .next t ∧
        (40 < a.length → t.result = 0x00000007#32) ∧
        (a.length ≤ 40 → ∀ (m : Memory) (len' : BitVec 16), ({ t with mem := m }).sampleIn len'.toNat = some b →
          ∃ v, exec (.decode ch len') { t with mem := m } = .next v ∧ v.result = 0x00000007#32 ∧
            (v.channel ch.toNat).Cleared)

/-- 40_frame_decoder.md R134 (d): a frame that differs from one that gives PACKET in exactly one payload byte gives
CHECKSUM_ERROR. -/
def Obligations.ChangedPayloadByteGivesChecksumError : Prop :=
  ∀ (s : State) (id b b' : Byte) (p : List Byte) (j : Nat) (len : BitVec 16), p.length ≤ 255 →
    p[j]? = some b → b' ≠ b → (s.channel 0).cont = false → len.toNat ≤ 512 →
    s.sampleIn len.toNat = some ([0xDD#8, id, 0x00#8, BitVec.ofNat 8 p.length] ++ p.set j b' ++
      bmTrailer (expectedChecksum .idLen id p)) →
      exec (.decode 0#4 len) s = .next { s.setChannel 0 (s.channel 0).clear with result := 0x00000003#32 }

/-- 40_frame_decoder.md R133, whole: when a BM frame with id, length N and payload p comes to its checksum, the expected
value is neg16(id + N + sum8(p)) = compute(id, N, p) with ID_LEN and neg16(N + sum8(p)) = compute(0x00, N, p) with
LEN_ONLY: with that value the frame gives PACKET, with any other CHECKSUM_ERROR, for every choice of the parameters. -/
def Obligations.ExpectedChecksumUnderBothSeeds : Prop :=
  ∀ (cfg : Config) (id c1 c2 : Byte) (p : List Byte), p.length ≤ 255 →
    let n := BitVec.ofNat 8 p.length
    let e := match cfg.seed with | .idLen => compute id n p | .lenOnly => compute 0x00#8 n p
    (e = match cfg.seed with
      | .idLen => neg16 (id.toNat + p.length + sum8 p)
      | .lenOnly => neg16 (p.length + sum8 p)) ∧
    pass cfg .bm ([0xDD#8, id, 0x00#8, n] ++ p ++ [c1, c2, 0x77#8]) =
      (if highByte e = c1 ∧ lowByte e = c2 then .packet { id := id, n := p.length, payload := p }
      else .checksumError)

/-- 10_state.md R28, whole: a pass on MC stands, after any input, in one of ReadHeader, ReadPayload and ReadSuffix; a
pass on BM reaches all eight states, one on MC all three. -/
def Obligations.PassStaysInActiveStates : Prop :=
  (∀ (cfg : Config) (input : List Byte) (st : DecodeState) (h : Option Nat),
    pass cfg .mc input = .short st h → st = .readHeader ∨ st = .readPayload ∨ st = .readSuffix) ∧
  (∀ (cfg : Config) (st : DecodeState), ∃ input h, pass cfg .bm input = .short st h) ∧
  ∀ (cfg : Config) (st : DecodeState), st = .readHeader ∨ st = .readPayload ∨ st = .readSuffix →
    ∃ input h, pass cfg .mc input = .short st h

/-! ## RESET -/

/-- 41_reassembly_buffer.md R156: RESET of a channel returns OK, leaves that channel empty with no continuation, and
changes nothing else, whatever the channel held and whatever ARG holds. That `exec` of a RESET term with a channel the
block does not have, which no legal word stands for (30_encoding.md R89), reports ILLEGAL_COMMAND as its word would is
the model's own choice (log 9). -/
def Obligations.ResetClearsOneChannel : Prop :=
  ∀ (s : State) (ch : BitVec 4),
    (ch.toNat < 2 → ∃ t, exec (.reset ch) s = .next t ∧ t.result = 0x00000009#32 ∧
      (t.channel ch.toNat).Cleared ∧ OthersKept ch.toNat s t ∧ Untouched s t ∧ t.ck = s.ck ∧ SamePacket s t ∧
      SameEncoder s t) ∧
    (2 ≤ ch.toNat → exec (.reset ch) s = .next { s with result := 0x0000000A#32 })

/-! ## The checksum validator -/

/-- 42_checksum.md R171, R170: CK_COMPUTE over written bytes leaves in CK the 16-bit value that, added to the length
byte, the id and every payload byte, gives 0 mod 2^16; RESULT is OK and nothing else changes. The length byte of ARG
need not be the payload's length. -/
def Obligations.CkComputeLeavesTheNegatedSum : Prop :=
  ∀ (s : State) (len : BitVec 16) (p : List Byte), len.toNat ≤ 512 → s.sampleIn len.toNat = some p →
    ∃ t, exec (.ckCompute len) s = .next t ∧ t = { s with ck := t.ck, result := 0x00000009#32 } ∧
      t.ck.toNat < 2 ^ 16 ∧
      (t.ck.toNat + s.arg.toNat % 2 ^ 8 + s.arg.toNat / 2 ^ 8 % 2 ^ 8 + (p.map BitVec.toNat).sum) % 2 ^ 16 = 0

/-- 42_checksum.md R174, whole: the value of `compute`, that it cancels the sum, that a running u16 sum gives the same,
that a frame's own sum never passes 65535, that CK_COMPUTE flags no overflow, and the five worked values. -/
def Obligations.ChecksumArithmetic : Prop :=
  (∀ (cmdId length : Byte) (p : List Byte),
    let total := length.toNat + cmdId.toNat + sum8 p
    (compute cmdId length p).toNat = (2 ^ 16 - total % 2 ^ 16) % 2 ^ 16 ∧
    (total + (compute cmdId length p).toNat) % 2 ^ 16 = 0 ∧
    neg16 (p.foldl (fun (a : U16) (b : Byte) => a + b.setWidth 16)
      (length.setWidth 16 + cmdId.setWidth 16)).toNat = compute cmdId length p ∧
    (p.length ≤ 255 → total ≤ 65535)) ∧
  (∀ (s : State) (len : BitVec 16) (p : List Byte), len.toNat ≤ 512 → s.sampleIn len.toNat = some p →
    ∃ t, exec (.ckCompute len) s = .next t ∧ t.result = 0x00000009#32) ∧
  compute 0x00#8 0x00#8 [] = 0x0000#16 ∧ compute 0x03#8 0x00#8 [] = 0xFFFD#16 ∧
  compute 0xFF#8 0xFF#8 (List.replicate 255 0xFF#8) = 0x0001#16 ∧
  compute 0xFF#8 0xFF#8 (List.replicate 257 0xFF#8) = 0xFE03#16 ∧
  compute 0x01#8 0x00#8 (List.replicate 256 0xFF#8) = 0x00FF#16

/-- 42_checksum.md R175: a change of exactly one covered byte (the id, the length, one payload byte) changes the
checksum; payload bytes reordered do not. -/
def Obligations.ChecksumDetectsOneChangedByte : Prop :=
  (∀ (c c' l : Byte) (p : List Byte), c ≠ c' → compute c l p ≠ compute c' l p) ∧
  (∀ (c l l' : Byte) (p : List Byte), l ≠ l' → compute c l p ≠ compute c l' p) ∧
  (∀ (c l b b' : Byte) (p : List Byte) (j : Nat), p[j]? = some b → b' ≠ b →
    compute c l (p.set j b') ≠ compute c l p) ∧
  ∀ (c l : Byte) (p q : List Byte), p.Perm q → compute c l p = compute c l q

/-- 42_checksum.md R173, R172: CK_VERIFY returns OK with VERIFY_OK telling whether ARG[15:0] = ARG[31:16], byte with
byte in position; nothing else changes. -/
def Obligations.CkVerifyComparesInPosition : Prop :=
  decodeWord 0x00000005#32 = .ok .ckVerify ∧ (∀ w, decodeWord w = .ok .ckVerify → w = 0x00000005#32) ∧
  ∀ s : State, exec .ckVerify s = .next { s with
    result := if s.arg.toNat % 2 ^ 16 = s.arg.toNat / 2 ^ 16 then 0x00010009#32 else 0x00000009#32 }

/-! ## BUILD -/

/-- 43_encoder.md R190, R192, R193, 30_encoding.md R92: BUILD of at most 23 written bytes leaves in ENC_OUT the request
frame, its checksum the value that cancels the sum, high byte first; ENC_LEN is its length; ENC_OUT beyond it, every
other window, register and channel are as before. -/
def Obligations.BuildWritesTheRequestFrame : Prop :=
  ∀ (s : State) (len : BitVec 16) (p : List Byte), len.toNat ≤ 23 → s.sampleIn len.toNat = some p →
    ∃ t ckHi ckLo, exec (.build len) s = .next t ∧
      t = { s with result := 0x00000009#32, encLen := BitVec.ofNat 32 (7 + len.toNat), mem := t.mem } ∧
      Memory.readBytes t.mem 0x200 (7 + len.toNat) =
        some ([0xDD#8, s.arg0, s.arg1, BitVec.ofNat 8 len.toNat] ++ p ++ [ckHi, ckLo, 0x77#8]) ∧
      (ckHi.toNat * 2 ^ 8 + ckLo.toNat + s.arg1.toNat + len.toNat + sum8 p) % 2 ^ 16 = 0 ∧
      ∀ a, a < 0x200 ∨ 0x207 + len.toNat ≤ a → Memory.read t.mem a = Memory.read s.mem a

/-- 43_encoder.md R191, whole: for every legal choice of the parameters BUILD of N written bytes succeeds exactly where
7 + N fits ENC_CAP, and then N is at most 255, so the second test never decides; on failure ENC_LEN becomes 0 and
ENC_OUT, like all else but RESULT, keeps what it held. With this hardware's ENC_CAP the limit is N <= 23. -/
def Obligations.BuildSizeLimit : Prop :=
  (∀ (cfg : Config) (s : State) (len : BitVec 16) (p : List Byte), cfg.Legal → len.toNat ≤ cfg.inCap →
    s.sampleIn len.toNat = some p →
    (7 + len.toNat ≤ cfg.encCap → len.toNat ≤ 255 ∧
      ∃ t, execBuildIn cfg len s = .next t ∧ t.result = 0x00000009#32) ∧
    (cfg.encCap < 7 + len.toNat →
      execBuildIn cfg len s = .next { s with encLen := 0x00000000#32, result := 0x00000008#32 })) ∧
  ∀ (s : State) (len : BitVec 16) (p : List Byte), len.toNat ≤ 512 → s.sampleIn len.toNat = some p →
    (len.toNat ≤ 23 → ∃ t, exec (.build len) s = .next t ∧ t.result = 0x00000009#32) ∧
    (24 ≤ len.toNat →
      exec (.build len) s = .next { s with encLen := 0x00000000#32, result := 0x00000008#32 })

/-- 43_encoder.md R194, whole: BUILD gives the same output whatever the state of any channel, CK or earlier BUILDs, and
a BUILD before a DECODE does not change what the DECODE gives. -/
def Obligations.BuildIsIndependent : Prop :=
  (∀ (s u t : State) (len : BitVec 16), s.arg = u.arg →
    (∀ j, j < len.toNat → Memory.read s.mem (0x400 + j) = Memory.read u.mem (0x400 + j)) →
    exec (.build len) s = .next t → t.result ≠ 0x0000000A#32 →
      ∃ v, exec (.build len) u = .next v ∧ v.result = t.result ∧ v.encLen = t.encLen ∧
        ∀ j, j < t.encLen.toNat → Memory.read v.mem (0x200 + j) = Memory.read t.mem (0x200 + j)) ∧
  ∀ (s t d : State) (len len' : BitVec 16) (ch : BitVec 4), exec (.build len) s = .next t →
    exec (.decode ch len') s = .next d →
      ∃ e, exec (.decode ch len') t = .next e ∧ SameDecodeOutputs d e ∧ e.channels = d.channels

/-- 43_encoder.md R196 items 1 and 2 for this hardware's seed, conflicts C4 and C5: what a built frame, fed back as one
chunk to channel 0, decodes to: DETECTED_ERROR(cmdID) for a nonzero cmdID, CHECKSUM_ERROR for cmdID 0 and a nonzero
mode, and PACKET with id 0 and the payload for both 0. -/
def Obligations.BuiltFrameFedBack : Prop :=
  ∀ (s t u : State) (len len' : BitVec 16) (p : List Byte), len.toNat ≤ 23 → s.sampleIn len.toNat = some p →
    exec (.build len) s = .next t → len'.toNat = t.encLen.toNat →
    u.sampleIn len'.toNat = Memory.readBytes t.mem 0x200 t.encLen.toNat → (u.channel 0).cont = false →
      ∃ v, exec (.decode 0#4 len') u = .next v ∧
        (s.arg1 ≠ 0x00#8 → v.result = BitVec.ofNat 32 (0x05 + s.arg1.toNat * 2 ^ 8)) ∧
        (s.arg1 = 0x00#8 → s.arg0 ≠ 0x00#8 → v.result = 0x00000003#32) ∧
        (s.arg1 = 0x00#8 → s.arg0 = 0x00#8 → v.result = 0x00000001#32 ∧ v.pktId = 0x00#8 ∧
          v.pktLen.toNat = p.length ∧ ∀ j, j < p.length → Memory.read v.mem (0x100 + j) = p[j]?)

/-! ## Host statements -/

/-- 30_encoding.md R97 to R99: the accesses FEED expands to, served one by one, load the chunk into IN and then run
DECODE on it, with nothing else of the state changed before the command runs. The queue holds the accesses (log 1). -/
def Obligations.FeedLoadsTheChunkAndDecodes : Prop :=
  ∀ (s : State) (ch : BitVec 4) (chunk : List Byte) (events rest : List HostEvent), ch.toNat < 2 →
    hostFeed Config.hw ch chunk = some events → s.hostQueue = events ++ rest →
      ∃ m, ({ s with mem := m }).sampleIn chunk.length = some chunk ∧
        (∀ a, a < 0x400 ∨ 0x400 + chunk.length ≤ a → Memory.read m a = Memory.read s.mem a) ∧
        Host.Core.run core events.length s =
          exec (.decode ch (BitVec.ofNat 16 chunk.length)) { s with mem := m, hostQueue := rest }

/-- 30_encoding.md R99 with 70_reset_and_hazards.md R243, R244: a host that writes its operands before its command never
meets the UnwrittenInput fault: the accesses of FEED to a channel of the block, SEND, CKSUM and VERIFY run safely from
every state, the one right after reset among them. The queue holds the accesses (log 1). -/
def Obligations.HostStatementsRunSafely : Prop :=
  ∀ (s : State) (events rest : List HostEvent), s.hostQueue = events ++ rest →
    ((∃ ch bytes, ch.toNat < 2 ∧ hostFeed Config.hw ch bytes = some events) ∨
      (∃ mode cmdId p, hostSend Config.hw mode cmdId p = some events) ∨
      (∃ cmdId length p, hostCksum Config.hw cmdId length p = some events) ∨
      ∃ eh el rh rl, hostVerify eh el rh rl = events) →
    SafeRun events.length s

/-- 10_state.md R31 to R36, R40 to R42, 20_memory.md R69, R63: in every state a host read of ARG, RESULT, CK, ENC_LEN,
PKT0 or PKT1 answers that register's word, a read of PKT_PAYLOAD[j], ENC_OUT[j] or a written IN[j] answers the cell's
byte zero-extended, and a read of any index answers the word the other statements about reads speak of. The queue and the
answer's field only hold the access and what it returned (log 1, log 2). -/
def Obligations.HostReadsAnswerTheContents : Prop :=
  ∀ s : State,
    (∀ (a : WordIndex) (rest : List HostEvent), s.hostQueue = .read a :: rest →
      step s = .next { s with hostQueue := rest, readData := some (busRead Config.hw a s) }) ∧
    busRead Config.hw 0x001#11 s = s.arg ∧ busRead Config.hw 0x002#11 s = s.result ∧
    busRead Config.hw 0x003#11 s = s.ck ∧ busRead Config.hw 0x004#11 s = s.encLen ∧
    busRead Config.hw 0x005#11 s = s.pkt0 ∧ busRead Config.hw 0x006#11 s = s.pkt1 ∧
    (∀ j, j < 256 → ∃ b, Memory.read s.mem (0x100 + j) = some b ∧
      busRead Config.hw (BitVec.ofNat 11 (0x100 + j)) s = BitVec.ofNat 32 b.toNat) ∧
    (∀ j, j < 30 → ∃ b, Memory.read s.mem (0x200 + j) = some b ∧
      busRead Config.hw (BitVec.ofNat 11 (0x200 + j)) s = BitVec.ofNat 32 b.toNat) ∧
    ∀ j b, j < 512 → Memory.read s.mem (0x400 + j) = some b →
      busRead Config.hw (BitVec.ofNat 11 (0x400 + j)) s = BitVec.ofNat 32 b.toNat
end

