-- ==== Sys2Proof/Laws/Memory.lean ====
section
/-! SUPPORT. The laws of the windows' memory: a read after a write, what a write of several bytes changes, what a read
of several bytes returns, and that every operation keeps the canonical form. -/

namespace Sys2Proof.Machine

theorem lookup_insert (m : Memory) (a : Nat) (b : Byte) (x : Nat) :
    Memory.lookup (Memory.insert m a b) x = if x = a then some b else Memory.lookup m x := by
  induction m with
  | nil => simp [Memory.insert, Memory.lookup]
  | cons e m ih =>
    obtain ⟨k, v⟩ := e
    simp only [Memory.insert]
    split
    · simp [Memory.lookup]
    · split
      · subst k; by_cases hx : x = a <;> simp [Memory.lookup, hx]
      · simp only [Memory.lookup, ih]
        by_cases hx : x = k
        · subst hx; simp; intro h; omega
        · simp [hx]

theorem lookup_erase (m : Memory) (a x : Nat) :
    Memory.lookup (Memory.erase m a) x = if x = a then none else Memory.lookup m x := by
  induction m with
  | nil => simp [Memory.erase, Memory.lookup]
  | cons e m ih =>
    obtain ⟨k, v⟩ := e
    simp only [Memory.erase]
    split
    · subst k; simp only [ih, Memory.lookup]; by_cases hx : x = a <;> simp [hx]
    · simp only [Memory.lookup, ih]
      by_cases hx : x = k
      · subst hx; simp; intro h; omega
      · simp [hx]

/-- A read after a write: the written byte at its own address, what was there everywhere else. -/
theorem read_write (m : Memory) (a : Nat) (b : Byte) (x : Nat) :
    Memory.read (Memory.write m a b) x = if x = a then some b else Memory.read m x := by
  by_cases h : Memory.unlisted a = some b
  · simp only [Memory.write, h, if_true, Memory.read, lookup_erase]
    by_cases hx : x = a
    · subst hx; simp [h]
    · simp [hx]
  · simp only [Memory.write, h, if_false, Memory.read, lookup_insert]
    by_cases hx : x = a <;> simp [hx]

@[simp] theorem read_write_same (m : Memory) (a : Nat) (b : Byte) :
    Memory.read (Memory.write m a b) a = some b := by simp [read_write]

theorem read_write_other (m : Memory) (b : Byte) {a x : Nat} (h : x ≠ a) :
    Memory.read (Memory.write m a b) x = Memory.read m x := by simp [read_write, h]

/-- Every cell below IN holds a byte: one never written holds its reset value (10_state.md R45). -/
theorem read_below_in (m : Memory) {a : Nat} (h : a < inBase) : ∃ b, Memory.read m a = some b := by
  unfold Memory.read
  split
  · exact ⟨_, rfl⟩
  · simp [Memory.unlisted, h]

/-- A cell outside a written range reads as before. -/
theorem read_writeBytes_outside (bs : List Byte) :
    ∀ (m : Memory) (a x : Nat), (x < a ∨ a + bs.length ≤ x) →
      Memory.read (Memory.writeBytes m a bs) x = Memory.read m x := by
  induction bs with
  | nil => intros; rfl
  | cons b bs ih =>
    intro m a x h
    simp only [List.length_cons] at h
    rw [Memory.writeBytes, ih _ _ _ (by omega), read_write_other _ _ (by omega)]

/-- A cell inside a written range reads as the byte written there. -/
theorem read_writeBytes_inside (bs : List Byte) :
    ∀ (m : Memory) (a j : Nat), j < bs.length → Memory.read (Memory.writeBytes m a bs) (a + j) = bs[j]? := by
  induction bs with
  | nil => intro m a j h; simp at h
  | cons b bs ih =>
    intro m a j h
    cases j with
    | zero =>
      rw [Memory.writeBytes, read_writeBytes_outside _ _ _ _ (by omega)]
      simp
    | succ j =>
      rw [Memory.writeBytes, show a + (j + 1) = a + 1 + j by omega, ih _ _ _ (by simpa using h)]
      simp

/-- A successful read of `n` cells returns `n` bytes, the one at `j` being what the cell holds. -/
theorem readBytes_eq_some {m : Memory} {n : Nat} :
    ∀ {a : Nat} {bs : List Byte}, Memory.readBytes m a n = some bs ↔
      bs.length = n ∧ ∀ j, j < n → Memory.read m (a + j) = bs[j]? := by
  induction n with
  | zero =>
    intro a bs
    simp only [Memory.readBytes, Option.some.injEq]
    constructor
    · rintro rfl; simp
    · rintro ⟨h, -⟩; exact (List.length_eq_zero_iff.mp h).symm
  | succ n ih =>
    intro a bs
    simp only [Memory.readBytes]
    constructor
    · intro h
      split at h
      · rename_i b bs' hb hbs
        obtain ⟨hl, hr⟩ := ih.mp hbs
        cases h
        refine ⟨by simp [hl], fun j hj => ?_⟩
        cases j with
        | zero => simpa using hb
        | succ j => rw [show a + (j + 1) = a + 1 + j by omega, hr j (by omega)]; simp
      · cases h
    · rintro ⟨hl, hr⟩
      cases bs with
      | nil => simp at hl
      | cons b bs =>
        have h0 : Memory.read m a = some b := by simpa using hr 0 (by omega)
        have h1 : Memory.readBytes m (a + 1) n = some bs :=
          ih.mpr ⟨by simpa using hl, fun j hj => by
            rw [show a + 1 + j = a + (j + 1) by omega, hr (j + 1) (by omega)]; simp⟩
        simp [h0, h1]

/-- The length of what a read of `n` cells returns. -/
theorem length_of_readBytes {m : Memory} {a n : Nat} {bs : List Byte} (h : Memory.readBytes m a n = some bs) :
    bs.length = n := (readBytes_eq_some.mp h).1

/-- A read of `n` cells fails exactly where one of them is unwritten. -/
theorem readBytes_eq_none {m : Memory} {n : Nat} :
    ∀ {a : Nat}, Memory.readBytes m a n = none ↔ ∃ j, j < n ∧ Memory.read m (a + j) = none := by
  induction n with
  | zero => intro a; simp [Memory.readBytes]
  | succ n ih =>
    intro a
    simp only [Memory.readBytes]
    constructor
    · intro h
      cases h0 : Memory.read m a with
      | none => exact ⟨0, by omega, h0⟩
      | some b =>
        cases h1 : Memory.readBytes m (a + 1) n with
        | none =>
          obtain ⟨j, hj, hr⟩ := ih.mp h1
          exact ⟨j + 1, by omega, by rw [show a + (j + 1) = a + 1 + j by omega]; exact hr⟩
        | some bs => simp [h0, h1] at h
    · rintro ⟨j, hj, hr⟩
      cases j with
      | zero => simp [show Memory.read m a = none from hr]
      | succ j =>
        have : Memory.readBytes m (a + 1) n = none :=
          ih.mpr ⟨j, by omega, by rw [show a + 1 + j = a + (j + 1) by omega]; exact hr⟩
        simp [this]

/-- Reads of `n` cells agree in two memories whose cells agree there. -/
theorem readBytes_congr {m m' : Memory} {n : Nat} :
    ∀ {a : Nat}, (∀ j, j < n → Memory.read m (a + j) = Memory.read m' (a + j)) →
      Memory.readBytes m a n = Memory.readBytes m' a n := by
  induction n with
  | zero => intros; rfl
  | succ n ih =>
    intro a h
    have h0 : Memory.read m a = Memory.read m' a := h 0 (by omega)
    have h1 := ih (a := a + 1) fun j hj => by
      have := h (j + 1) (by omega); rwa [show a + (j + 1) = a + 1 + j by omega] at this
    simp only [Memory.readBytes, h0, h1]

/-- The window cells by their indices (20_memory.md R61). -/
theorem isWindowCell_iff {cfg : Config} {a : Nat} :
    isWindowCell cfg a = true ↔
      (0x100 ≤ a ∧ a < 0x200) ∨ (0x200 ≤ a ∧ a < 0x200 + cfg.encCap) ∨ (0x400 ≤ a ∧ a < 0x400 + cfg.inCap) := by
  simp only [isWindowCell, Bool.or_eq_true, decide_eq_true_eq, or_assoc]
  rfl

/-! ## The canonical form -/

theorem mem_insert {m : Memory} {a : Nat} {b : Byte} {e : Host.Cell} (h : e ∈ Memory.insert m a b) :
    e = (a, b) ∨ e ∈ m := by
  induction m with
  | nil => simpa [Memory.insert] using h
  | cons x m ih =>
    obtain ⟨k, v⟩ := x
    simp only [Memory.insert] at h
    split at h
    · simpa using h
    · split at h
      · rcases List.mem_cons.mp h with h | h
        · exact .inl h
        · exact .inr (List.mem_cons_of_mem _ h)
      · rcases List.mem_cons.mp h with h | h
        · exact .inr (by simp [h])
        · exact (ih h).imp_right (List.mem_cons_of_mem _)

theorem mem_erase {m : Memory} {a : Nat} {e : Host.Cell} (h : e ∈ Memory.erase m a) : e ∈ m := by
  induction m with
  | nil => simp [Memory.erase] at h
  | cons x m ih =>
    obtain ⟨k, v⟩ := x
    simp only [Memory.erase] at h
    split at h
    · exact List.mem_cons_of_mem _ (ih h)
    · rcases List.mem_cons.mp h with h | h
      · simp [h]
      · exact List.mem_cons_of_mem _ (ih h)

/-- Every entry after a write is the one written or was there before. -/
theorem mem_write {m : Memory} {a : Nat} {b : Byte} {e : Host.Cell} (h : e ∈ Memory.write m a b) :
    e = (a, b) ∨ e ∈ m := by
  unfold Memory.write at h
  split at h
  · exact .inr (mem_erase h)
  · exact mem_insert h

theorem insert_rising {m : Memory} (a : Nat) (b : Byte) (h : m.Pairwise (fun x y => x.1 < y.1)) :
    (Memory.insert m a b).Pairwise (fun x y => x.1 < y.1) := by
  induction m with
  | nil => simp [Memory.insert]
  | cons x m ih =>
    obtain ⟨k, v⟩ := x
    obtain ⟨hk, hm⟩ := List.pairwise_cons.mp h
    simp only [Memory.insert]
    split
    · rename_i hak
      refine List.pairwise_cons.mpr ⟨fun e he => ?_, h⟩
      rcases List.mem_cons.mp he with rfl | he
      · exact hak
      · exact Nat.lt_trans hak (hk e he)
    · split
      · rename_i hak; subst hak; exact List.pairwise_cons.mpr ⟨hk, hm⟩
      · refine List.pairwise_cons.mpr ⟨fun e he => ?_, ih hm⟩
        rcases mem_insert he with rfl | he
        · show k < a; omega
        · exact hk e he

theorem erase_rising {m : Memory} (a : Nat) (h : m.Pairwise (fun x y => x.1 < y.1)) :
    (Memory.erase m a).Pairwise (fun x y => x.1 < y.1) := by
  induction m with
  | nil => simp [Memory.erase]
  | cons x m ih =>
    obtain ⟨k, v⟩ := x
    obtain ⟨hk, hm⟩ := List.pairwise_cons.mp h
    simp only [Memory.erase]
    split
    · exact ih hm
    · exact List.pairwise_cons.mpr ⟨fun e he => hk e (mem_erase he), ih hm⟩

/-- A write keeps the canonical form. -/
theorem write_wf {m : Memory} (a : Nat) (b : Byte) (h : Memory.wf m) : Memory.wf (Memory.write m a b) := by
  refine ⟨?_, fun e he => ?_⟩
  · unfold Memory.write
    split
    · exact erase_rising a h.1
    · exact insert_rising a b h.1
  · unfold Memory.write at he
    split at he
    · exact h.2 e (mem_erase he)
    · rename_i hn
      rcases mem_insert he with rfl | he
      · exact hn
      · exact h.2 e he

/-- A write of several bytes keeps the canonical form. -/
theorem writeBytes_wf (bs : List Byte) :
    ∀ {m : Memory} (a : Nat), Memory.wf m → Memory.wf (Memory.writeBytes m a bs) := by
  induction bs with
  | nil => intro m a h; exact h
  | cons b bs ih => intro m a h; exact ih _ (write_wf a b h)

/-- Every entry after a write of several bytes lies in the written range or was there before. -/
theorem mem_writeBytes (bs : List Byte) :
    ∀ {m : Memory} {a : Nat} {e : Host.Cell}, e ∈ Memory.writeBytes m a bs →
      (a ≤ e.1 ∧ e.1 < a + bs.length) ∨ e ∈ m := by
  induction bs with
  | nil => intro m a e h; exact .inr h
  | cons b bs ih =>
    intro m a e h
    rcases ih h with h | h
    · exact .inl ⟨by omega, by simp only [List.length_cons]; omega⟩
    · rcases mem_write h with rfl | h
      · exact .inl ⟨Nat.le_refl _, by simp⟩
      · exact .inr h

end Sys2Proof.Machine
end

