-- ==== Sys2Proof/Laws/State.lean ====
section
/-! SUPPORT. What each update of the state does to each field: one lemma per field per update, true by rfl, so that no
later proof unfolds a record update; and how the accessors of channels compose. -/

namespace Sys2Proof.Machine

section SetResult

variable (s : State) (w : Word)

@[simp] theorem setResult_channels : (s.setResult w).channels = s.channels := rfl
@[simp] theorem setResult_arg : (s.setResult w).arg = s.arg := rfl
@[simp] theorem setResult_result : (s.setResult w).result = w := rfl
@[simp] theorem setResult_ck : (s.setResult w).ck = s.ck := rfl
@[simp] theorem setResult_encLen : (s.setResult w).encLen = s.encLen := rfl
@[simp] theorem setResult_pkt0 : (s.setResult w).pkt0 = s.pkt0 := rfl
@[simp] theorem setResult_pkt1 : (s.setResult w).pkt1 = s.pkt1 := rfl
@[simp] theorem setResult_mem : (s.setResult w).mem = s.mem := rfl
@[simp] theorem setResult_hostQueue : (s.setResult w).hostQueue = s.hostQueue := rfl
@[simp] theorem setResult_readData : (s.setResult w).readData = s.readData := rfl
@[simp] theorem setResult_powerCycle : (s.setResult w).powerCycle = s.powerCycle := rfl
@[simp] theorem setResult_channel (c : Nat) : (s.setResult w).channel c = s.channel c := rfl
@[simp] theorem setResult_setResult (v : Word) : (s.setResult w).setResult v = s.setResult v := rfl

end SetResult

section SetChannel

variable (s : State) (c : Nat) (ch : Channel)

@[simp] theorem setChannel_channels : (s.setChannel c ch).channels = s.channels.set c ch := rfl
@[simp] theorem setChannel_arg : (s.setChannel c ch).arg = s.arg := rfl
@[simp] theorem setChannel_result : (s.setChannel c ch).result = s.result := rfl
@[simp] theorem setChannel_ck : (s.setChannel c ch).ck = s.ck := rfl
@[simp] theorem setChannel_encLen : (s.setChannel c ch).encLen = s.encLen := rfl
@[simp] theorem setChannel_pkt0 : (s.setChannel c ch).pkt0 = s.pkt0 := rfl
@[simp] theorem setChannel_pkt1 : (s.setChannel c ch).pkt1 = s.pkt1 := rfl
@[simp] theorem setChannel_mem : (s.setChannel c ch).mem = s.mem := rfl
@[simp] theorem setChannel_hostQueue : (s.setChannel c ch).hostQueue = s.hostQueue := rfl
@[simp] theorem setChannel_readData : (s.setChannel c ch).readData = s.readData := rfl
@[simp] theorem setChannel_powerCycle : (s.setChannel c ch).powerCycle = s.powerCycle := rfl

/-- A replaced channel reads as what was put there. -/
theorem channel_setChannel_same (h : c < s.channels.length) : (s.setChannel c ch).channel c = ch := by
  simp [State.channel, List.getD_eq_getElem?_getD, h]

/-- Replacing one channel leaves every other alone (10_state.md R24). -/
theorem channel_setChannel_other {d : Nat} (h : d ≠ c) : (s.setChannel c ch).channel d = s.channel d := by
  simp [State.channel, List.getD_eq_getElem?_getD, List.getElem?_set_ne (Ne.symm h)]

/-- The later of two replacements of one channel stands. -/
@[simp] theorem setChannel_setChannel_same (ch' : Channel) :
    (s.setChannel c ch).setChannel c ch' = s.setChannel c ch' := by
  simp [State.setChannel]

/-- Replacements of two channels commute. -/
theorem setChannel_comm {d : Nat} (x : Channel) (h : d ≠ c) :
    (s.setChannel c ch).setChannel d x = (s.setChannel d x).setChannel c ch := by
  simp [State.setChannel, List.set_comm _ _ h.symm]

@[simp] theorem setResult_setChannel (w : Word) :
    (s.setChannel c ch).setResult w = (s.setResult w).setChannel c ch := rfl

end SetChannel

section Clear

variable (ch : Channel)

@[simp] theorem clear_cells : ch.clear.cells = ch.cells := rfl
@[simp] theorem clear_cur : ch.clear.cur = 0 := rfl
@[simp] theorem clear_cont : ch.clear.cont = false := rfl
@[simp] theorem clear_clear : ch.clear.clear = ch.clear := rfl
@[simp] theorem clear_contents : ch.clear.contents = [] := rfl

/-- After `clear(c)` channel `c` is empty with no continuation, whatever it held (41_reassembly_buffer.md R154). -/
theorem channel_clearChannel (s : State) (c : Nat) :
    ((s.clearChannel c).channel c).cur = 0 ∧ ((s.clearChannel c).channel c).cont = false := by
  by_cases h : c < s.channels.length
  · simp [State.clearChannel, channel_setChannel_same, h]
  · simp [State.clearChannel, State.channel, List.getD_eq_getElem?_getD,
      List.set_eq_of_length_le (Nat.le_of_not_lt h), List.getElem?_eq_none (Nat.le_of_not_lt h)]

end Clear

section ClearChannel

variable (s : State) (c : Nat)

@[simp] theorem clearChannel_channels : (s.clearChannel c).channels = s.channels.set c (s.channel c).clear := rfl
@[simp] theorem clearChannel_arg : (s.clearChannel c).arg = s.arg := rfl
@[simp] theorem clearChannel_result : (s.clearChannel c).result = s.result := rfl
@[simp] theorem clearChannel_ck : (s.clearChannel c).ck = s.ck := rfl
@[simp] theorem clearChannel_encLen : (s.clearChannel c).encLen = s.encLen := rfl
@[simp] theorem clearChannel_pkt0 : (s.clearChannel c).pkt0 = s.pkt0 := rfl
@[simp] theorem clearChannel_pkt1 : (s.clearChannel c).pkt1 = s.pkt1 := rfl
@[simp] theorem clearChannel_mem : (s.clearChannel c).mem = s.mem := rfl
@[simp] theorem clearChannel_hostQueue : (s.clearChannel c).hostQueue = s.hostQueue := rfl
@[simp] theorem clearChannel_readData : (s.clearChannel c).readData = s.readData := rfl
@[simp] theorem clearChannel_powerCycle : (s.clearChannel c).powerCycle = s.powerCycle := rfl

end ClearChannel

section RaiseIllegalCommand

variable (s : State)

@[simp] theorem raiseIllegalCommand_channels : (raiseIllegalCommand s).channels = s.channels := rfl
@[simp] theorem raiseIllegalCommand_arg : (raiseIllegalCommand s).arg = s.arg := rfl
@[simp] theorem raiseIllegalCommand_result : (raiseIllegalCommand s).result = 0x0000000A#32 := rfl
@[simp] theorem raiseIllegalCommand_ck : (raiseIllegalCommand s).ck = s.ck := rfl
@[simp] theorem raiseIllegalCommand_encLen : (raiseIllegalCommand s).encLen = s.encLen := rfl
@[simp] theorem raiseIllegalCommand_pkt0 : (raiseIllegalCommand s).pkt0 = s.pkt0 := rfl
@[simp] theorem raiseIllegalCommand_pkt1 : (raiseIllegalCommand s).pkt1 = s.pkt1 := rfl
@[simp] theorem raiseIllegalCommand_mem : (raiseIllegalCommand s).mem = s.mem := rfl
@[simp] theorem raiseIllegalCommand_hostQueue : (raiseIllegalCommand s).hostQueue = s.hostQueue := rfl
@[simp] theorem raiseIllegalCommand_readData : (raiseIllegalCommand s).readData = s.readData := rfl
@[simp] theorem raiseIllegalCommand_powerCycle : (raiseIllegalCommand s).powerCycle = s.powerCycle := rfl
@[simp] theorem raiseIllegalCommand_channel (c : Nat) : (raiseIllegalCommand s).channel c = s.channel c := rfl

end RaiseIllegalCommand

end Sys2Proof.Machine
end

