-- ==== Sys2Proof/Laws/Bus.lean ====
section
/-! SUPPORT. The register map and the step: which register a word index names, what a step does with each event, and
the parameters of this hardware as numbers. -/

namespace Sys2Proof.Machine

@[simp] theorem hw_nch : Config.hw.nch = 2 := rfl
@[simp] theorem hw_bufCap : Config.hw.bufCap = 40 := rfl
@[simp] theorem hw_encCap : Config.hw.encCap = 30 := rfl
@[simp] theorem hw_inCap : Config.hw.inCap = 512 := rfl
@[simp] theorem hw_seed : Config.hw.seed = .idLen := rfl
@[simp] theorem hw_profile_zero : Config.hw.profile 0 = .bm := rfl
@[simp] theorem hw_profile_one : Config.hw.profile 1 = .mc := rfl

/-- This hardware's parameters are legal (00_scope.md R6). -/
theorem hw_legal : Config.hw.Legal := by decide

/-- The place of a register in the map (10_state.md R29), and that the block has it. -/
def HostReg.At (cfg : Config) (n : Nat) : HostReg → Prop
  | .cmd => n = 0x000
  | .arg => n = 0x001
  | .result => n = 0x002
  | .ck => n = 0x003
  | .encLen => n = 0x004
  | .pkt0 => n = 0x005
  | .pkt1 => n = 0x006
  | .config0 => n = 0x007
  | .config1 => n = 0x008
  | .chStat c => n = 0x010 + c ∧ c < cfg.nch ∧ c < 16
  | .pktPayload j => n = 0x100 + j ∧ j < 256
  | .encOut j => n = 0x200 + j ∧ j < cfg.encCap ∧ j < 512
  | .inCell j => n = 0x400 + j ∧ j < cfg.inCap ∧ j < 1024

/-- The map says of a register where it stands. -/
theorem regAt_some {cfg : Config} {a : WordIndex} {r : HostReg} (h : regAt cfg a = some r) : r.At cfg a.toNat := by
  have ha := a.isLt
  unfold regAt at h
  dsimp only at h
  generalize a.toNat = n at h ha ⊢
  split at h
  · rename_i h16
    split at h <;> cases h <;> rfl
  · split at h
    · split at h <;> cases h
      exact ⟨by omega, by omega, by omega⟩
    · split at h
      · cases h
      · split at h
        · cases h; exact ⟨by omega, by omega⟩
        · split at h
          · split at h <;> cases h
            exact ⟨by omega, by omega, by omega⟩
          · split at h <;> cases h
            exact ⟨by omega, by omega, by omega⟩

/-- A register of the block stands where the map says. -/
theorem regAt_of_at {cfg : Config} {a : WordIndex} {r : HostReg} (h : r.At cfg a.toNat) : regAt cfg a = some r := by
  have ha := a.isLt
  unfold regAt
  dsimp only
  generalize a.toNat = n at h ha ⊢
  cases r <;> simp only [HostReg.At] at h
  case chStat c =>
    rw [if_neg (by omega), if_pos (by omega), if_pos (by omega), show n - 0x010 = c by omega]
  case pktPayload j =>
    rw [if_neg (by omega), if_neg (by omega), if_neg (by omega), if_pos (by omega), show n - 0x100 = j by omega]
  case encOut j =>
    rw [if_neg (by omega), if_neg (by omega), if_neg (by omega), if_neg (by omega), if_pos (by omega),
      if_pos (by omega), show n - 0x200 = j by omega]
  case inCell j =>
    rw [if_neg (by omega), if_neg (by omega), if_neg (by omega), if_neg (by omega), if_neg (by omega),
      if_pos (by omega), show n - 0x400 = j by omega]
  all_goals subst h; rfl

/-- A reserved index names nothing (20_memory.md R62). -/
theorem regAt_reserved {cfg : Config} {a : WordIndex} (h : ReservedIndex cfg a) : regAt cfg a = none := by
  have ha := a.isLt
  cases hr : regAt cfg a with
  | none => rfl
  | some r =>
    have hat := regAt_some hr
    unfold ReservedIndex at h
    cases r <;> simp only [HostReg.At] at hat <;> omega

/-- A write to a read-only index is ignored (R63). -/
theorem busWrite_readOnly {cfg : Config} {a : WordIndex} (hcfg : cfg.Legal) (h : ReadOnlyIndex cfg a) (w : Word)
    (s : State) :
    busWrite cfg a w s = .next s := by
  cases hr : regAt cfg a with
  | none => simp only [busWrite, hr]
  | some r =>
    have hat := regAt_some hr
    obtain ⟨-, hn, -, -, -, -, he, -, -⟩ := hcfg
    unfold ReadOnlyIndex at h
    cases r <;> simp only [HostReg.At] at hat <;> first | omega | simp only [busWrite, hr]

/-- IN[j] stands at 0x400 + j (R42). -/
theorem regAt_inCell {cfg : Config} {j : Nat} (h : j < cfg.inCap) (hj : j < 1024) :
    regAt cfg (BitVec.ofNat 11 (0x400 + j)) = some (.inCell j) :=
  regAt_of_at ⟨by simp; omega, h, hj⟩

/-- A read of an index the block has a register at answers that register. -/
theorem busRead_of_at {cfg : Config} {a : WordIndex} {r : HostReg} (h : r.At cfg a.toNat) (s : State) :
    busRead cfg a s = readReg cfg s r := by
  unfold busRead; rw [regAt_of_at h]

/-- A write to IN[j] stores the low byte of the word in that cell (R42). -/
theorem busWrite_inCell {cfg : Config} {j : Nat} (h : j < cfg.inCap) (hj : j < 1024) (w : Word) (s : State) :
    busWrite cfg (BitVec.ofNat 11 (0x400 + j)) w s =
      .next { s with mem := Memory.write s.mem (inBase + j) (w.extractLsb' 0 8) } := by
  simp only [busWrite, regAt_inCell h hj]

/-! ## The step -/

variable {s : State} {rest : List HostEvent}

/-- With nothing to serve the block is idle (60_exceptions.md R227). -/
theorem step_idle (h : s.hostQueue = []) : step s = .next s := by
  unfold step; rw [h]

/-- The oldest event is served. -/
theorem step_event {e : HostEvent} (h : s.hostQueue = e :: rest) : step s = serve e { s with hostQueue := rest } := by
  unfold step; rw [h]

/-- A host read answers the word and changes nothing else of the block. -/
theorem step_read {a : WordIndex} (h : s.hostQueue = .read a :: rest) :
    step s = .next { s with hostQueue := rest, readData := some (busRead Config.hw a s) } := by
  rw [step_event h]; rfl

/-- A write to CMD issues a command. -/
theorem step_command {w : Word} (h : s.hostQueue = .write 0x000#11 w :: rest) :
    step s = issueCommand w { s with hostQueue := rest } := by
  rw [step_event h]; rfl

/-- A write elsewhere. -/
theorem step_write {a : WordIndex} {w : Word} (h : s.hostQueue = .write a w :: rest) :
    step s = busWrite Config.hw a w { s with hostQueue := rest } := by
  rw [step_event h]; rfl

/-- A power-on reset. -/
theorem step_powerOn (h : s.hostQueue = .powerOnReset :: rest) :
    step s = .next { State.reset with hostQueue := rest, powerCycle := s.powerCycle + 1 } := by
  rw [step_event h]; rfl

/-- Two steps of a run in terms of one. -/
theorem run_succ_of_next {k : Nat} {t : State} (h : step s = .next t) :
    Host.Core.run core (k + 1) s = Host.Core.run core k t := by
  have hs : core.step s = .next t := h
  simp only [Host.Core.run, hs]

/-- All that a host write can do: issue a command at CMD, store at ARG or IN, nothing elsewhere. -/
theorem busWrite_cases (cfg : Config) (a : WordIndex) (w : Word) (s : State) :
    (a = 0x000#11 ∧ busWrite cfg a w s = issueCommand w s) ∨
    (a = 0x001#11 ∧ busWrite cfg a w s = .next { s with arg := w }) ∨
    (∃ j, a.toNat = 0x400 + j ∧ j < cfg.inCap ∧
      busWrite cfg a w s = .next { s with mem := Memory.write s.mem (inBase + j) (w.extractLsb' 0 8) }) ∨
    busWrite cfg a w s = .next s := by
  cases hr : regAt cfg a with
  | none => exact .inr (.inr (.inr (by simp only [busWrite, hr])))
  | some r =>
    have hat := regAt_some hr
    cases r <;> simp only [HostReg.At] at hat
    case cmd => exact .inl ⟨BitVec.eq_of_toNat_eq hat, by simp only [busWrite, hr]⟩
    case arg => exact .inr (.inl ⟨BitVec.eq_of_toNat_eq hat, by simp only [busWrite, hr]⟩)
    case inCell j => exact .inr (.inr (.inl ⟨j, hat.1, hat.2.1, by simp only [busWrite, hr]⟩))
    all_goals exact .inr (.inr (.inr (by simp only [busWrite, hr])))

/-- All that issuing a word can do: run the instruction it decodes to, or report ILLEGAL_COMMAND. -/
theorem issueCommand_cases (w : Word) (s : State) :
    (∃ i, decodeWord w = .ok i ∧ issueCommand w s = exec i s) ∨
    ((∃ e, decodeWord w = .error e) ∧ issueCommand w s = .next (raiseIllegalCommand s)) := by
  unfold issueCommand
  cases h : decodeWord w with
  | ok i => exact .inl ⟨i, rfl, rfl⟩
  | error e => exact .inr ⟨⟨e, rfl⟩, rfl⟩

/-- All that a step can do. -/
theorem step_cases (s : State) :
    (s.hostQueue = [] ∧ step s = .next s) ∨
    (∃ a rest, s.hostQueue = .read a :: rest ∧
      step s = .next { s with hostQueue := rest, readData := some (busRead Config.hw a s) }) ∨
    (∃ a w rest, s.hostQueue = .write a w :: rest ∧ step s = busWrite Config.hw a w { s with hostQueue := rest }) ∨
    (∃ rest, s.hostQueue = .powerOnReset :: rest ∧
      step s = .next { State.reset with hostQueue := rest, powerCycle := s.powerCycle + 1 }) := by
  cases h : s.hostQueue with
  | nil => exact .inl ⟨rfl, step_idle h⟩
  | cons e rest =>
    cases e with
    | read a => exact .inr (.inl ⟨a, rest, rfl, step_read h⟩)
    | write a w => exact .inr (.inr (.inl ⟨a, w, rest, rfl, step_write h⟩))
    | powerOnReset => exact .inr (.inr (.inr ⟨rest, rfl, step_powerOn h⟩))

end Sys2Proof.Machine
end

