-- ==== Sys2Proof/Laws/Checksum.lean ====
section
/-! SUPPORT. The arithmetic of the additive checksum: `neg16` and `sum8` (42_checksum.md R170, R174). -/

namespace Sys2Proof.Machine

theorem toNat_neg16 (v : Nat) : (neg16 v).toNat = (65536 - v % 65536) % 65536 := by
  simp [neg16]

/-- `neg16` is the negation mod 2^16: the sum and its checksum add up to 0. -/
theorem add_neg16 (v : Nat) : (v + (neg16 v).toNat) % 65536 = 0 := by
  rw [toNat_neg16]; omega

/-- Two sums have one checksum exactly when they agree mod 2^16. -/
theorem neg16_eq_iff (a b : Nat) : neg16 a = neg16 b ↔ a % 65536 = b % 65536 := by
  rw [← BitVec.toNat_inj, toNat_neg16, toNat_neg16]; omega

@[simp] theorem neg16_mod (v : Nat) : neg16 (v % 65536) = neg16 v := by
  rw [neg16_eq_iff]; omega

@[simp] theorem sum8_nil : sum8 [] = 0 := rfl
@[simp] theorem sum8_cons (b : Byte) (p : List Byte) : sum8 (b :: p) = b.toNat + sum8 p := rfl

@[simp] theorem sum8_append (p q : List Byte) : sum8 (p ++ q) = sum8 p + sum8 q := by
  simp [sum8]

/-- A payload with its byte at `j` replaced: the sum exchanges the two bytes. -/
theorem sum8_set (b : Byte) :
    ∀ {p : List Byte} {j : Nat} {a : Byte}, p[j]? = some a → sum8 (p.set j b) + a.toNat = sum8 p + b.toNat := by
  intro p
  induction p with
  | nil => intro j a h; simp at h
  | cons x p ih =>
    intro j a h
    cases j with
    | zero => simp only [List.getElem?_cons_zero, Option.some.injEq] at h; subst h; simp; omega
    | succ j => have := ih (j := j) (a := a) (by simpa using h); simp; omega

/-- A u16 is its two bytes. -/
theorem eq_of_bytes {v w : U16} (hh : highByte v = highByte w) (hl : lowByte v = lowByte w) : v = w := by
  apply BitVec.eq_of_getLsbD_eq
  intro i hi
  by_cases h : i < 8
  · have := congrArg (fun x => BitVec.getLsbD x i) hl
    simpa [lowByte, BitVec.getLsbD_extractLsb', h] using this
  · have := congrArg (fun x => BitVec.getLsbD x (i - 8)) hh
    simpa [highByte, BitVec.getLsbD_extractLsb', show i - 8 < 8 by omega, show 8 + (i - 8) = i by omega] using this

/-- `verify` compares byte with byte (R172). -/
@[simp] theorem verify_iff (eh el rh rl : Byte) : verify eh el rh rl = true ↔ eh = rh ∧ el = rl := by
  simp [verify]

/-- A u16 sum that wraps at each addition has the checksum of the whole sum (R174). -/
theorem neg16_toNat_add (v : U16) (n : Nat) : neg16 ((v.toNat + n) % 65536) = neg16 (v.toNat + n) := neg16_mod _

end Sys2Proof.Machine
end

