-- ==== Sys2Proof/Laws/Decode.lean ====
section
/-! SUPPORT. The command word: the fields of an encoded word, and what the decoder's answer says of the word. -/

namespace Sys2Proof

theorem fieldOp_commandWord (op : BitVec 8) (ch : BitVec 4) (len : BitVec 16) :
    fieldOp (commandWord op ch len) = op := by
  apply BitVec.eq_of_getLsbD_eq
  intro i hi
  simp only [fieldOp, commandWord, BitVec.getLsbD_extractLsb', BitVec.getLsbD_or, BitVec.getLsbD_shiftLeft,
    BitVec.getLsbD_setWidth]
  have h1 : 0 + i < 8 := by omega
  have h2 : 0 + i < 16 := by omega
  simp [hi, show i < 32 by omega, show i < 16 by omega]

theorem fieldCh_commandWord (op : BitVec 8) (ch : BitVec 4) (len : BitVec 16) :
    fieldCh (commandWord op ch len) = ch := by
  apply BitVec.eq_of_getLsbD_eq
  intro i hi
  simp only [fieldCh, commandWord, BitVec.getLsbD_extractLsb', BitVec.getLsbD_or, BitVec.getLsbD_shiftLeft,
    BitVec.getLsbD_setWidth]
  simp [hi, show 8 + i < 32 by omega, show 8 + i < 16 by omega, show i < 32 by omega]

theorem fieldRsv_commandWord (op : BitVec 8) (ch : BitVec 4) (len : BitVec 16) :
    fieldRsv (commandWord op ch len) = 0#4 := by
  apply BitVec.eq_of_getLsbD_eq
  intro i hi
  simp only [fieldRsv, commandWord, BitVec.getLsbD_extractLsb', BitVec.getLsbD_or, BitVec.getLsbD_shiftLeft,
    BitVec.getLsbD_setWidth]
  simp [hi, show 12 + i < 32 by omega, show 12 + i < 16 by omega]
  exact ⟨BitVec.getLsbD_of_ge _ _ (by omega), fun _ _ => BitVec.getLsbD_of_ge _ _ (by omega)⟩

theorem fieldLen_commandWord (op : BitVec 8) (ch : BitVec 4) (len : BitVec 16) :
    fieldLen (commandWord op ch len) = len := by
  apply BitVec.eq_of_getLsbD_eq
  intro i hi
  simp only [fieldLen, commandWord, BitVec.getLsbD_extractLsb', BitVec.getLsbD_or, BitVec.getLsbD_shiftLeft,
    BitVec.getLsbD_setWidth]
  have h1 : ch.getLsbD (16 + i - 8) = false := BitVec.getLsbD_of_ge _ _ (by omega)
  have h2 : op.getLsbD (16 + i) = false := BitVec.getLsbD_of_ge _ _ (by omega)
  simp [hi, h1, h2, show 16 + i < 32 by omega, show i < 32 by omega]

/-- The word is its four fields: with RSV 0 it is the command word of the other three (R81). -/
theorem commandWord_of_fields {w : Word} (h : fieldRsv w = 0#4) :
    commandWord (fieldOp w) (fieldCh w) (fieldLen w) = w := by
  apply BitVec.eq_of_getLsbD_eq
  intro i hi
  have hr (j : Nat) (hj : j < 4) : w.getLsbD (12 + j) = false := by
    have := congrArg (fun v => BitVec.getLsbD v j) h
    simpa [fieldRsv, BitVec.getLsbD_extractLsb', hj] using this
  simp only [fieldOp, fieldCh, fieldLen, commandWord, BitVec.getLsbD_extractLsb', BitVec.getLsbD_or,
    BitVec.getLsbD_shiftLeft, BitVec.getLsbD_setWidth]
  by_cases h8 : i < 8
  · simp [h8, hi, show i < 16 by omega]
  · by_cases h12 : i < 12
    · simp [h8, hi, show i < 16 by omega, show i - 8 < 32 by omega, show i - 8 < 4 by omega,
        show 8 + (i - 8) = i by omega]
    · by_cases h16 : i < 16
      · have := hr (i - 12) (by omega)
        rw [show 12 + (i - 12) = i by omega] at this
        simp [h8, h16, this, show ¬ i - 8 < 4 by omega]
      · simp [h8, h16, hi, show ¬ i - 8 < 4 by omega, show i - 16 < 32 by omega, show i - 16 < 16 by omega,
          show 16 + (i - 16) = i by omega]

@[simp] theorem fieldOp_encode (i : Instr) : fieldOp (encode i) = i.opcode := fieldOp_commandWord _ _ _
@[simp] theorem fieldCh_encode (i : Instr) : fieldCh (encode i) = i.channelField := fieldCh_commandWord _ _ _
@[simp] theorem fieldRsv_encode (i : Instr) : fieldRsv (encode i) = 0#4 := fieldRsv_commandWord _ _ _
@[simp] theorem fieldLen_encode (i : Instr) : fieldLen (encode i) = i.lengthField := fieldLen_commandWord _ _ _

/-- What the decoder answers says which fields the word has and that the operands pass the checks. -/
theorem decodeWordIn_ok {cfg : Config} {w : Word} {i : Instr} (h : decodeWordIn cfg w = .ok i) :
    fieldRsv w = 0#4 ∧ fieldOp w = i.opcode ∧ fieldCh w = i.channelField ∧ fieldLen w = i.lengthField ∧
      i.wellFormedIn cfg = true := by
  unfold decodeWordIn at h
  split at h
  · rename_i hrsv
    refine ⟨hrsv, ?_⟩
    have hop (n : Nat) (hn : n < 256) (e : (fieldOp w).toNat = n) : fieldOp w = BitVec.ofNat 8 n := by
      apply BitVec.eq_of_toNat_eq
      simp [e]
      omega
    unfold decodeOp at h
    split at h <;> rename_i heq
    all_goals first | cases h | skip
    all_goals
      split at h
      · cases h
      · split at h
        · cases h
        · rename_i h1 h2
          cases h
          simp_all [Instr.opcode, Instr.channelField, Instr.lengthField, Instr.wellFormedIn, hop _ _ heq]
  · cases h

/-! ## The fields as numbers -/

theorem toNat_fieldOp (w : Word) : (fieldOp w).toNat = w.toNat % 2 ^ 8 := by simp [fieldOp]

theorem toNat_fieldCh (w : Word) : (fieldCh w).toNat = w.toNat / 2 ^ 8 % 2 ^ 4 := by
  simp [fieldCh, Nat.shiftRight_eq_div_pow]

theorem toNat_fieldRsv (w : Word) : (fieldRsv w).toNat = w.toNat / 2 ^ 12 % 2 ^ 4 := by
  simp [fieldRsv, Nat.shiftRight_eq_div_pow]

theorem toNat_fieldLen (w : Word) : (fieldLen w).toNat = w.toNat / 2 ^ 16 := by
  have := w.isLt
  simp [fieldLen, Nat.shiftRight_eq_div_pow]
  omega

/-- A field is 0 when its number is. -/
theorem eq_zero_iff_toNat {n : Nat} (v : BitVec n) : v = 0#n ↔ v.toNat = 0 := by
  rw [← BitVec.toNat_inj]; simp

end Sys2Proof
end

