-- ==== Sys2Proof/Laws/Reassembly.lean ====
section
/-! SUPPORT. The laws of the Reassembly Buffer: what `append` writes, when it fails, and what the buffer then holds
(41_reassembly_buffer.md R151). -/

namespace Sys2Proof.Machine

@[simp] theorem length_putCells (bs : List Byte) :
    ∀ (cells : List Byte) (k : Nat), (putCells cells k bs).length = cells.length := by
  induction bs with
  | nil => intros; rfl
  | cons b bs ih => intro cells k; rw [putCells, ih, List.length_set]

/-- Cells below the written ones keep their bytes. -/
theorem getElem?_putCells_below (bs : List Byte) :
    ∀ (cells : List Byte) (k j : Nat), j < k → (putCells cells k bs)[j]? = cells[j]? := by
  induction bs with
  | nil => intros; rfl
  | cons b bs ih =>
    intro cells k j h
    rw [putCells, ih _ _ _ (by omega), List.getElem?_set_ne (by omega)]

/-- The cells up to the end of the written ones: what was below, then the bytes written. -/
theorem take_putCells (bs : List Byte) :
    ∀ (cells : List Byte) (k : Nat), k + bs.length ≤ cells.length →
      (putCells cells k bs).take (k + bs.length) = cells.take k ++ bs := by
  induction bs with
  | nil => intro cells k _; simp [putCells]
  | cons b bs ih =>
    intro cells k h
    simp only [List.length_cons] at h
    rw [putCells, List.length_cons, show k + (bs.length + 1) = k + 1 + bs.length by omega,
      ih _ _ (by simp; omega), List.take_add_one]
    have hk : k < cells.length := by omega
    simp [List.take_set_of_le, hk]

/-- `append` fails exactly where the bytes do not fit. -/
theorem append_eq_none {cfg : Config} {ch : Channel} {bs : List Byte} :
    ch.append cfg bs = none ↔ cfg.bufCap < ch.cur + bs.length := by
  unfold Channel.append; split <;> simp_all

/-- All that a successful `append` does: the bytes fit, the cursor moves past them, the flag stays. -/
theorem append_eq_some {cfg : Config} {ch ch' : Channel} {bs : List Byte} (h : ch.append cfg bs = some ch') :
    ch.cur + bs.length ≤ cfg.bufCap ∧ ch'.cur = ch.cur + bs.length ∧ ch'.cont = ch.cont ∧
      ch'.cells = putCells ch.cells ch.cur bs := by
  unfold Channel.append at h
  split at h
  · cases h
  · cases h; exact ⟨by omega, rfl, rfl, rfl⟩

/-- What fits is appended. -/
theorem append_of_fits {cfg : Config} {ch : Channel} {bs : List Byte} (h : ch.cur + bs.length ≤ cfg.bufCap) :
    ch.append cfg bs = some { ch with cells := putCells ch.cells ch.cur bs, cur := ch.cur + bs.length } := by
  unfold Channel.append; rw [if_neg (by omega)]

/-- After an `append` the buffer holds what it held and then the bytes (R151, R158). -/
theorem contents_append {cfg : Config} {ch ch' : Channel} {bs : List Byte} (hl : ch.cells.length = cfg.bufCap)
    (h : ch.append cfg bs = some ch') : ch'.contents = ch.contents ++ bs := by
  obtain ⟨hf, hcur, -, hcells⟩ := append_eq_some h
  rw [Channel.contents, Channel.contents, hcells, hcur, take_putCells _ _ _ (by omega)]

/-- An `append` keeps the number of cells. -/
theorem length_cells_append {cfg : Config} {ch ch' : Channel} {bs : List Byte} (h : ch.append cfg bs = some ch') :
    ch'.cells.length = ch.cells.length := by
  rw [(append_eq_some h).2.2.2, length_putCells]

/-- The first cell after an `append`: the first byte where the buffer was empty, the old one otherwise. -/
theorem first_cell_append {cfg : Config} {ch ch' : Channel} {bs : List Byte} (hl : ch.cells.length = cfg.bufCap)
    (h : ch.append cfg bs = some ch') (hne : bs ≠ []) :
    ch'.cells[0]? = if ch.cur = 0 then bs[0]? else ch.cells[0]? := by
  obtain ⟨hf, hcur, -, hcells⟩ := append_eq_some h
  split
  · rename_i h0
    have ht := take_putCells bs ch.cells ch.cur (by omega)
    have hp : 0 < bs.length := List.length_pos_iff.mpr hne
    have := congrArg (fun l => l[0]?) ht
    simpa [hcells, h0, List.getElem?_take, hp] using this
  · rw [hcells, getElem?_putCells_below _ _ _ _ (by omega)]

end Sys2Proof.Machine
end

