-- ==== Sys2Proof/Laws/FrameDecoder.lean ====
section
/-! SUPPORT. The laws of the decode pass (40_frame_decoder.md): how a pass over `a ++ b` goes through `a`, what holds of
the working state at every byte, what garbage before a header does, and where a whole frame leads. -/

namespace Sys2Proof.Machine

variable {cfg : Config} {prof : Profile}

/-! ## A pass over a concatenation -/

/-- The working state after all of `bs`, or the result of the terminal byte in it. -/
def runBytes (cfg : Config) (prof : Profile) : List Byte → Transient → ByteStep
  | [], t => .go t
  | b :: rest, t =>
    match stepByte cfg prof b t with
    | .done r => .done r
    | .go t' => runBytes cfg prof rest { t' with i := t'.i + 1 }

/-- A pass over `a ++ b` is the pass over `b` from where `a` leads, unless `a` holds the terminal byte. -/
theorem passFrom_append (a b : List Byte) :
    ∀ t, passFrom cfg prof (a ++ b) t =
      match runBytes cfg prof a t with
      | .done r => r
      | .go t' => passFrom cfg prof b t' := by
  induction a with
  | nil => intro t; rfl
  | cons x a ih =>
    intro t
    simp only [List.cons_append, passFrom, runBytes]
    split <;> simp_all

theorem runBytes_append (a b : List Byte) :
    ∀ t, runBytes cfg prof (a ++ b) t =
      match runBytes cfg prof a t with
      | .done r => .done r
      | .go t' => runBytes cfg prof b t' := by
  induction a with
  | nil => intro t; rfl
  | cons x a ih =>
    intro t
    simp only [List.cons_append, runBytes]
    split <;> simp_all

/-- The pass over a whole input, in terms of `runBytes`. -/
theorem passFrom_eq (a : List Byte) (t : Transient) :
    passFrom cfg prof a t =
      match runBytes cfg prof a t with
      | .done r => r
      | .go t' => .short t'.st t'.h := by
  have := passFrom_append (cfg := cfg) (prof := prof) a [] t
  simpa [passFrom] using this

/-! ## What holds at every byte -/

/-- What holds of the working state once the bytes `pre` are consumed: the position, the header's place, the payload
so far, and the states a profile can be in. -/
structure Transient.Ok (prof : Profile) (pre : List Byte) (t : Transient) : Prop where
  pos : t.i = pre.length
  header : t.st = .readHeader → t.h = none
  found : t.st ≠ .readHeader → ∃ j, t.h = some j ∧ pre[j]? = some (hdr prof)
  active : t.st.active prof = true
  count : t.k = t.payload.length
  bound : t.n ≤ 255
  reading : t.st = .readPayload → t.k < t.n
  full : t.st = .checksumHigh ∨ t.st = .checksumLow ∨ t.st = .readSuffix → t.k = t.n
  mc : prof = .mc → t.ckerr = false ∧ (t.st ≠ .readHeader → t.n = mcPayloadLength)

/-- What a pass over `input` can return. -/
def PassResult.Ok (prof : Profile) (input : List Byte) : PassResult → Prop
  | .packet pkt => pkt.n = pkt.payload.length ∧ pkt.n ≤ 255 ∧ (prof = .mc → pkt.n = mcPayloadLength)
  | .checksumError => prof = .bm
  | .suffixError => True
  | .detectedError status => prof = .bm ∧ status ≠ 0x00#8
  | .short st h =>
    st.active prof = true ∧ ((st = .readHeader ∧ h = none) ∨
      (st ≠ .readHeader ∧ ∃ j, h = some j ∧ input[j]? = some (hdr prof)))

theorem init_ok : Transient.init.Ok prof [] := by
  constructor <;> simp [Transient.init, DecodeState.active]
  cases prof <;> rfl

theorem getElem?_append_some {pre : List Byte} {j : Nat} {x : Byte} (h : pre[j]? = some x) (b : List Byte) :
    (pre ++ b)[j]? = some x := by
  have hl : j < pre.length := (List.getElem?_eq_some_iff.mp h).1
  rw [List.getElem?_append_left hl, h]

/-- One byte keeps what holds of the working state. -/
theorem stepByte_go {pre : List Byte} {b : Byte} {t t' : Transient} (ht : t.Ok prof pre)
    (h : stepByte cfg prof b t = .go t') : ({ t' with i := t'.i + 1 } : Transient).Ok prof (pre ++ [b]) := by
  obtain ⟨pos, header, found, active, count, bound, reading, full, mc⟩ := ht
  have hfound : t.st ≠ .readHeader → ∃ j, t.h = some j ∧ (pre ++ [b])[j]? = some (hdr prof) := fun hs => by
    obtain ⟨j, hj, hp⟩ := found hs
    exact ⟨j, hj, getElem?_append_some hp _⟩
  unfold stepByte at h
  cases hst : t.st <;> simp only [hst] at h
  case readHeader =>
    unfold readHeader at h
    split at h
    · rename_i hb
      cases prof <;> cases h <;> constructor <;>
        simp_all [DecodeState.active, mcPayloadLength]
    · cases h
      constructor <;> simp_all [DecodeState.active]
  case readRegister =>
    cases h; cases prof <;> constructor <;> simp_all [DecodeState.active]
  case checkStatus =>
    unfold checkStatus at h
    split at h
    · cases h; cases prof <;> constructor <;> simp_all [DecodeState.active]
    · cases h
  case readLength =>
    cases h
    have hb : b.toNat < 256 := b.isLt
    cases prof
    · by_cases h0 : b = 0#8
      · subst h0; constructor <;> simp_all [DecodeState.active]
      · have : 0 < b.toNat := by
          rcases Nat.eq_zero_or_pos b.toNat with hz | hz
          · exact absurd (BitVec.eq_of_toNat_eq (by simpa using hz)) h0
          · exact hz
        constructor <;> simp_all [DecodeState.active]
        omega
    · simp [hst, DecodeState.active] at active
  case readPayload =>
    have hk := reading hst
    cases prof <;> cases h
    · by_cases hn : t.k + 1 = t.n
      · constructor <;> simp_all [DecodeState.active]
      · constructor <;> simp_all [DecodeState.active]
        omega
    · have hn : t.n = mcPayloadLength := (mc rfl).2 (by simp [hst])
      by_cases h9 : t.k + 1 = mcPayloadLength
      · constructor <;> simp_all [DecodeState.active, mcPayloadLength]
      · constructor <;> simp_all [DecodeState.active, mcPayloadLength]
        omega
  case checksumHigh =>
    cases h; cases prof <;> constructor <;> simp_all [DecodeState.active]
  case checksumLow =>
    cases prof
    · cases h; constructor <;> simp_all [DecodeState.active]
    · simp [hst, DecodeState.active] at active
  case readSuffix =>
    unfold readSuffix at h
    split at h
    · cases h
    · split at h <;> cases h

/-- What a terminal byte can return. -/
theorem stepByte_done {pre : List Byte} {b : Byte} {t : Transient} {r : PassResult} (ht : t.Ok prof pre)
    (h : stepByte cfg prof b t = .done r) (input : List Byte) : r.Ok prof input := by
  obtain ⟨pos, header, found, active, count, bound, reading, full, mc⟩ := ht
  unfold stepByte at h
  cases hst : t.st <;> simp only [hst] at h
  case readHeader =>
    unfold readHeader at h
    split at h
    · cases prof <;> cases h
    · cases h
  case readRegister => cases h
  case checkStatus =>
    unfold checkStatus at h
    split at h
    · cases h
    · rename_i hb
      cases h
      refine ⟨?_, hb⟩
      cases prof
      · rfl
      · simp [hst, DecodeState.active] at active
  case readLength => cases h
  case readPayload => cases prof <;> cases h
  case checksumHigh => cases h
  case checksumLow => cases h
  case readSuffix =>
    have hk := full (by simp [hst])
    unfold readSuffix at h
    split at h
    · rename_i hc
      cases h
      cases prof
      · rfl
      · simp [(mc rfl).1] at hc
    · split at h <;> cases h
      · refine ⟨by simp [← hk, count], bound, fun hm => ?_⟩
        exact (mc hm).2 (by simp [hst])
      · trivial

/-- What a pass can return from a working state reached over `pre`. -/
theorem passFrom_ok (rest : List Byte) :
    ∀ (pre : List Byte) (t : Transient), t.Ok prof pre → (passFrom cfg prof rest t).Ok prof (pre ++ rest) := by
  induction rest with
  | nil =>
    intro pre t ht
    refine ⟨ht.active, ?_⟩
    by_cases hs : t.st = .readHeader
    · exact .inl ⟨hs, ht.header hs⟩
    · obtain ⟨j, hj, hp⟩ := ht.found hs
      exact .inr ⟨hs, j, hj, by simpa using hp⟩
  | cons b rest ih =>
    intro pre t ht
    simp only [passFrom]
    split
    · rename_i r hr
      exact stepByte_done ht hr _
    · rename_i t' ht'
      have := ih (pre ++ [b]) _ (stepByte_go ht ht')
      simpa using this

/-- What a pass over an input can return (R110, R130). -/
theorem pass_ok (input : List Byte) : (pass cfg prof input).Ok prof input := by
  exact passFrom_ok (cfg := cfg) (prof := prof) input [] Transient.init init_ok

/-! ## Once a header is found, the pass never goes back to ReadHeader -/

theorem stepByte_past_header {b : Byte} {t t' : Transient} (hs : t.st ≠ .readHeader)
    (h : stepByte cfg prof b t = .go t') : t'.st ≠ .readHeader ∧ t'.h = t.h := by
  unfold stepByte at h
  cases hst : t.st <;> simp only [hst] at h
  case readHeader => exact absurd hst hs
  case readRegister => cases h; simp
  case checkStatus =>
    unfold checkStatus at h
    split at h <;> cases h
    simp
  case readLength => cases h; refine ⟨?_, rfl⟩; dsimp only; split <;> simp
  case readPayload =>
    cases prof <;> cases h
    · by_cases hk : t.k + 1 = t.n <;> simp [hk]
    · by_cases hk : t.k + 1 = mcPayloadLength <;> simp [hk]
  case checksumHigh => cases h; simp
  case checksumLow => cases h; simp
  case readSuffix =>
    unfold readSuffix at h
    split at h
    · cases h
    · split at h <;> cases h

theorem runBytes_past_header (a : List Byte) :
    ∀ {t t' : Transient}, t.st ≠ .readHeader → runBytes cfg prof a t = .go t' →
      t'.st ≠ .readHeader ∧ t'.h = t.h := by
  induction a with
  | nil => intro t t' hs h; cases h; exact ⟨hs, rfl⟩
  | cons b a ih =>
    intro t t' hs h
    simp only [runBytes] at h
    split at h
    · cases h
    · rename_i u hu
      obtain ⟨h1, h2⟩ := stepByte_past_header hs hu
      obtain ⟨h3, h4⟩ := ih (t := { u with i := u.i + 1 }) h1 h
      exact ⟨h3, h4.trans h2⟩

/-! ## Garbage before a header -/

/-- The working state of a pass that has consumed `d` bytes more. -/
def Transient.shift (d : Nat) (t : Transient) : Transient := { t with i := t.i + d, h := t.h.map (· + d) }

/-- A result whose header stands `d` bytes further on. -/
def PassResult.shift (d : Nat) : PassResult → PassResult
  | .packet pkt => .packet pkt
  | .checksumError => .checksumError
  | .suffixError => .suffixError
  | .detectedError status => .detectedError status
  | .short st h => .short st (h.map (· + d))

/-- What one byte does does not depend on the position. -/
theorem stepByte_shift (d : Nat) (b : Byte) (t : Transient) :
    stepByte cfg prof b (t.shift d) =
      match stepByte cfg prof b t with
      | .go t' => .go (t'.shift d)
      | .done r => .done (r.shift d) := by
  cases hst : t.st <;> simp only [stepByte, Transient.shift, hst]
  case readHeader =>
    unfold readHeader
    split
    · cases prof <;> simp
    · simp [hst]
  case readRegister => rfl
  case checkStatus => unfold checkStatus; split <;> rfl
  case readLength => rfl
  case readPayload => cases prof <;> rfl
  case checksumHigh => rfl
  case checksumLow => rfl
  case readSuffix =>
    unfold readSuffix
    split
    · simp_all [PassResult.shift]
    · split <;> simp_all [PassResult.shift]

theorem passFrom_shift (d : Nat) (a : List Byte) :
    ∀ t, passFrom cfg prof a (t.shift d) = (passFrom cfg prof a t).shift d := by
  induction a with
  | nil => intro t; rfl
  | cons b a ih =>
    intro t
    simp only [passFrom, stepByte_shift]
    cases h : stepByte cfg prof b t with
    | done r => rfl
    | go t' =>
      have : ({ t'.shift d with i := (t'.shift d).i + 1 } : Transient) =
          ({ t' with i := t'.i + 1 } : Transient).shift d := by
        simp [Transient.shift]; omega
      simp only [this, ih]

/-- Bytes without the header value leave ReadHeader as it is (R114). -/
theorem runBytes_garbage (g : List Byte) :
    ∀ {t : Transient}, t.st = .readHeader → hdr prof ∉ g →
      runBytes cfg prof g t = .go { t with i := t.i + g.length } := by
  induction g with
  | nil => intro t _ _; rfl
  | cons b g ih =>
    intro t hs hg
    have hb : b ≠ hdr prof := fun e => hg (by simp [e])
    have hg' : hdr prof ∉ g := fun e => hg (List.mem_cons_of_mem _ e)
    simp only [runBytes, stepByte, hs, readHeader, if_neg hb]
    rw [ih rfl hg']
    simp; omega

/-- Garbage before an input only moves the place where the header stands (R134 (b)). -/
theorem pass_garbage (g x : List Byte) (hg : hdr prof ∉ g) :
    pass cfg prof (g ++ x) = (pass cfg prof x).shift g.length := by
  unfold pass
  rw [passFrom_append, runBytes_garbage g rfl hg, ← passFrom_shift]
  congr 1

/-- The result is applied alike with and without garbage before the input: the retained bytes begin at the header. -/
theorem applyResult_garbage (s : State) (c : Nat) (r : PassResult) (g x : List Byte) :
    s.applyResult cfg c prof (r.shift g.length) (g ++ x) = s.applyResult cfg c prof r x := by
  cases r with
  | packet pkt => rfl
  | checksumError => rfl
  | suffixError => rfl
  | detectedError status => rfl
  | short st h =>
    cases st <;> cases h <;>
      simp [PassResult.shift, State.applyResult, State.saveShort, List.drop_append, List.drop_eq_nil_of_le]

/-! ## Whole frames -/

/-- The running sum over a payload (R119). -/
def runningSum (v : U16) (p : List Byte) : U16 := p.foldl (fun a b => a + b.setWidth 16) v

theorem toNat_runningSum (p : List Byte) : ∀ v : U16, (runningSum v p).toNat = (v.toNat + sum8 p) % 65536 := by
  induction p with
  | nil => intro v; have := v.isLt; simp [runningSum]; omega
  | cons b p ih =>
    intro v
    have hb := b.isLt
    have : runningSum v (b :: p) = runningSum (v + b.setWidth 16) p := rfl
    rw [this, ih]
    simp
    omega

/-- The payload stage of BM (R119). -/
theorem runBytes_bm_payload (p : List Byte) :
    ∀ {t : Transient}, t.st = .readPayload → t.k < t.n → t.k + p.length ≤ t.n →
      runBytes cfg .bm p t = .go { t with
        payload := t.payload ++ p, k := t.k + p.length, sum := runningSum t.sum p, i := t.i + p.length
        st := if t.k + p.length = t.n then .checksumHigh else .readPayload } := by
  induction p with
  | nil => intro t hs hk _; have := Nat.ne_of_lt hk; simp [runBytes, runningSum, this, ← hs]
  | cons b p ih =>
    intro t hs hk hl
    simp only [List.length_cons] at hl
    simp only [runBytes, stepByte, hs, readPayload]
    cases p with
    | nil => simp [runBytes, runningSum]
    | cons b' p =>
      simp only [List.length_cons] at hl
      have hne : t.k + 1 ≠ t.n := by omega
      rw [ih (by simp [hne]) (by simp; omega) (by simp; omega)]
      simp [runningSum, Nat.add_assoc, Nat.add_comm, Nat.add_left_comm]

/-- The payload stage of MC (R120). -/
theorem runBytes_mc_payload (p : List Byte) :
    ∀ {t : Transient}, t.st = .readPayload → t.k < 9 → t.k + p.length ≤ 9 →
      runBytes cfg .mc p t = .go { t with
        payload := t.payload ++ p, k := t.k + p.length, i := t.i + p.length
        st := if t.k + p.length = 9 then .readSuffix else .readPayload } := by
  induction p with
  | nil => intro t hs hk _; have := Nat.ne_of_lt hk; simp [runBytes, this, ← hs]
  | cons b p ih =>
    intro t hs hk hl
    simp only [List.length_cons] at hl
    simp only [runBytes, stepByte, hs, readPayload, mcPayloadLength]
    cases p with
    | nil => simp [runBytes]
    | cons b' p =>
      simp only [List.length_cons] at hl
      have hne : t.k + 1 ≠ 9 := by omega
      rw [ih (by simp [hne]) (by simp; omega) (by simp; omega)]
      simp [Nat.add_assoc, Nat.add_comm, Nat.add_left_comm]

/-- The running sum at the end of the payload gives the expected checksum (R133, R174). -/
theorem neg16_runningSum (seed : SeedKind) (id len : Byte) (p : List Byte) :
    neg16 (runningSum (seedSum seed id len) p).toNat =
      match seed with
      | .idLen => compute id len p
      | .lenOnly => compute 0x00#8 len p := by
  have hid := id.isLt
  have hlen := len.isLt
  rw [toNat_runningSum, neg16_mod]
  cases seed <;> simp [seedSum, compute] <;> rw [neg16_eq_iff] <;> omega

/-- The head of a BM frame leads to the payload or, where there is none, to the checksum (R116 to R118). -/
theorem runBytes_bm_head (id len : Byte) :
    runBytes cfg .bm [0xDD#8, id, 0x00#8, len] Transient.init = .go { Transient.init with
      st := if len = 0x00#8 then .checksumHigh else .readPayload
      i := 4, h := some 0, id := id, n := len.toNat, sum := seedSum cfg.seed id len } := by
  simp [runBytes, stepByte, Transient.init, readHeader, hdr, readRegister, checkStatus, readLength]

/-- The two checksum bytes of a BM frame lead to the suffix (R121, R122). -/
theorem runBytes_bm_checksum (c1 c2 : Byte) {t : Transient} (hs : t.st = .checksumHigh) :
    runBytes cfg .bm [c1, c2] t = .go { t with
      st := .readSuffix, i := t.i + 2, ckh := c1
      ckerr := t.ckerr || !verify (highByte (neg16 t.sum.toNat)) (lowByte (neg16 t.sum.toNat)) c1 c2 } := by
  simp [runBytes, stepByte, hs, checksumHigh, checksumLow]

/-- Where the stages before the suffix of a BM frame lead. -/
theorem runBytes_bm_frame (id c1 c2 : Byte) (p : List Byte) (hp : p.length ≤ 255) :
    ∃ t, runBytes cfg .bm ([0xDD#8, id, 0x00#8, BitVec.ofNat 8 p.length] ++ p ++ [c1, c2]) Transient.init = .go t ∧
      t.st = .readSuffix ∧ t.h = some 0 ∧ t.id = id ∧ t.n = p.length ∧ t.payload = p ∧
      t.ckerr = !verify (highByte (expectedChecksum cfg.seed id p)) (lowByte (expectedChecksum cfg.seed id p)) c1 c2 := by
  have hn : (BitVec.ofNat 8 p.length).toNat = p.length := by simp; omega
  have hexp : neg16 (runningSum (seedSum cfg.seed id (BitVec.ofNat 8 p.length)) p).toNat =
      expectedChecksum cfg.seed id p := by
    rw [neg16_runningSum]; cases cfg.seed <;> rfl
  rw [List.append_assoc, runBytes_append, runBytes_bm_head]
  dsimp only
  by_cases h0 : p.length = 0
  · obtain rfl := List.length_eq_zero_iff.mp h0
    rw [List.nil_append, runBytes_bm_checksum c1 c2 (by simp)]
    refine ⟨_, rfl, rfl, rfl, rfl, hn, rfl, ?_⟩
    rw [← hexp]
    simp [Transient.init, runningSum]
  · have hne : ¬ BitVec.ofNat 8 p.length = 0x00#8 := fun e => by
      have := congrArg BitVec.toNat e
      rw [hn] at this
      exact h0 (by simpa using this)
    rw [if_neg hne, runBytes_append, runBytes_bm_payload p rfl (by simp only [hn, Transient.init]; omega)
      (by simp only [hn, Transient.init]; omega)]
    dsimp only
    rw [runBytes_bm_checksum c1 c2 (by simp [hn, Transient.init])]
    refine ⟨_, rfl, rfl, rfl, rfl, hn, rfl, ?_⟩
    rw [← hexp]
    simp [Transient.init]

/-- Where the stages before the suffix of an MC frame lead. -/
theorem runBytes_mc_frame (p : List Byte) (hp : p.length = 9) :
    ∃ t, runBytes cfg .mc ([0xAA#8] ++ p) Transient.init = .go t ∧
      t.st = .readSuffix ∧ t.h = some 0 ∧ t.id = 0x00#8 ∧ t.n = 9 ∧ t.payload = p ∧ t.ckerr = false := by
  rw [runBytes_append]
  simp only [runBytes, stepByte, Transient.init, readHeader, hdr, if_true, mcPayloadLength]
  rw [runBytes_mc_payload p rfl (by simp) (by simp [hp])]
  refine ⟨_, rfl, ?_, rfl, rfl, rfl, rfl, rfl⟩
  simp [hp]

/-- The result of a BM frame with a zero status, whatever follows it (R122, R123, R129). -/
theorem pass_bm_frame (id c1 c2 x : Byte) (p trail : List Byte) (hp : p.length ≤ 255) :
    pass cfg .bm ([0xDD#8, id, 0x00#8, BitVec.ofNat 8 p.length] ++ p ++ [c1, c2] ++ x :: trail) =
      if highByte (expectedChecksum cfg.seed id p) = c1 ∧ lowByte (expectedChecksum cfg.seed id p) = c2 then
        if x = 0x77#8 then .packet { id := id, n := p.length, payload := p } else .suffixError
      else .checksumError := by
  obtain ⟨t, ht, hst, -, hid, hn, hpl, hck⟩ := runBytes_bm_frame (cfg := cfg) id c1 c2 p hp
  unfold pass
  rw [passFrom_append, ht]
  simp only [passFrom, stepByte, hst, readSuffix, hid, hn, hpl, sfx]
  by_cases hv : highByte (expectedChecksum cfg.seed id p) = c1 ∧ lowByte (expectedChecksum cfg.seed id p) = c2
  · have : t.ckerr = false := by rw [hck, (verify_iff _ _ _ _).mpr hv]; rfl
    rw [this, if_pos hv]
    by_cases hx : x = 0x77#8 <;> simp [hx]
  · have : t.ckerr = true := by
      rw [hck, Bool.not_eq_true', Bool.eq_false_iff]
      exact fun h => hv ((verify_iff _ _ _ _).mp h)
    rw [this, if_neg hv]
    simp

/-- The result of an MC frame, whatever follows it (R123, R129). -/
theorem pass_mc_frame (p trail : List Byte) (x : Byte) (hp : p.length = 9) :
    pass cfg .mc ([0xAA#8] ++ p ++ x :: trail) =
      if x = 0x85#8 then .packet { id := 0x00#8, n := 9, payload := p } else .suffixError := by
  obtain ⟨t, ht, hst, -, hid, hn, hpl, hck⟩ := runBytes_mc_frame (cfg := cfg) p hp
  unfold pass
  rw [passFrom_append, ht]
  simp only [passFrom, stepByte, hst, readSuffix, hid, hn, hpl, sfx, hck]
  by_cases hx : x = 0x85#8 <;> simp [hx]

/-- The result of a BM frame with a nonzero status, whatever follows it (R117). -/
theorem pass_bm_status (id status : Byte) (trail : List Byte) (h : status ≠ 0x00#8) :
    pass cfg .bm (0xDD#8 :: id :: status :: trail) = .detectedError status := by
  simp [pass, passFrom, stepByte, Transient.init, readHeader, hdr, readRegister, checkStatus, h]

/-- An input without a header value ends where it began (R124). -/
theorem pass_no_header (g : List Byte) (hg : hdr prof ∉ g) : pass cfg prof g = .short .readHeader none := by
  have := pass_garbage (cfg := cfg) g [] hg
  simpa [pass, passFrom, Transient.init, PassResult.shift] using this

/-- An input that begins with a header and whose bytes hold no terminal byte ends SHORT with the header at 0; so does
every part of it from the header on (R124). -/
theorem pass_prefix_short {a b : List Byte} {t : Transient} (hne : a ≠ []) (hh : a[0]? = some (hdr prof))
    (h : runBytes cfg prof (a ++ b) Transient.init = .go t) :
    ∃ st, st ≠ .readHeader ∧ pass cfg prof a = .short st (some 0) := by
  rw [runBytes_append] at h
  split at h
  · cases h
  · rename_i u hu
    have hp : pass cfg prof a = .short u.st u.h := by unfold pass; rw [passFrom_eq, hu]
    rw [hp]
    cases a with
    | nil => exact absurd rfl hne
    | cons x a =>
      simp only [List.getElem?_cons_zero, Option.some.injEq] at hh
      subst hh
      have : ∃ v : Transient, v.st ≠ .readHeader ∧ v.h = some 0 ∧ runBytes cfg prof a v = .go u := by
        simp only [runBytes, stepByte, Transient.init, readHeader, if_true] at hu
        cases prof <;> exact ⟨_, by simp, by simp, hu⟩
      obtain ⟨v, hv, hvh, hvu⟩ := this
      obtain ⟨h1, h2⟩ := runBytes_past_header a hv hvu
      exact ⟨u.st, h1, by rw [h2, hvh]⟩

/-- No byte before the last of what has the shape of a frame is terminal, whatever the checksum bytes are: the bytes
end SHORT with the header at 0 wherever they stop before it (R122, R124, R132 item 6). -/
theorem pass_shaped_prefix {f a b : List Byte} (hf : ShapedAsFrame prof f) (hab : f = a ++ b) (ha : a ≠ [])
    (hb : b ≠ []) :
    a[0]? = some (hdr prof) ∧ ∃ st, st ≠ .readHeader ∧ pass cfg prof a = .short st (some 0) := by
  obtain ⟨body, x, t, hbody, hh, ht⟩ : ∃ body x t, f = body ++ [x] ∧ f[0]? = some (hdr prof) ∧
      runBytes cfg prof body Transient.init = .go t := by
    cases prof with
    | bm =>
      obtain ⟨id, c1, c2, x, p, hp, rfl⟩ := hf
      obtain ⟨t, ht, -⟩ := runBytes_bm_frame (cfg := cfg) id c1 c2 p hp
      exact ⟨_, x, t, by simp [hdr], by simp [hdr], ht⟩
    | mc =>
      obtain ⟨x, p, hp, rfl⟩ := hf
      obtain ⟨t, ht, -⟩ := runBytes_mc_frame (cfg := cfg) p hp
      exact ⟨_, x, t, by simp [hdr], by simp [hdr], ht⟩
  have h0 : a[0]? = some (hdr prof) := by
    rwa [hab, List.getElem?_append_left (List.length_pos_iff.mpr ha)] at hh
  rw [hab, ← List.dropLast_concat_getLast hb, ← List.append_assoc] at hbody
  rw [← (List.append_inj' hbody rfl).1] at ht
  exact ⟨h0, pass_prefix_short ha h0 ht⟩

end Sys2Proof.Machine
end

