-- ==== Sys2Proof/Laws/Exec.lean ====
section
/-! SUPPORT. What each command can do, said once: for every meaning, the outcomes it has and the next state of each.
Later proofs cite these and do not unfold the meanings. -/

namespace Sys2Proof.Machine

variable {cfg : Config}

/-- All that RESET does (R156). -/
theorem execResetIn_cases (ch : BitVec 4) (s : State) :
    (channelOk cfg ch = false ∧ execResetIn cfg ch s = .next (raiseIllegalCommand s)) ∨
    (channelOk cfg ch = true ∧
      execResetIn cfg ch s = .next ((s.clearChannel ch.toNat).setResult (codeWord .ok))) := by
  unfold execResetIn
  cases channelOk cfg ch <;> simp

/-- All that CK_COMPUTE does (R171). -/
theorem execCkComputeIn_cases (len : BitVec 16) (s : State) :
    (lengthOk cfg len = false ∧ execCkComputeIn cfg len s = .next (raiseIllegalCommand s)) ∨
    (lengthOk cfg len = true ∧ s.sampleIn len.toNat = none ∧ execCkComputeIn cfg len s = .fault .unwrittenInput) ∨
    (lengthOk cfg len = true ∧ ∃ p, s.sampleIn len.toNat = some p ∧
      execCkComputeIn cfg len s =
        .next { s with ck := (compute s.arg1 s.arg0 p).setWidth 32, result := codeWord .ok }) := by
  unfold execCkComputeIn
  cases lengthOk cfg len <;> cases s.sampleIn len.toNat <;> simp

/-- All that BUILD does (R190). -/
theorem execBuildIn_cases (len : BitVec 16) (s : State) :
    (lengthOk cfg len = false ∧ execBuildIn cfg len s = .next (raiseIllegalCommand s)) ∨
    (lengthOk cfg len = true ∧ s.sampleIn len.toNat = none ∧ execBuildIn cfg len s = .fault .unwrittenInput) ∨
    (lengthOk cfg len = true ∧ payloadTooLarge cfg len.toNat = true ∧ (∃ p, s.sampleIn len.toNat = some p) ∧
      execBuildIn cfg len s = .next { s with encLen := 0x00000000#32, result := codeWord .payloadTooLarge }) ∨
    (lengthOk cfg len = true ∧ payloadTooLarge cfg len.toNat = false ∧ ∃ p, s.sampleIn len.toNat = some p ∧
      execBuildIn cfg len s = .next { s with
        mem := Memory.writeBytes s.mem encBase (requestFrame s.arg0 s.arg1 p)
        encLen := BitVec.ofNat 32 (7 + len.toNat)
        result := codeWord .ok }) := by
  unfold execBuildIn
  cases lengthOk cfg len <;> cases s.sampleIn len.toNat <;> cases payloadTooLarge cfg len.toNat <;> simp

/-- All that DECODE does (R111), the chunk's own decode apart. -/
theorem execDecodeIn_cases (ch : BitVec 4) (len : BitVec 16) (s : State) :
    ((channelOk cfg ch && lengthOk cfg len) = false ∧ execDecodeIn cfg ch len s = .next (raiseIllegalCommand s)) ∨
    ((channelOk cfg ch && lengthOk cfg len) = true ∧ s.sampleIn len.toNat = none ∧
      execDecodeIn cfg ch len s = .fault .unwrittenInput) ∨
    ((channelOk cfg ch && lengthOk cfg len) = true ∧ len = 0#16 ∧
      execDecodeIn cfg ch len s = .next (s.setResult (codeWord .noDataAvailable))) ∨
    ((channelOk cfg ch && lengthOk cfg len) = true ∧ len ≠ 0#16 ∧ ∃ chunk, s.sampleIn len.toNat = some chunk ∧
      execDecodeIn cfg ch len s = .next (s.decodeChunk cfg ch.toNat chunk)) := by
  unfold execDecodeIn
  cases channelOk cfg ch && lengthOk cfg len <;> cases s.sampleIn len.toNat <;> by_cases h : len = 0#16 <;> simp [h]

/-! ## The decode of a chunk -/

/-- What a decoded chunk may change besides its channel: nothing but RESULT, or with a packet the packet registers and
the first payload cells (R126 to R128). -/
inductive ChunkEffect (s : State) (c : Nat) (prof : Profile) (t : State) : Prop where
  /-- no packet -/
  | result (ch : Channel) (w : Word) (eq : t = (s.setChannel c ch).setResult w)
  /-- a packet -/
  | packet (ch : Channel) (pkt : Packet) (eq : t = { s.setChannel c ch with
      pkt0 := pkt0Word prof pkt.id, pkt1 := pkt1Word pkt.n c
      mem := Memory.writeBytes s.mem pktBase pkt.payload, result := codeWord .packet })
      (len : pkt.n = pkt.payload.length) (bound : pkt.n ≤ 255)

/-- Applying a result keeps to `ChunkEffect`. -/
theorem applyResult_effect {s : State} {c : Nat} {prof : Profile} {r : PassResult} {input : List Byte}
    (h : r.Ok prof input) : ChunkEffect s c prof (s.applyResult cfg c prof r input) := by
  cases r with
  | packet pkt =>
    obtain ⟨hn, hb, -⟩ := h
    exact .packet (s.channel c).clear pkt (by simp [State.applyResult, State.applyPacket, State.clearChannel, hn]) hn hb
  | checksumError => exact .result _ _ rfl
  | suffixError => exact .result _ _ rfl
  | detectedError status => exact .result _ _ rfl
  | short st h0 =>
    have key (h' : Option Nat) : ChunkEffect s c prof (s.saveShort cfg c input h') := by
      unfold State.saveShort
      split
      · exact .result _ _ rfl
      · split
        · exact .result _ _ rfl
        · exact .result _ _ rfl
    cases st <;> first | exact key none | exact key h0

/-- What a decoded chunk may change (R110). -/
theorem decodeChunk_effect (s : State) (c : Nat) (chunk : List Byte) :
    ChunkEffect s c (cfg.profile c) (s.decodeChunk cfg c chunk) := by
  unfold State.decodeChunk
  dsimp only
  split
  · split
    · exact .result _ _ rfl
    · rename_i ch _
      have := applyResult_effect (cfg := cfg) (s := s.setChannel c { ch with cont := false }) (c := c)
        (pass_ok (cfg := cfg) (prof := cfg.profile c) ch.contents)
      cases this with
      | result ch' w eq => exact .result ch' w (by rw [eq]; simp)
      | packet ch' pkt eq hn hb => exact .packet ch' pkt (by rw [eq]; simp [State.setChannel]) hn hb
  · exact applyResult_effect (pass_ok _)

/-- The channel after a decoded chunk, and the word RESULT holds. -/
inductive ChunkResult (cfg : Config) (prof : Profile) (ch : Channel) (w : Word) : Prop where
  /-- a terminal result: the channel is cleared -/
  | terminal (cur : ch.cur = 0) (cont : ch.cont = false)
      (code : w = codeWord .packet ∨ w = codeWord .shortData ∨ w = codeWord .suffixError ∨
        w = codeWord .bufferOverflow ∨ (prof = .bm ∧ (w = codeWord .checksumError ∨
          ∃ status, status ≠ 0x00#8 ∧ w = resultWord .detectedError status false)))
  /-- the retained bytes are kept -/
  | kept (cur : 1 ≤ ch.cur) (cap : ch.cur ≤ cfg.bufCap) (cont : ch.cont = true)
      (first : ch.cells[0]? = some (hdr prof)) (code : w = codeWord .shortData)

theorem applyResult_result {s : State} {c : Nat} {prof : Profile} {r : PassResult} {input : List Byte}
    (hc : c < s.channels.length) (hl : (s.channel c).cells.length = cfg.bufCap) (h : r.Ok prof input) :
    ((s.applyResult cfg c prof r input).channel c).cells.length = cfg.bufCap ∧
      ChunkResult cfg prof ((s.applyResult cfg c prof r input).channel c) (s.applyResult cfg c prof r input).result := by
  have hclear (w : Word) : (((s.clearChannel c).setResult w).channel c) = (s.channel c).clear :=
    channel_setChannel_same _ _ _ hc
  have hover : ((s.overflow c).channel c) = (s.channel c).clear := hclear _
  have herr (w : Word) : ((s.applyError c w).channel c) = (s.channel c).clear := hclear _
  cases r with
  | packet pkt =>
    have : ((s.applyPacket c prof pkt).channel c) = (s.channel c).clear := channel_setChannel_same s c _ hc
    simp only [State.applyResult, this, clear_cells]
    exact ⟨hl, .terminal rfl rfl (.inl rfl)⟩
  | checksumError =>
    simp only [State.applyResult, herr, clear_cells]
    exact ⟨hl, .terminal rfl rfl (.inr (.inr (.inr (.inr ⟨h, .inl rfl⟩))))⟩
  | suffixError =>
    simp only [State.applyResult, herr, clear_cells]
    exact ⟨hl, .terminal rfl rfl (.inr (.inr (.inl rfl)))⟩
  | detectedError status =>
    simp only [State.applyResult, herr, clear_cells]
    exact ⟨hl, .terminal rfl rfl (.inr (.inr (.inr (.inr ⟨h.1, .inr ⟨status, h.2, rfl⟩⟩))))⟩
  | short st h' =>
    obtain ⟨-, ⟨rfl, rfl⟩ | ⟨hst, j, rfl, hj⟩⟩ := h
    · simp only [State.applyResult, State.saveShort, hclear, clear_cells]
      exact ⟨hl, .terminal rfl rfl (.inr (.inl rfl))⟩
    · have happ : s.applyResult cfg c prof (.short st (some j)) input = s.saveShort cfg c input (some j) := by
        cases st <;> first | rfl | exact absurd rfl hst
      rw [happ]
      unfold State.saveShort
      dsimp only
      split
      · simp only [hover, clear_cells]
        exact ⟨hl, .terminal rfl rfl (.inr (.inr (.inr (.inl rfl))))⟩
      · rename_i ch hap
        have hjl : j < input.length := (List.getElem?_eq_some_iff.mp hj).1
        have hne : input.drop j ≠ [] := fun e => by
          have := List.drop_eq_nil_iff.mp e; omega
        have hch : (((s.setChannel c { ch with cont := true }).setResult (codeWord .shortData)).channel c) =
            { ch with cont := true } := channel_setChannel_same _ _ _ hc
        obtain ⟨hcap, hcur, -, -⟩ := append_eq_some hap
        have hfirst := first_cell_append (cfg := cfg) (by simpa using hl) hap hne
        rw [hch]
        refine ⟨by simpa [hl] using length_cells_append hap, .kept ?_ ?_ rfl ?_ rfl⟩
        · have hp := List.length_pos_iff.mpr hne
          simp only [clear_cur, Nat.zero_add] at hcur
          show 1 ≤ ch.cur
          omega
        · show ch.cur ≤ cfg.bufCap
          omega
        · show ch.cells[0]? = _
          rw [hfirst]
          simpa using hj

/-- The channel after a decoded chunk, and RESULT (R110, R126 to R128, R151 to R155). -/
theorem decodeChunk_result {s : State} {c : Nat} {chunk : List Byte} (hc : c < s.channels.length)
    (hl : (s.channel c).cells.length = cfg.bufCap) :
    ((s.decodeChunk cfg c chunk).channel c).cells.length = cfg.bufCap ∧
      ChunkResult cfg (cfg.profile c) ((s.decodeChunk cfg c chunk).channel c) (s.decodeChunk cfg c chunk).result := by
  unfold State.decodeChunk
  dsimp only
  split
  · split
    · have : ((s.overflow c).channel c) = (s.channel c).clear := channel_setChannel_same s c _ hc
      rw [this]
      exact ⟨hl, .terminal rfl rfl (.inr (.inr (.inr (.inl rfl))))⟩
    · rename_i ch hap
      have hch : ((s.setChannel c { ch with cont := false }).channel c) = { ch with cont := false } :=
        channel_setChannel_same s c _ hc
      exact applyResult_result (by simpa using hc) (by rw [hch]; exact (length_cells_append hap).trans hl) (pass_ok _)
  · exact applyResult_result hc hl (pass_ok _)

/-! ## When DECODE runs, and which way a chunk takes (R111) -/

/-- The channel check of this hardware, as a bound. -/
theorem channelOk_hw (ch : BitVec 4) : channelOk Config.hw ch = true ↔ ch.toNat < 2 := by
  unfold channelOk; rw [decide_eq_true_iff]; rfl

/-- The length check of this hardware, as a bound. -/
theorem lengthOk_hw (len : BitVec 16) : lengthOk Config.hw len = true ↔ len.toNat ≤ 512 := by
  unfold lengthOk; rw [decide_eq_true_iff]; rfl

/-- The two profiles of this hardware. -/
theorem hw_profile {c : Nat} (h : c < 2) : Config.hw.profile c = if c = 0 then .bm else .mc := by
  interval_cases c <;> rfl

theorem length_of_sampleIn {s : State} {n : Nat} {p : List Byte} (h : s.sampleIn n = some p) : p.length = n :=
  length_of_readBytes h

/-- A DECODE of a written, non-empty chunk runs. -/
theorem exec_decode_chunk {s : State} {ch : BitVec 4} {len : BitVec 16} {chunk : List Byte} (hch : ch.toNat < 2)
    (hlen : len.toNat ≤ 512) (hs : s.sampleIn len.toNat = some chunk) (hne : chunk ≠ []) :
    exec (.decode ch len) s = .next (s.decodeChunk Config.hw ch.toNat chunk) := by
  have h0 : len ≠ 0#16 := by
    rintro rfl
    exact hne (List.length_eq_zero_iff.mp (length_of_sampleIn hs))
  simp only [exec, execDecode, execDecodeIn, (channelOk_hw ch).mpr hch, (lengthOk_hw len).mpr hlen, Bool.and_self,
    if_true, hs, if_neg h0]

/-- Without a continuation the chunk is parsed in place. -/
theorem decodeChunk_fresh {s : State} {c : Nat} {chunk : List Byte} (h : (s.channel c).cont = false) :
    s.decodeChunk cfg c chunk = s.applyResult cfg c (cfg.profile c) (pass cfg (cfg.profile c) chunk) chunk := by
  unfold State.decodeChunk; simp [h]

/-- A continuation call that fits parses the buffered bytes followed by the chunk. -/
theorem decodeChunk_fits {s : State} {c : Nat} {chunk : List Byte} (h : (s.channel c).cont = true)
    (hl : (s.channel c).cells.length = cfg.bufCap) (hf : (s.channel c).cur + chunk.length ≤ cfg.bufCap) :
    ∃ x : Channel, x.cells.length = cfg.bufCap ∧ x.cur = (s.channel c).cur + chunk.length ∧
      x.contents = (s.channel c).contents ++ chunk ∧
      s.decodeChunk cfg c chunk = (s.setChannel c { x with cont := false }).applyResult cfg c (cfg.profile c)
        (pass cfg (cfg.profile c) ((s.channel c).contents ++ chunk)) ((s.channel c).contents ++ chunk) := by
  cases ha : (s.channel c).append cfg chunk with
  | none => have := append_eq_none.mp ha; omega
  | some x =>
    have hc := contents_append (by omega) ha
    refine ⟨x, (length_cells_append ha).trans hl, (append_eq_some ha).2.1, hc, ?_⟩
    unfold State.decodeChunk
    simp only [h, if_true, ha, hc]

/-- A continuation call that does not fit overflows. -/
theorem decodeChunk_overflow {s : State} {c : Nat} {chunk : List Byte} (h : (s.channel c).cont = true)
    (hf : cfg.bufCap < (s.channel c).cur + chunk.length) : s.decodeChunk cfg c chunk = s.overflow c := by
  unfold State.decodeChunk
  simp only [h, if_true, append_eq_none.mpr hf]

/-- A decoded chunk leaves every other channel alone (R24). -/
theorem decodeChunk_other {s : State} {c d : Nat} (h : d ≠ c) (chunk : List Byte) :
    (s.decodeChunk cfg c chunk).channel d = s.channel d := by
  cases decodeChunk_effect (cfg := cfg) s c chunk with
  | result ch w eq => rw [eq]; exact channel_setChannel_other _ _ _ h
  | packet ch p eq => rw [eq]; exact channel_setChannel_other _ _ _ h

/-- A save keeps the bytes from `h` on where they fit (R153). -/
theorem saveShort_keeps {s : State} {c h : Nat} {input : List Byte} (hl : (s.channel c).cells.length = cfg.bufCap)
    (hf : (input.drop h).length ≤ cfg.bufCap) :
    ∃ x : Channel, x.cont = true ∧ x.cur = (input.drop h).length ∧ x.contents = input.drop h ∧
      x.cells.length = cfg.bufCap ∧
      s.saveShort cfg c input (some h) = (s.setChannel c x).setResult (codeWord .shortData) := by
  cases ha : (s.channel c).clear.append cfg (input.drop h) with
  | none =>
    have := append_eq_none.mp ha
    simp only [clear_cur] at this
    omega
  | some x =>
    have hc := contents_append (by simpa using hl) ha
    have hcur := (append_eq_some ha).2.1
    refine ⟨{ x with cont := true }, rfl, by simpa using hcur, hc,
      (length_cells_append ha).trans hl, ?_⟩
    unfold State.saveShort
    simp only [ha]

/-- A save of bytes that do not fit overflows (R153). -/
theorem saveShort_overflow {s : State} {c h : Nat} {input : List Byte} (hf : cfg.bufCap < (input.drop h).length) :
    s.saveShort cfg c input (some h) = s.overflow c := by
  unfold State.saveShort
  have : (s.channel c).clear.append cfg (input.drop h) = none :=
    append_eq_none.mpr (by rw [clear_cur, Nat.zero_add]; exact hf)
  simp only [this]

/-- A SHORT outside ReadHeader is handed to the save with the header's place (R128). -/
theorem applyResult_short {s : State} {c : Nat} {prof : Profile} {st : DecodeState} {h : Option Nat}
    {input : List Byte} (hst : st ≠ .readHeader) :
    s.applyResult cfg c prof (.short st h) input = s.saveShort cfg c input h := by
  cases st <;> first | rfl | exact absurd rfl hst

/-! ## What no command touches -/

theorem ChunkEffect.untouched {s t : State} {c : Nat} {prof : Profile} (h : ChunkEffect s c prof t) :
    Untouched s t := by
  cases h with
  | result ch w eq => subst eq; constructor <;> intros <;> rfl
  | packet ch pkt eq hn hb =>
    subst eq
    refine ⟨rfl, rfl, rfl, rfl, fun a ha => read_writeBytes_outside _ _ _ _ (.inr ?_)⟩
    unfold pktBase
    unfold inBase at ha
    omega

theorem length_requestFrame (mode cmdId : Byte) (p : List Byte) : (requestFrame mode cmdId p).length = 7 + p.length := by
  simp [requestFrame, bmTrailer]; omega

/-- No command touches ARG, IN or the model's own fields (R31, R42, R88). -/
theorem exec_untouched {i : Instr} {s t : State} (h : exec i s = .next t) : Untouched s t := by
  have same (w : Word) : Untouched s (s.setResult w) := ⟨rfl, rfl, rfl, rfl, fun _ _ => rfl⟩
  cases i with
  | decode ch len =>
    rcases execDecodeIn_cases (cfg := Config.hw) ch len s with ⟨-, e⟩ | ⟨-, -, e⟩ | ⟨-, -, e⟩ | ⟨-, -, chunk, -, e⟩ <;>
      cases e.symm.trans h
    · exact same _
    · exact same _
    · exact (decodeChunk_effect s _ chunk).untouched
  | reset ch =>
    rcases execResetIn_cases (cfg := Config.hw) ch s with ⟨-, e⟩ | ⟨-, e⟩ <;> cases e.symm.trans h
    · exact same _
    · exact ⟨rfl, rfl, rfl, rfl, fun _ _ => rfl⟩
  | build len =>
    rcases execBuildIn_cases (cfg := Config.hw) len s with
      ⟨-, e⟩ | ⟨-, -, e⟩ | ⟨-, -, -, e⟩ | ⟨-, hs, p, hp, e⟩ <;> cases e.symm.trans h
    · exact same _
    · exact ⟨rfl, rfl, rfl, rfl, fun _ _ => rfl⟩
    · refine ⟨rfl, rfl, rfl, rfl, fun a ha => read_writeBytes_outside _ _ _ _ (.inr ?_)⟩
      have hl := length_of_readBytes hp
      have hn : ¬(255 < len.toNat ∨ 30 < 7 + len.toNat) := of_decide_eq_false hs
      rw [length_requestFrame]
      unfold encBase
      unfold inBase at ha
      omega
  | ckCompute len =>
    rcases execCkComputeIn_cases (cfg := Config.hw) len s with ⟨-, e⟩ | ⟨-, -, e⟩ | ⟨-, p, -, e⟩ <;>
      cases e.symm.trans h
    · exact same _
    · exact ⟨rfl, rfl, rfl, rfl, fun _ _ => rfl⟩
  | ckVerify => cases h; exact same _

end Sys2Proof.Machine
end

