-- ==== Sys2Proof/Laws/Flags.lean ====
section
/-! SUPPORT. The composed words as numbers, and what their fields read: RESULT, PKT0, PKT1, CONFIG0, CONFIG1, CH_STAT
(10_state.md R32 to R39). -/

namespace Sys2Proof.Machine

/-- Two fields that do not overlap add up. -/
theorem toNat_or_shiftLeft {x y : Word} {k : Nat} (hx : x.toNat < 2 ^ k) (hy : y.toNat * 2 ^ k < 2 ^ 32) :
    (x ||| (y <<< k)).toNat = x.toNat + y.toNat * 2 ^ k := by
  rw [BitVec.toNat_or, BitVec.toNat_shiftLeft, Nat.shiftLeft_eq, Nat.mod_eq_of_lt hy, Nat.or_comm, ← Nat.shiftLeft_eq,
    ← Nat.shiftLeft_add_eq_or_of_lt hx, Nat.shiftLeft_eq, Nat.add_comm]

theorem toNat_flagBit {n : Nat} (hn : n < 32) (v : Bool) : (flagBit n v).toNat = v.toNat * 2 ^ n := by
  have h : 2 ^ n < 2 ^ 32 := Nat.pow_lt_pow_right (by omega) hn
  cases v
  · simp [flagBit]
  · simp [flagBit, Nat.shiftLeft_eq]; omega

/-- A flag above the fields below it. -/
theorem toNat_or_flagBit {x : Word} {k : Nat} (hk : k < 32) (hx : x.toNat < 2 ^ k) (v : Bool) :
    (x ||| flagBit k v).toNat = x.toNat + v.toNat * 2 ^ k := by
  have h : 2 ^ k < 2 ^ 32 := Nat.pow_lt_pow_right (by omega) hk
  have hv : ((BitVec.ofBool v).setWidth 32 : Word).toNat = v.toNat := by cases v <;> rfl
  have hle : v.toNat ≤ 1 := by cases v <;> simp
  have := toNat_or_shiftLeft (y := (BitVec.ofBool v).setWidth 32) hx
    (Nat.lt_of_le_of_lt (Nat.mul_le_mul_right _ (hv ▸ hle)) (by omega))
  rw [hv] at this
  exact this

theorem toNat_setWidth_byte (b : Byte) : (b.setWidth 32).toNat = b.toNat := by
  have := b.isLt
  simp
  omega

/-- RESULT as a number (R32). -/
theorem toNat_resultWord (code : ResultCode) (status : Byte) (v : Bool) :
    (resultWord code status v).toNat = code.number.toNat + status.toNat * 2 ^ 8 + v.toNat * 2 ^ 16 := by
  have hc := code.number.isLt
  have hs := status.isLt
  have h1 := toNat_or_shiftLeft (x := code.number.setWidth 32) (y := status.setWidth 32) (k := 8)
    (by rw [toNat_setWidth_byte]; omega) (by rw [toNat_setWidth_byte]; omega)
  simp only [toNat_setWidth_byte] at h1
  unfold resultWord
  rw [toNat_or_flagBit (by omega) (by rw [h1]; omega), h1]

section Fields

variable (code : ResultCode) (status : Byte) (v : Bool)

@[simp] theorem code_resultWord : (resultWord code status v).extractLsb' 0 8 = code.number := by
  apply BitVec.eq_of_toNat_eq
  have hc := code.number.isLt
  rw [BitVec.extractLsb'_toNat, toNat_resultWord]
  simp
  omega

@[simp] theorem status_resultWord : (resultWord code status v).extractLsb' 8 8 = status := by
  apply BitVec.eq_of_toNat_eq
  have hc := code.number.isLt
  have hs := status.isLt
  rw [BitVec.extractLsb'_toNat, toNat_resultWord, Nat.shiftRight_eq_div_pow]
  omega

@[simp] theorem verifyOk_resultWord : (resultWord code status v).getLsbD 16 = v := by
  have hc := code.number.isLt
  have hs := status.isLt
  have h : (resultWord code status v).toNat / 2 ^ 16 = v.toNat := by rw [toNat_resultWord]; omega
  rw [BitVec.getLsbD, Nat.testBit, Nat.shiftRight_eq_div_pow, h]
  cases v <;> rfl

@[simp] theorem unnamed_resultWord : resultWord code status v >>> 17 = 0#32 := by
  apply BitVec.eq_of_toNat_eq
  have hc := code.number.isLt
  have hs := status.isLt
  have hv : v.toNat ≤ 1 := by cases v <;> simp
  rw [BitVec.toNat_ushiftRight, toNat_resultWord, Nat.shiftRight_eq_div_pow]
  simp
  omega

end Fields

/-- A number of R210 determines its result code. -/
theorem number_injective {a b : ResultCode} (h : a.number = b.number) : a = b := by
  revert h; cases a <;> cases b <;> decide

/-- The words RESULT holds after a command that reports only a code (R210, R213). -/
theorem codeWord_eq (code : ResultCode) : codeWord code = code.number.setWidth 32 := by
  cases code <;> decide

/-- RESULT of a DETECTED_ERROR (60_exceptions.md R214). -/
theorem detectedError_eq (status : Byte) :
    resultWord .detectedError status false = BitVec.ofNat 32 (0x05 + status.toNat * 2 ^ 8) := by
  apply BitVec.eq_of_toNat_eq
  have := status.isLt
  rw [toNat_resultWord]
  simp [ResultCode.number]
  omega

/-- PKT0 of a BM packet as a number (R35). -/
theorem toNat_pkt0Word_bm (id : Byte) : (pkt0Word .bm id).toNat = 0xDD + id.toNat * 2 ^ 8 + 0x07000000 := by
  have hid := id.isLt
  have hconst : ((0x00#8).setWidth 32 <<< 16 ||| (flagBit 24 true ||| (flagBit 25 true ||| flagBit 26 true)) : Word) =
      (0x0700#32 <<< 16) := by decide
  have heq : pkt0Word .bm id = (hdr .bm).setWidth 32 ||| (id.setWidth 32 <<< 8) ||| (0x0700#32 <<< 16) := by
    rw [← hconst]; simp only [pkt0Word, BitVec.or_assoc]
  have h1 := toNat_or_shiftLeft (x := (hdr .bm).setWidth 32) (y := id.setWidth 32) (k := 8)
    (by decide) (by rw [toNat_setWidth_byte]; omega)
  rw [toNat_setWidth_byte, toNat_setWidth_byte, show (hdr .bm).toNat = 0xDD from rfl] at h1
  rw [heq, toNat_or_shiftLeft (by rw [h1]; omega) (by decide), h1]
  rfl

/-- PKT1 of a packet as a number (R36). -/
theorem toNat_pkt1Word {n c : Nat} (hn : n ≤ 255) (hc : c < 16) : (pkt1Word n c).toNat = n + c * 2 ^ 16 := by
  have h1 : (BitVec.ofNat 32 n).toNat = n := by simp; omega
  have h2 : (BitVec.ofNat 32 c).toNat = c := by simp; omega
  have := toNat_or_shiftLeft (x := BitVec.ofNat 32 n) (y := BitVec.ofNat 32 c) (k := 16)
    (by rw [h1]; omega) (by rw [h2]; omega)
  rw [h1, h2] at this
  exact this

/-- CONFIG0 as a number (R37). -/
theorem toNat_config0Word {cfg : Config} (h : cfg.Legal) :
    (config0Word cfg).toNat = cfg.bufCap + cfg.encCap * 2 ^ 16 := by
  obtain ⟨-, -, -, -, hb, -, he, -, -⟩ := h
  have h1 : ((BitVec.ofNat 9 cfg.bufCap).setWidth 32 : Word).toNat = cfg.bufCap := by simp; omega
  have h2 : ((BitVec.ofNat 9 cfg.encCap).setWidth 32 : Word).toNat = cfg.encCap := by simp; omega
  unfold config0Word
  rw [toNat_or_shiftLeft (by rw [h1]; omega) (by rw [h2]; omega), h1, h2]

/-- CONFIG1 as a number (R38). -/
theorem toNat_config1Word {cfg : Config} (h : cfg.Legal) :
    (config1Word cfg).toNat = cfg.inCap + cfg.nch * 2 ^ 16 + (seedBit cfg.seed).toNat * 2 ^ 24 := by
  obtain ⟨-, hn, -, -, -, -, -, -, hi⟩ := h
  have h1 : ((BitVec.ofNat 11 cfg.inCap).setWidth 32 : Word).toNat = cfg.inCap := by simp; omega
  have h2 : ((BitVec.ofNat 5 cfg.nch).setWidth 32 : Word).toNat = cfg.nch := by simp; omega
  have h3 := toNat_or_shiftLeft (x := (BitVec.ofNat 11 cfg.inCap).setWidth 32)
    (y := (BitVec.ofNat 5 cfg.nch).setWidth 32) (k := 16) (by rw [h1]; omega) (by rw [h2]; omega)
  rw [h1, h2] at h3
  unfold config1Word
  rw [toNat_or_flagBit (by omega) (by rw [h3]; omega), h3]

/-- CH_STAT[c] as a number (R39). -/
theorem toNat_chStatWord {cfg : Config} {s : State} {c : Nat} (h : (s.channel c).cur < 2 ^ 9) :
    (chStatWord cfg s c).toNat =
      (s.channel c).cur + (s.channel c).cont.toNat * 2 ^ 9 + (profileBit (cfg.profile c)).toNat * 2 ^ 10 := by
  have h1 : ((BitVec.ofNat 9 (s.channel c).cur).setWidth 32 : Word).toNat = (s.channel c).cur := by simp; omega
  have hv : (s.channel c).cont.toNat ≤ 1 := by cases (s.channel c).cont <;> simp
  have h2 := toNat_or_flagBit (x := (BitVec.ofNat 9 (s.channel c).cur).setWidth 32) (k := 9) (by omega)
    (by rw [h1]; omega) (s.channel c).cont
  unfold chStatWord
  rw [toNat_or_flagBit (by omega) (by rw [h2, h1]; omega), h2, h1]

end Sys2Proof.Machine
end

