-- ==== Sys2Proof/Laws/PerInstr.lean ====
section
/-! SUPPORT. What holds of each command's word (30_encoding.md R81, R84, R98), one lemma per constructor of `Instr`. -/

namespace Sys2Proof.Laws.WordFields

/-- The word of `i` has RSV 0, an opcode of R83, and 0 in every field R84 says must be 0. -/
def Statement (i : Instr) : Prop :=
  fieldRsv (encode i) = 0#4 ∧ 0x01 ≤ (fieldOp (encode i)).toNat ∧ (fieldOp (encode i)).toNat ≤ 0x05 ∧
    (0x02 < (fieldOp (encode i)).toNat → fieldCh (encode i) = 0#4) ∧
    ((fieldOp (encode i)).toNat = 0x02 ∨ (fieldOp (encode i)).toNat = 0x05 → fieldLen (encode i) = 0#16)

theorem decode (ch : BitVec 4) (len : BitVec 16) : Statement (.decode ch len) := by
  simp [Statement, Instr.opcode]

theorem reset (ch : BitVec 4) : Statement (.reset ch) := by
  simp [Statement, Instr.opcode, Instr.lengthField]

theorem build (len : BitVec 16) : Statement (.build len) := by
  simp [Statement, Instr.opcode, Instr.channelField]

theorem ckCompute (len : BitVec 16) : Statement (.ckCompute len) := by
  simp [Statement, Instr.opcode, Instr.channelField]

theorem ckVerify : Statement .ckVerify := by
  simp [Statement, Instr.opcode, Instr.channelField, Instr.lengthField]

end Sys2Proof.Laws.WordFields
end

