-- ==== Sys2Proof/Tests/Slice0.lean ====
section
/-! SUPPORT. The model's own tests, their expected results taken from spec/95_test_vectors.md and the rules it cites;
and for every obligation with hypotheses a concrete state and operands that meet them. -/

namespace Sys2Proof.Tests

open Sys2Proof.Machine

/-! ## Operand checks (30_encoding.md R89): an ill-formed term for each, and the boundary that is well-formed -/

theorem test_wf_decode_channel : (Instr.decode 2#4 0#16).wellFormedIn Config.hw = false ∧
    (Instr.decode 1#4 0#16).wellFormedIn Config.hw = true := by decide
theorem test_wf_decode_length : (Instr.decode 0#4 513#16).wellFormedIn Config.hw = false ∧
    (Instr.decode 0#4 512#16).wellFormedIn Config.hw = true := by decide
theorem test_wf_reset_channel : (Instr.reset 2#4).wellFormedIn Config.hw = false ∧
    (Instr.reset 1#4).wellFormedIn Config.hw = true := by decide
theorem test_wf_build_length : (Instr.build 513#16).wellFormedIn Config.hw = false ∧
    (Instr.build 512#16).wellFormedIn Config.hw = true := by decide
theorem test_wf_ckCompute_length : (Instr.ckCompute 513#16).wellFormedIn Config.hw = false ∧
    (Instr.ckCompute 512#16).wellFormedIn Config.hw = true := by decide

/-- An ill-formed term reaching `exec` reports ILLEGAL_COMMAND and does nothing else (log 9). -/
theorem test_ill_formed_reports : exec (.reset 2#4) State.reset =
    .next { State.reset with result := 0x0000000A#32 } := rfl

/-! ## Decoding: words written out from the fields of R81 (LEN, RSV, CH, OP), vectors V-X1 to V-X17 -/

/-- LEN = 11, RSV = 0, CH = 1, OP = 0x01 (V-X2). -/
theorem test_decode_word_decode :
    decodeWord (0b0000000000001011#16 ++ 0b0000#4 ++ 0b0001#4 ++ 0b00000001#8) = .ok (.decode 1#4 11#16) := by decide
/-- CH = 1, OP = 0x02 (V-X3). -/
theorem test_decode_word_reset :
    decodeWord (0b0000000000000000#16 ++ 0b0000#4 ++ 0b0001#4 ++ 0b00000010#8) = .ok (.reset 1#4) := by decide
/-- LEN = 2, OP = 0x03 (V-X4). -/
theorem test_decode_word_build :
    decodeWord (0b0000000000000010#16 ++ 0b0000#4 ++ 0b0000#4 ++ 0b00000011#8) = .ok (.build 2#16) := by decide
/-- LEN = 257, OP = 0x04 (V-C7). -/
theorem test_decode_word_ckCompute :
    decodeWord (0b0000000100000001#16 ++ 0b0000#4 ++ 0b0000#4 ++ 0b00000100#8) = .ok (.ckCompute 257#16) := by decide
/-- OP = 0x05 (V-X6). -/
theorem test_decode_word_ckVerify :
    decodeWord (0b0000000000000000#16 ++ 0b0000#4 ++ 0b0000#4 ++ 0b00000101#8) = .ok .ckVerify := by decide
/-- LEN = IN_CAP is legal, IN_CAP + 1 is not (V-X7, V-X12). -/
theorem test_decode_word_length_bound : decodeWord 0x02000001#32 = .ok (.decode 0#4 512#16) ∧
    decodeWord 0x02010001#32 = .error .lengthOutOfRange := by decide
/-- Illegal words by name (V-X9 to V-X17). -/
theorem test_decode_word_illegal :
    decodeWord 0x00000000#32 = .error .illegalOpcode ∧ decodeWord 0x00000006#32 = .error .illegalOpcode ∧
    decodeWord 0x000000FF#32 = .error .illegalOpcode ∧ decodeWord 0x00001001#32 = .error .reservedBitsSet ∧
    decodeWord 0x00000201#32 = .error .channelOutOfRange ∧ decodeWord 0x00000103#32 = .error .channelNotZero ∧
    decodeWord 0x00010002#32 = .error .lengthNotZero ∧ decodeWord 0x00010005#32 = .error .lengthNotZero := by decide
/-- The numbering of spec/opcode_table.json is the word's own. -/
theorem test_decode_table_word : decodeTableWord 32 0x000B0101 = some (.decode 1#4 11#16) ∧
    decodeTableWord 32 0x00001001 = none ∧ decodeTableWord 8 0x05 = some .ckVerify := by decide
theorem test_encode_words : encode (.decode 1#4 11#16) = 0x000B0101#32 ∧ encode (.reset 1#4) = 0x00000102#32 ∧
    encode (.build 2#16) = 0x00020003#32 ∧ encode (.ckCompute 0#16) = 0x00000004#32 ∧
    encode .ckVerify = 0x00000005#32 := by decide

/-! ## Small states -/

/-- Reset, then `bs` written to IN[0..). -/
def loaded (bs : List Byte) : State := { State.reset with mem := Memory.writeBytes [] inBase bs }

/-- `s` with `bs` buffered on channel `c` and a continuation pending. -/
def holding (c : Nat) (bs : List Byte) (s : State) : State :=
  s.setChannel c { cells := bs ++ List.replicate (40 - bs.length) 0x00#8, cur := bs.length, cont := true }

/-- `s` with `e` to be served next. -/
def facing (e : HostEvent) (s : State) : State := { s with hostQueue := [e] }

/-- What `f` reads of a next state. -/
def seen {α : Type} (f : State → α) : Host.Outcome State Fault Refusal → Option α
  | .next t => some (f t)
  | .fault _ => none
  | .refused _ => none

/-! ## One command each -/

/-- V-D1. -/
theorem test_decode_packet :
    seen (fun t => (t.result, t.pkt0, t.pkt1, Memory.readBytes t.mem 0x100 3))
      (exec (.decode 0#4 9#16) (loaded [0xDD#8, 0x03#8, 0x00#8, 0x02#8, 0x10#8, 0x20#8, 0xFF#8, 0xCB#8, 0x77#8])) =
    some (0x00000001#32, 0x070003DD#32, 0x00000002#32, some [0x10#8, 0x20#8, 0x00#8]) := by decide
/-- V-B1 step 2: the chunk joins the buffered bytes and all of them are kept. -/
theorem test_decode_continuation :
    seen (fun t => (t.result, busRead Config.hw 0x010#11 t, (t.channel 0).contents))
      (exec (.decode 0#4 2#16) (holding 0 [0xDD#8, 0x03#8, 0x00#8] (loaded [0x02#8, 0x10#8]))) =
    some (0x00000002#32, 0x00000205#32, [0xDD#8, 0x03#8, 0x00#8, 0x02#8, 0x10#8]) := by decide
/-- V-B9 step 2. -/
theorem test_reset_clears :
    seen (fun t => (t.result, busRead Config.hw 0x010#11 t, busRead Config.hw 0x011#11 t))
      (exec (.reset 0#4) (holding 0 [0xDD#8, 0x03#8, 0x00#8, 0x02#8] State.reset)) =
    some (0x00000009#32, 0x00000000#32, 0x00000400#32) := by decide
/-- V-E3. -/
theorem test_build_frame :
    seen (fun t => (t.result, t.encLen, Memory.readBytes t.mem 0x200 10))
      (exec (.build 2#16) { loaded [0x12#8, 0x34#8] with arg := 0x0000105A#32 }) =
    some (0x00000009#32, 0x00000009#32,
      some [0xDD#8, 0x5A#8, 0x10#8, 0x02#8, 0x12#8, 0x34#8, 0xFF#8, 0xA8#8, 0x77#8, 0x00#8]) := by decide
/-- V-E5. -/
theorem test_build_too_large :
    seen (fun t => (t.result, t.encLen, Memory.readBytes t.mem 0x200 1))
      (exec (.build 24#16) { loaded (List.replicate 24 0x00#8) with encLen := 0x0000001E#32 }) =
    some (0x00000008#32, 0x00000000#32, some [0x00#8]) := by decide
/-- V-C4: the length byte need not be the payload's length. -/
theorem test_ckCompute_value :
    seen (fun t => (t.result, t.ck))
      (exec (.ckCompute 2#16) { loaded [0x10#8, 0x20#8] with arg := 0x00000305#32 }) =
    some (0x00000009#32, 0x0000FFC8#32) := by decide
/-- V-C9 and V-C13. -/
theorem test_ckVerify_equal :
    seen State.result (exec .ckVerify { State.reset with arg := 0xFDFFFDFF#32 }) = some 0x00010009#32 := by decide
theorem test_ckVerify_position :
    seen State.result (exec .ckVerify { State.reset with arg := 0xFDFFFFFD#32 }) = some 0x00000009#32 := by decide

/-! ## One access each -/

/-- V-R10. -/
theorem test_write_in_cell :
    seen (fun t => busRead Config.hw 0x400#11 t) (step (facing (.write 0x400#11 0xABCDEF12#32) State.reset)) =
    some 0x00000012#32 := by decide
/-- V-R5: a read answers in the model's own field (log 2). -/
theorem test_read_config1 :
    seen State.readData (step (facing (.read 0x008#11) State.reset)) = some (some 0x00020200#32) := by decide
/-- V-D22: the block stops on an unwritten cell. -/
theorem test_unwritten_input :
    step (facing (.write 0x000#11 0x00040001#32) State.reset) = .fault .unwrittenInput := rfl
/-- `withFetchWord` makes the very next step run the word, first after reset. -/
theorem test_withFetchWord :
    seen State.result (step (State.reset.withFetchWord 32 0x00000102)) = some 0x00000009#32 := by decide
/-- The host statements of R99: VERIFY and the last access of FEED (V-C10, V-X2). -/
theorem test_host_statements :
    hostVerify 0xFF#8 0xFD#8 0xFF#8 0xFC#8 = [.write 0x001#11 0xFCFFFDFF#32, .write 0x000#11 0x00000005#32] ∧
    hostFeed Config.hw 1#4 [0xAA#8] = some [.write 0x400#11 0x000000AA#32, .write 0x000#11 0x00010101#32] := by decide

/-! ## States that meet hypotheses -/

theorem sampleIn_loaded (bs : List Byte) : (loaded bs).sampleIn bs.length = some bs :=
  readBytes_eq_some.mpr ⟨rfl, fun _ hj => read_writeBytes_inside _ _ _ _ hj⟩

theorem sampleIn_loaded_of {bs : List Byte} {n : Nat} (h : bs.length = n) : (loaded bs).sampleIn n = some bs :=
  h ▸ sampleIn_loaded bs

theorem sampleIn_holding (c : Nat) (bs chunk : List Byte) :
    (holding c bs (loaded chunk)).sampleIn chunk.length = some chunk := sampleIn_loaded chunk

theorem length_responseFrame (seed : SeedKind) (id : Byte) (p : List Byte) :
    (responseFrame seed id p).length = 7 + p.length := by
  simp [responseFrame, bmTrailer]
  omega

theorem sameOutputs_loaded (a b : List Byte) : SameDecodeOutputs (loaded a) (loaded b) := by
  refine ⟨rfl, rfl, rfl, fun x _ h => ?_⟩
  have hx : x < inBase := Nat.lt_trans h (by decide)
  exact (read_writeBytes_outside _ _ _ _ (.inl hx)).trans (read_writeBytes_outside _ _ _ _ (.inl hx)).symm

theorem reset_channels_ok : State.reset.ChannelsOk Config.hw := by
  refine ⟨rfl, fun c hc => ?_⟩
  have hc : c < 2 := hc
  interval_cases c <;> exact ⟨rfl, by decide, by decide, by decide⟩

theorem loaded_channels_ok (bs : List Byte) : (loaded bs).ChannelsOk Config.hw := reset_channels_ok

theorem reset_inv : State.reset.Inv Config.hw :=
  ⟨reset_channels_ok, ⟨⟨List.Pairwise.nil, fun _ h => nomatch h⟩, fun _ h => nomatch h⟩,
    by unfold State.ResultOk; decide, by unfold State.OutputsOk; decide, by unfold State.PacketOk; decide⟩

/-- Four bytes of a BM frame buffered on channel 0. -/
def pendingBm : List Byte := [0xDD#8, 0x03#8, 0x00#8, 0x02#8]

theorem pending_channels_ok : (holding 0 pendingBm State.reset).ChannelsOk Config.hw := by
  refine ⟨rfl, fun c hc => ?_⟩
  have hc : c < 2 := hc
  interval_cases c <;> exact ⟨rfl, by decide, by decide, by decide⟩

theorem pending_loaded_channels_ok (bs : List Byte) : (holding 0 pendingBm (loaded bs)).ChannelsOk Config.hw :=
  pending_channels_ok

/-- The frame of V-D1. -/
def frameD1 : List Byte := [0xDD#8, 0x03#8, 0x00#8, 0x02#8, 0x10#8, 0x20#8, 0xFF#8, 0xCB#8, 0x77#8]

/-- The frame of V-D14. -/
def frameD14 : List Byte :=
  [0xAA#8, 0x01#8, 0x02#8, 0x03#8, 0x04#8, 0x05#8, 0x06#8, 0x07#8, 0x08#8, 0x09#8, 0x85#8]

/-- F41 of 95_test_vectors.md: id 03, payload 01 to 22. -/
def payload41 : List Byte := (List.range 34).map fun k => BitVec.ofNat 8 (k + 1)

theorem frameD1_isFrame : IsFrame .idLen .bm frameD1 := ⟨0x03#8, [0x10#8, 0x20#8], by decide, by decide⟩
theorem frameD14_isFrame : IsFrame .idLen .mc frameD14 :=
  ⟨[0x01#8, 0x02#8, 0x03#8, 0x04#8, 0x05#8, 0x06#8, 0x07#8, 0x08#8, 0x09#8], by decide, by decide⟩

/-- F41 split after one byte and before the last, its bytes the spec's. -/
theorem frame41_isFrame :
    IsFrame .idLen .bm ([0xDD#8, 0x03#8, 0x00#8, 0x22#8] ++ payload41 ++ [0xFD#8, 0x88#8, 0x77#8]) :=
  ⟨0x03#8, payload41, by decide, by decide⟩

/-! ## Every obligation's hypotheses are met, at the boundaries of its clauses -/

theorem witness_EncodedCommandDecodesBack :
    (Instr.decode 1#4 512#16).wellFormedIn Config.hw = true ∧
    (Instr.decode 15#4 1024#16).wellFormedIn
      { nch := 16, profiles := [], bufCap := 1, encCap := 7, inCap := 1024, seed := .lenOnly } = true := by decide

theorem witness_DecodedWordEncodesBack :
    decodeWordIn Config.hw 0x02000101#32 = .ok (.decode 1#4 512#16) ∧
    decodeWordIn Config.hw 0x00000005#32 = .ok .ckVerify := by decide

theorem witness_LegalWordsRun :
    (facing (.write 0x000#11 0x02000001#32) State.reset).hostQueue = [.write 0x000#11 0x02000001#32] ∧
    LegalWord Config.hw 0x02000001#32 ∧ LegalWord Config.hw 0x00000102#32 ∧ LegalWord Config.hw 0x02000003#32 ∧
    LegalWord Config.hw 0x02000004#32 ∧ LegalWord Config.hw 0x00000005#32 := by
  unfold LegalWord; decide

theorem witness_IllegalWordsReport :
    (facing (.write 0x000#11 0x02010001#32) State.reset).hostQueue = [.write 0x000#11 0x02010001#32] ∧
    ¬ LegalWord Config.hw 0x02010001#32 ∧ ¬ LegalWord Config.hw 0x00000201#32 ∧ ¬ LegalWord Config.hw 0x00001001#32 ∧
    ¬ LegalWord Config.hw 0x00000000#32 ∧ ¬ LegalWord Config.hw 0x00000006#32 ∧
    ¬ LegalWord Config.hw 0x00000105#32 := by
  unfold LegalWord; decide

theorem witness_StepRunsTheDecodedCommand :
    (facing (.write 0x000#11 0x00000102#32) State.reset).hostQueue = [.write 0x000#11 0x00000102#32] ∧
    decodeWord 0x00000102#32 = .ok (.reset 1#4) ∧
    0x02000101 < 2 ^ 32 ∧ decodeWord (BitVec.ofNat 32 0x02000101) = .ok (.decode 1#4 512#16) := by decide

theorem witness_ReservedIndices :
    (∀ a ∈ [0x009#11, 0x00F#11, 0x012#11, 0x0FF#11, 0x21E#11, 0x3FF#11, 0x600#11, 0x7FF#11],
      ReservedIndex Config.hw a ∧ ¬ ReadOnlyIndex Config.hw a ∧ regAt Config.hw a = none) ∧
    (facing (.read 0x7FF#11) State.reset).hostQueue = [.read 0x7FF#11] ∧
    (facing (.write 0x009#11 0xFFFFFFFF#32) State.reset).hostQueue = [.write 0x009#11 0xFFFFFFFF#32] := by
  refine ⟨fun a h => ?_, rfl, rfl⟩
  simp only [List.mem_cons, List.not_mem_nil, or_false] at h
  unfold ReservedIndex ReadOnlyIndex
  rcases h with rfl | rfl | rfl | rfl | rfl | rfl | rfl | rfl <;> decide

theorem witness_ReadOnlyIndices :
    (∀ a ∈ [0x002#11, 0x008#11, 0x010#11, 0x011#11, 0x100#11, 0x1FF#11, 0x200#11, 0x21D#11],
      ReadOnlyIndex Config.hw a ∧ ¬ ReservedIndex Config.hw a) ∧
    (facing (.write 0x21D#11 0xFFFFFFFF#32) State.reset).hostQueue = [.write 0x21D#11 0xFFFFFFFF#32] := by
  refine ⟨fun a h => ?_, rfl⟩
  simp only [List.mem_cons, List.not_mem_nil, or_false] at h
  unfold ReservedIndex ReadOnlyIndex
  rcases h with rfl | rfl | rfl | rfl | rfl | rfl | rfl | rfl <;> decide

theorem witness_UnnamedBits :
    (facing (.read 0x000#11) State.reset).hostQueue = [.read 0x000#11] ∧ State.reset.Inv Config.hw ∧
    regAt Config.hw 0x5FF#11 = some (.inCell 511) ∧ regAt Config.hw 0x011#11 = some (.chStat 1) ∧
    HostReg.inCell 511 ≠ .cmd ∧ (facing (.read 0x5FF#11) State.reset).hostQueue = [.read 0x5FF#11] :=
  ⟨rfl, reset_inv, by decide, by decide, by decide, rfl⟩

/-- Between two reads of IN[0]: a read, writes to the last IN cell, to ARG, to a read-only and to a reserved index. -/
theorem witness_ReadsRepeat :
    (∀ e ∈ [HostEvent.read 0x002#11, .write 0x5FF#11 0x12#32, .write 0x001#11 0x34#32, .write 0x002#11 0x56#32,
      .write 0x7FF#11 0x78#32], LeavesIndex Config.hw 0x400#11 e) ∧
    LeavesIndex Config.hw 0x002#11 (.write 0x002#11 0x56#32) ∧ LeavesIndex Config.hw 0x7FF#11 (.write 0x7FF#11 0x78#32) ∧
    (facing (.read 0x400#11) State.reset).hostQueue = .read 0x400#11 :: [] ∧
    ({ State.reset with hostQueue := [.read 0x400#11, .write 0x5FF#11 0x12#32, .read 0x400#11] } : State).hostQueue =
      .read 0x400#11 :: ([.write 0x5FF#11 0x12#32] ++ .read 0x400#11 :: []) := by
  refine ⟨fun e h => ?_, ?_, ?_, rfl, rfl⟩
  · simp only [List.mem_cons, List.not_mem_nil, or_false] at h
    rcases h with rfl | rfl | rfl | rfl | rfl
    · trivial
    all_goals exact ⟨by decide, fun h => absurd h (by decide)⟩
  · exact ⟨by decide, fun _ => .inl (by unfold ReadOnlyIndex; decide)⟩
  · exact ⟨by decide, fun _ => .inr (by unfold ReservedIndex; decide)⟩

theorem witness_HostWritesReachArgAndIn :
    (facing (.write 0x001#11 0xFFFFFFFF#32) State.reset).hostQueue = [.write 0x001#11 0xFFFFFFFF#32] ∧
    (facing (.write 0x400#11 0xABCDEF12#32) State.reset).hostQueue =
      [.write (BitVec.ofNat 11 (0x400 + 0)) 0xABCDEF12#32] ∧
    (facing (.write 0x5FF#11 0xABCDEF12#32) State.reset).hostQueue =
      [.write (BitVec.ofNat 11 (0x400 + 511)) 0xABCDEF12#32] := ⟨rfl, rfl, rfl⟩

theorem witness_UnwrittenCellReadsAsSomeByte :
    Memory.read State.reset.mem (0x400 + 0) = none ∧ Memory.read State.reset.mem (0x400 + 511) = none ∧
    (facing (.read 0x5FF#11) State.reset).hostQueue = [.read (BitVec.ofNat 11 (0x400 + 511))] := ⟨rfl, rfl, rfl⟩

/-- The largest legal parameters (00_scope.md R6). -/
def largest : Config :=
  { nch := 16, profiles := List.replicate 16 .mc, bufCap := 511, encCap := 262, inCap := 1024, seed := .lenOnly }

theorem witness_ConfigRegisters : Config.hw.Legal ∧ largest.Legal := by decide

theorem witness_ChannelStatus : Config.hw.Legal ∧ 1 < Config.hw.nch ∧
    (((State.reset.setChannel 1 { cells := List.replicate 40 0xAA#8, cur := 40, cont := true }).channel 1).cur ≤
      Config.hw.bufCap) ∧ largest.Legal ∧ 15 < largest.nch ∧ (State.reset.channel 15).cur ≤ largest.bufCap := by decide

theorem witness_PowerOnReset :
    (facing .powerOnReset (holding 0 pendingBm State.reset)).hostQueue = [.powerOnReset] := rfl

theorem witness_ResetMeetsTheInvariant : Config.hw.Legal ∧ largest.Legal := by decide

theorem witness_EveryStepKeepsTheInvariant :
    (facing (.write 0x000#11 0x00000005#32) State.reset).Inv Config.hw ∧
    ∃ t, step (facing (.write 0x000#11 0x00000005#32) State.reset) = .next t ∧ t.verifyOk = true :=
  ⟨⟨reset_inv.1, reset_inv.2, reset_inv.3, reset_inv.4, reset_inv.5⟩, _, rfl, by decide⟩

/-- Both profiles with a continuation after two events, and none without one. -/
theorem witness_ReachableBuffers :
    (∃ t, Host.Core.run core 2
        { State.reset with hostQueue := [.write 0x400#11 0xDD#32, .write 0x000#11 0x00010001#32] } = .next t ∧
      (t.channel 0).cont = true ∧ (t.channel 1).cont = false) ∧
    ∃ t, Host.Core.run core 2
        { State.reset with hostQueue := [.write 0x400#11 0xAA#32, .write 0x000#11 0x00010101#32] } = .next t ∧
      (t.channel 1).cont = true := ⟨⟨_, rfl, by decide, by decide⟩, _, rfl, by decide⟩

theorem witness_CommandsKeepToTheirChannel :
    namedChannel (.decode 0#4 9#16) ≠ some 1 ∧ (∃ t, exec (.decode 0#4 9#16) (loaded frameD1) = .next t) ∧
    namedChannel (.reset 1#4) ≠ some 0 ∧ (∃ t, exec (.reset 1#4) State.reset = .next t) ∧
    namedChannel (.build 1#16) ≠ some 0 ∧ exec (.build 1#16) State.reset = .fault .unwrittenInput :=
  ⟨by decide, ⟨_, rfl⟩, by decide, ⟨_, rfl⟩, by decide, rfl⟩

/-- Reset with other bytes in channel 0's cells, all of them above the cursor. -/
def otherCells : State := State.reset.setChannel 0 { cells := List.replicate 40 0xFF#8, cur := 0, cont := false }

theorem witness_CellsAboveTheCursor :
    State.reset.Inv Config.hw ∧ otherCells.Inv Config.hw ∧ State.reset.Alike otherCells ∧
    otherCells.channel 0 ≠ State.reset.channel 0 ∧ ∃ t, step State.reset = .next t := by
  refine ⟨reset_inv, ⟨⟨rfl, fun c hc => ?_⟩, reset_inv.2, reset_inv.3, reset_inv.4, reset_inv.5⟩,
    ⟨⟨rfl, rfl, rfl, rfl, rfl, rfl, rfl, rfl, rfl, rfl⟩, rfl, fun c => ?_⟩, by decide, _, rfl⟩
  · have hc : c < 2 := hc
    interval_cases c <;> exact ⟨rfl, by decide, by decide, by decide⟩
  · match c with
    | 0 => exact ⟨rfl, rfl, rfl, rfl⟩
    | 1 => exact ⟨rfl, rfl, rfl, rfl⟩
    | _ + 2 => exact ⟨rfl, rfl, rfl, rfl⟩

theorem witness_CommandsComplete : (Instr.decode 1#4 512#16).WellFormed ∧ (Instr.reset 1#4).WellFormed ∧
    (Instr.build 512#16).WellFormed ∧ (Instr.ckCompute 512#16).WellFormed ∧ Instr.ckVerify.WellFormed := by decide

/-- A channel changed by RESET, by DECODE and by power-on reset. -/
theorem witness_ChannelsChange :
    (∃ t, step (facing (.write 0x000#11 0x00000002#32) (holding 0 pendingBm State.reset)) = .next t ∧
      (t.channel 0).cur ≠ 4) ∧
    (∃ t, step (facing (.write 0x000#11 0x00010001#32) (loaded [0xDD#8])) = .next t ∧ (t.channel 0).cur ≠ 0) ∧
    (∃ t, step (facing .powerOnReset (holding 0 pendingBm State.reset)) = .next t ∧ (t.channel 0).cur ≠ 4) ∧
    ((holding 0 pendingBm State.reset).channel 0).cur = 4 :=
  ⟨⟨_, rfl, by decide⟩, ⟨_, rfl, by decide⟩, ⟨_, rfl, by decide⟩, rfl⟩

/-- Each register changed by its writer. -/
theorem witness_EachRegisterHasOneWriter :
    (∃ t, step (facing (.write 0x001#11 0x1#32) State.reset) = .next t ∧ t.arg ≠ State.reset.arg) ∧
    (∃ t, step (facing (.write 0x000#11 0x00010004#32) (loaded [0x01#8])) = .next t ∧ t.ck ≠ State.reset.ck) ∧
    (∃ t, step (facing (.write 0x000#11 0x00010003#32) (loaded [0x01#8])) = .next t ∧
      t.encLen ≠ State.reset.encLen) ∧
    (∃ t, step (facing (.write 0x000#11 0x00090001#32) (loaded frameD1)) = .next t ∧ t.pkt0 ≠ State.reset.pkt0 ∧
      t.pkt1 ≠ State.reset.pkt1 ∧ t.result ≠ State.reset.result) ∧
    ∀ e rest, e ≠ .powerOnReset → (facing e State.reset).hostQueue ≠ .powerOnReset :: rest :=
  ⟨⟨_, rfl, by decide⟩, ⟨_, rfl, by decide⟩, ⟨_, rfl, by decide⟩, ⟨_, rfl, by decide, by decide, by decide⟩,
    fun e rest h hq => h (List.cons.inj hq).1⟩

theorem witness_EveryCommandWritesTheWholeResult :
    (∃ t, exec .ckVerify State.reset = .next t) ∧ Instr.reset 0#4 ≠ .ckVerify ∧
    (∃ t, exec (.reset 0#4) State.reset = .next t) ∧
    (loaded [0xDD#8, 0x03#8, 0x80#8]).ChannelsOk Config.hw ∧
    ∃ t, exec (.decode 0#4 3#16) (loaded [0xDD#8, 0x03#8, 0x80#8]) = .next t ∧ t.resultStatus ≠ 0x00#8 ∧
      t.resultCode = 0x05#8 :=
  ⟨⟨_, rfl⟩, by decide, ⟨_, rfl⟩, loaded_channels_ok _, _, rfl, by decide, by decide⟩

theorem witness_CommandsNeverWriteArgOrIn :
    (∃ t, exec (.build 1#16) (loaded [0x01#8]) = .next t) ∧ (∃ ch len, Instr.decode 0#4 9#16 = .decode ch len) ∧
    (∃ t, exec (.decode 0#4 9#16) (loaded frameD1) = .next t) ∧ ∃ ch, Instr.reset 1#4 = .reset ch :=
  ⟨⟨_, rfl⟩, ⟨_, _, rfl⟩, ⟨_, rfl⟩, _, rfl⟩

theorem witness_EmptyChunk : (1#4 : BitVec 4).toNat < 2 ∧
    ((holding 0 pendingBm State.reset).channel 0).cont = true := by decide

theorem witness_DecodeResults :
    (1#4 : BitVec 4).toNat < 2 ∧ (512#16 : BitVec 16).toNat ≤ 512 ∧
    (loaded (List.replicate 512 0x00#8)).sampleIn (512#16 : BitVec 16).toNat = some (List.replicate 512 0x00#8) ∧
    State.reset.sampleIn (0#16 : BitVec 16).toNat = some [] :=
  ⟨by decide, by decide, sampleIn_loaded_of List.length_replicate, rfl⟩

theorem witness_DecodeFrame :
    (∃ t, exec (.decode 0#4 9#16) (loaded frameD1) = .next t ∧ t.resultCode = 0x01#8) ∧
    ∃ t, exec (.decode 0#4 4#16) (loaded pendingBm) = .next t ∧ t.resultCode ≠ 0x01#8 :=
  ⟨⟨_, rfl, by decide⟩, _, rfl, by decide⟩

theorem witness_DecodeResultDecidesTheChannel :
    (loaded frameD1).ChannelsOk Config.hw ∧ (0#4 : BitVec 4).toNat < 2 ∧
    (∃ t, exec (.decode 0#4 0#16) (loaded frameD1) = .next t ∧ t.resultCode = 0x06#8) ∧
    (∃ t, exec (.decode 0#4 8#16) (loaded frameD1) = .next t ∧ t.resultCode = 0x02#8) ∧
    ∃ t, exec (.decode 0#4 9#16) (loaded frameD1) = .next t ∧ t.resultCode ≠ 0x06#8 ∧ t.resultCode ≠ 0x02#8 :=
  ⟨loaded_channels_ok _, by decide, ⟨_, rfl, by decide⟩, ⟨_, rfl, by decide⟩, _, rfl, by decide, by decide⟩

/-- No payload, noise and trailing bytes; and the largest payload. -/
theorem witness_ResponseFrame :
    0xDD#8 ∉ [0x55#8, 0xAA#8] ∧ (State.reset.channel 0).cont = false ∧
    (loaded ([0x55#8, 0xAA#8] ++ responseFrame .idLen 0x03#8 [] ++ [0xDD#8])).sampleIn (10#16 : BitVec 16).toNat =
      some ([0x55#8, 0xAA#8] ++ responseFrame .idLen 0x03#8 [] ++ [0xDD#8]) ∧
    (List.replicate 255 0xFF#8).length ≤ 255 ∧
    (loaded ([] ++ responseFrame .idLen 0xFF#8 (List.replicate 255 0xFF#8) ++ [])).sampleIn
      (262#16 : BitVec 16).toNat = some ([] ++ responseFrame .idLen 0xFF#8 (List.replicate 255 0xFF#8) ++ []) :=
  ⟨by decide, rfl, rfl, Nat.le_of_eq List.length_replicate, sampleIn_loaded_of (by
    rw [List.nil_append, List.append_nil, length_responseFrame, List.length_replicate]; rfl)⟩

theorem witness_McFrame :
    (List.replicate 9 0xAA#8).length = 9 ∧ 0xAA#8 ∉ [0xDD#8] ∧ (State.reset.channel 1).cont = false ∧
    (∀ x ∈ [0x85#8, 0x86#8], (loaded ([0xDD#8] ++ ([0xAA#8] ++ List.replicate 9 0xAA#8 ++ [x]) ++ [0x00#8])).sampleIn
      (13#16 : BitVec 16).toNat = some ([0xDD#8] ++ ([0xAA#8] ++ List.replicate 9 0xAA#8 ++ [x]) ++ [0x00#8])) :=
  ⟨by decide, by decide, rfl, fun _ _ => sampleIn_loaded _⟩

/-- V-D7 (a mismatch and a wrong suffix) and V-D6 (a wrong suffix alone). -/
theorem witness_ChecksumErrorBeatsTheSuffix :
    [0x10#8, 0x20#8].length ≤ 255 ∧ 0xDD#8 ∉ ([] : List Byte) ∧ (State.reset.channel 0).cont = false ∧
    (∀ c2 ∈ [0xCC#8, 0xCB#8], (loaded ([] ++ ([0xDD#8, 0x03#8, 0x00#8, 0x02#8] ++ [0x10#8, 0x20#8] ++
      [0xFF#8, c2, 0x78#8]) ++ [])).sampleIn (9#16 : BitVec 16).toNat =
      some ([] ++ ([0xDD#8, 0x03#8, 0x00#8, BitVec.ofNat 8 2] ++ [0x10#8, 0x20#8] ++ [0xFF#8, c2, 0x78#8]) ++ [])) ∧
    0xFF * 2 ^ 8 + 0xCC ≠ (2 ^ 16 - (0x03 + 2 + sum8 [0x10#8, 0x20#8]) % 2 ^ 16) % 2 ^ 16 ∧
    0xFF * 2 ^ 8 + 0xCB = (2 ^ 16 - (0x03 + 2 + sum8 [0x10#8, 0x20#8]) % 2 ^ 16) % 2 ^ 16 ∧ 0x78#8 ≠ 0x77#8 :=
  ⟨by decide, by decide, rfl, fun _ _ => sampleIn_loaded _, by decide, by decide, by decide⟩

/-- V-D8 behind noise. -/
theorem witness_NonzeroStatus :
    0x80#8 ≠ 0x00#8 ∧ 0xDD#8 ∉ [0x11#8] ∧ (State.reset.channel 0).cont = false ∧
    (loaded ([0x11#8] ++ [0xDD#8, 0x03#8, 0x80#8] ++ [])).sampleIn (4#16 : BitVec 16).toNat =
      some ([0x11#8] ++ [0xDD#8, 0x03#8, 0x80#8] ++ []) := ⟨by decide, by decide, rfl, sampleIn_loaded _⟩

/-- V-D9, and a full window of noise on channel 1. -/
theorem witness_ChunkWithoutHeader :
    hdr (Config.hw.profile 0) ∉ [0x11#8, 0x22#8, 0x33#8] ∧ (State.reset.channel 0).cont = false ∧
    (loaded [0x11#8, 0x22#8, 0x33#8]).sampleIn (3#16 : BitVec 16).toNat = some [0x11#8, 0x22#8, 0x33#8] ∧
    hdr (Config.hw.profile 1) ∉ [0xDD#8] ∧ (State.reset.channel 1).cont = false ∧
    (loaded [0xDD#8]).sampleIn (1#16 : BitVec 16).toNat = some [0xDD#8] :=
  ⟨by decide, rfl, rfl, by decide, rfl, rfl⟩

/-- All but the last byte of F41 just fits; one of a longer frame does not; V-D13, a mismatch before the suffix, is
kept; and all but the last byte on channel 1. -/
theorem witness_IncompleteFrame :
    (loaded []).ChannelsOk Config.hw ∧
    ShapedAsFrame (Config.hw.profile 0)
      (([0xDD#8, 0x03#8, 0x00#8, 0x22#8] ++ payload41 ++ [0xFD#8, 0x88#8]) ++ [0x77#8]) ∧
    ([0xDD#8, 0x03#8, 0x00#8, 0x22#8] ++ payload41 ++ [0xFD#8, 0x88#8]).length = 40 ∧
    (loaded ([0x55#8] ++ ([0xDD#8, 0x03#8, 0x00#8, 0x22#8] ++ payload41 ++ [0xFD#8, 0x88#8]))).sampleIn
      (41#16 : BitVec 16).toNat =
      some ([0x55#8] ++ ([0xDD#8, 0x03#8, 0x00#8, 0x22#8] ++ payload41 ++ [0xFD#8, 0x88#8])) ∧
    hdr (Config.hw.profile 0) ∉ [0x55#8] ∧
    ShapedAsFrame (Config.hw.profile 0)
      (([0xDD#8, 0x00#8, 0x00#8, 0xFF#8] ++ List.replicate 37 0x00#8) ++
        (List.replicate 218 0x00#8 ++ [0x00#8, 0x00#8, 0x77#8])) ∧
    ([0xDD#8, 0x00#8, 0x00#8, 0xFF#8] ++ List.replicate 37 0x00#8).length = 41 ∧
    ShapedAsFrame (Config.hw.profile 0)
      ([0xDD#8, 0x03#8, 0x00#8, 0x02#8, 0x10#8, 0x20#8, 0xFF#8, 0xCC#8] ++ [0x77#8]) ∧
    (loaded [0xDD#8, 0x03#8, 0x00#8, 0x02#8, 0x10#8, 0x20#8, 0xFF#8, 0xCC#8]).sampleIn (8#16 : BitVec 16).toNat =
      some ([] ++ [0xDD#8, 0x03#8, 0x00#8, 0x02#8, 0x10#8, 0x20#8, 0xFF#8, 0xCC#8]) ∧
    ShapedAsFrame (Config.hw.profile 1) (([0xAA#8] ++ List.replicate 9 0x01#8) ++ [0x00#8]) := by
  refine ⟨loaded_channels_ok _, ⟨0x03#8, 0xFD#8, 0x88#8, 0x77#8, payload41, by decide, by decide⟩, by decide,
    sampleIn_loaded _, by decide, ⟨0x00#8, 0x00#8, 0x00#8, 0x77#8, List.replicate 255 0x00#8,
      Nat.le_of_eq List.length_replicate, ?_⟩, by decide,
    ⟨0x03#8, 0xFF#8, 0xCC#8, 0x77#8, [0x10#8, 0x20#8], by decide, by decide⟩, sampleIn_loaded _,
    ⟨0x00#8, List.replicate 9 0x01#8, by decide, by decide⟩⟩
  have h : (List.replicate 255 0x00#8 : List Byte) = List.replicate 37 0x00#8 ++ List.replicate 218 0x00#8 :=
    (List.replicate_append_replicate (n := 37) (m := 218)).symm
  rw [List.length_replicate, h, List.append_assoc, List.append_assoc, List.append_assoc]
  rfl

/-- V-B1 step 3 with a channel of four bytes, and a chunk that fills the buffer. -/
theorem witness_Continuation :
    (holding 0 pendingBm (loaded (List.replicate 36 0x00#8))).ChannelsOk Config.hw ∧
    ((holding 0 pendingBm (loaded (List.replicate 36 0x00#8))).channel 0).cont = true ∧
    (holding 0 pendingBm (loaded (List.replicate 36 0x00#8))).sampleIn (36#16 : BitVec 16).toNat =
      some (List.replicate 36 0x00#8) ∧
    ((holding 0 pendingBm (loaded (List.replicate 36 0x00#8))).channel 0).cur + 36 ≤ 40 ∧
    (loaded (pendingBm ++ List.replicate 36 0x00#8)).ChannelsOk Config.hw ∧
    ((loaded (pendingBm ++ List.replicate 36 0x00#8)).channel 0).cont = false ∧
    (loaded (pendingBm ++ List.replicate 36 0x00#8)).sampleIn (40#16 : BitVec 16).toNat =
      some (((holding 0 pendingBm (loaded (List.replicate 36 0x00#8))).channel 0).contents ++
        List.replicate 36 0x00#8) ∧
    SameDecodeOutputs (holding 0 pendingBm (loaded (List.replicate 36 0x00#8)))
      (loaded (pendingBm ++ List.replicate 36 0x00#8)) :=
  ⟨pending_loaded_channels_ok _, rfl, sampleIn_loaded (List.replicate 36 0x00#8), by decide, loaded_channels_ok _, rfl,
    sampleIn_loaded (pendingBm ++ List.replicate 36 0x00#8), sameOutputs_loaded _ _⟩

/-- V-B2 step 2: one byte too many. -/
theorem witness_ContinuationOverflow :
    ((holding 0 pendingBm (loaded (List.replicate 37 0x00#8))).channel 0).cont = true ∧
    (holding 0 pendingBm (loaded (List.replicate 37 0x00#8))).sampleIn (37#16 : BitVec 16).toNat =
      some (List.replicate 37 0x00#8) ∧
    40 < ((holding 0 pendingBm (loaded (List.replicate 37 0x00#8))).channel 0).cur + (37#16 : BitVec 16).toNat :=
  ⟨rfl, sampleIn_loaded (List.replicate 37 0x00#8), by decide⟩

theorem witness_OverflowClears :
    (∃ t, exec (.decode 0#4 37#16) (holding 0 pendingBm (loaded (List.replicate 37 0x00#8))) = .next t ∧
      t.resultCode = 0x07#8 ∧ t.sampleIn (1#16 : BitVec 16).toNat = some [0x00#8]) := ⟨_, rfl, by decide, by decide⟩

/-- V-D10 and V-D1. -/
theorem witness_Noise :
    hdr (Config.hw.profile 0) ∉ [0x55#8, 0xAA#8, 0x11#8] ∧ (State.reset.channel 0).cont = false ∧
    (loaded ([0x55#8, 0xAA#8, 0x11#8] ++ frameD1)).channels = (loaded frameD1).channels ∧
    SameDecodeOutputs (loaded ([0x55#8, 0xAA#8, 0x11#8] ++ frameD1)) (loaded frameD1) ∧
    (loaded ([0x55#8, 0xAA#8, 0x11#8] ++ frameD1)).sampleIn (12#16 : BitVec 16).toNat =
      some ([0x55#8, 0xAA#8, 0x11#8] ++ frameD1) ∧
    (loaded frameD1).sampleIn (9#16 : BitVec 16).toNat = some frameD1 :=
  ⟨by decide, rfl, rfl, sameOutputs_loaded _ _, rfl, rfl⟩

/-- The frame of V-D14 on channel 1, split after its header: both calls and the single chunk. -/
theorem witness_Fragmented :
    (loaded [0xAA#8]).ChannelsOk Config.hw ∧ IsFrame .idLen (Config.hw.profile 1) frameD14 ∧ frameD14.length ≤ 40 ∧
    frameD14 = [0xAA#8] ++ frameD14.drop 1 ∧ frameD14.drop 1 ≠ [] ∧ ((loaded [0xAA#8]).channel 1).cont = false ∧
    (loaded [0xAA#8]).sampleIn (1#16 : BitVec 16).toNat = some [0xAA#8] ∧
    (∃ t, exec (.decode 1#4 1#16) (loaded [0xAA#8]) = .next t ∧
      ({ t with mem := (loaded (frameD14.drop 1)).mem }).sampleIn (10#16 : BitVec 16).toNat = some (frameD14.drop 1)) ∧
    SameDecodeOutputs (loaded [0xAA#8]) (loaded frameD14) ∧
    (∃ w, exec (.decode 1#4 11#16) (loaded frameD14) = .next w) :=
  ⟨loaded_channels_ok _, frameD14_isFrame, by decide, by decide, by decide, rfl, rfl, ⟨_, rfl, by decide⟩,
    sameOutputs_loaded _ _, _, rfl⟩

/-- F41 split after one byte and before the last (V-B5); and a frame whose first part is too long already. -/
theorem witness_LongFrame :
    (loaded []).ChannelsOk Config.hw ∧
    IsFrame .idLen (Config.hw.profile 0)
      ([0xDD#8, 0x03#8, 0x00#8, 0x22#8] ++ payload41 ++ [0xFD#8, 0x88#8, 0x77#8]) ∧
    40 < ([0xDD#8, 0x03#8, 0x00#8, 0x22#8] ++ payload41 ++ [0xFD#8, 0x88#8, 0x77#8]).length ∧
    [0xDD#8, 0x03#8, 0x00#8, 0x22#8] ++ payload41 ++ [0xFD#8, 0x88#8, 0x77#8] =
      [0xDD#8] ++ ([0x03#8, 0x00#8, 0x22#8] ++ payload41 ++ [0xFD#8, 0x88#8, 0x77#8]) ∧
    (loaded [0xDD#8]).sampleIn (1#16 : BitVec 16).toNat = some [0xDD#8] ∧
    (∃ t, exec (.decode 0#4 1#16) (loaded [0xDD#8]) = .next t ∧ (t.channel 0).cont = true) ∧
    ([0xDD#8, 0x03#8, 0x00#8, 0x22#8] ++ payload41 ++ [0xFD#8, 0x88#8]).length ≤ 40 ∧
    40 < ([0xDD#8, 0x00#8, 0x00#8, 0xFF#8] ++ List.replicate 37 0x00#8).length :=
  ⟨loaded_channels_ok _, frame41_isFrame, by decide, rfl, rfl, ⟨_, rfl, by decide⟩, by decide, by decide⟩

/-- V-D5. -/
theorem witness_ChangedPayloadByte :
    [0x10#8, 0x20#8].length ≤ 255 ∧ [0x10#8, 0x20#8][0]? = some 0x10#8 ∧ 0x11#8 ≠ 0x10#8 ∧
    (State.reset.channel 0).cont = false ∧
    (loaded [0xDD#8, 0x03#8, 0x00#8, 0x02#8, 0x11#8, 0x20#8, 0xFF#8, 0xCB#8, 0x77#8]).sampleIn
      (9#16 : BitVec 16).toNat = some ([0xDD#8, 0x03#8, 0x00#8, BitVec.ofNat 8 2] ++ [0x10#8, 0x20#8].set 0 0x11#8 ++
        bmTrailer (expectedChecksum .idLen 0x03#8 [0x10#8, 0x20#8])) := by decide

theorem witness_ExpectedChecksum : ([] : List Byte).length ≤ 255 ∧ (List.replicate 255 0xFF#8).length ≤ 255 :=
  ⟨by decide, Nat.le_of_eq List.length_replicate⟩

theorem witness_PassStaysInActiveStates :
    pass Config.hw .mc [0xAA#8, 0x01#8] = .short .readPayload (some 0) ∧ pass Config.hw .mc [] = .short .readHeader none ∧
    pass Config.hw .mc [0xAA#8, 1, 2, 3, 4, 5, 6, 7, 8, 9] = .short .readSuffix (some 0) := by decide

theorem witness_ResetClearsOneChannel : (1#4 : BitVec 4).toNat < 2 ∧ 2 ≤ (2#4 : BitVec 4).toNat := by decide

/-- No payload, and a full window. -/
theorem witness_CkCompute : State.reset.sampleIn (0#16 : BitVec 16).toNat = some [] ∧
    (loaded (List.replicate 512 0xFF#8)).sampleIn (512#16 : BitVec 16).toNat = some (List.replicate 512 0xFF#8) :=
  ⟨rfl, sampleIn_loaded_of List.length_replicate⟩

theorem witness_ChecksumDetects : (0x00#8 : Byte) ≠ 0xFF#8 ∧ [0x10#8, 0x20#8][1]? = some 0x20#8 ∧ 0x21#8 ≠ 0x20#8 ∧
    [0x10#8, 0x20#8].Perm [0x20#8, 0x10#8] := ⟨by decide, by decide, by decide, List.Perm.swap _ _ _⟩

/-- No payload, the longest accepted one and the shortest refused one. -/
theorem witness_Build :
    State.reset.sampleIn (0#16 : BitVec 16).toNat = some [] ∧
    (loaded (List.replicate 23 0x00#8)).sampleIn (23#16 : BitVec 16).toNat = some (List.replicate 23 0x00#8) ∧
    (loaded (List.replicate 24 0x00#8)).sampleIn (24#16 : BitVec 16).toNat = some (List.replicate 24 0x00#8) ∧
    Config.hw.Legal ∧ 7 + 23 ≤ Config.hw.encCap ∧ Config.hw.encCap < 7 + 24 ∧ 7 + 255 ≤ largest.encCap ∧
    largest.encCap < 7 + 256 ∧ largest.Legal :=
  ⟨rfl, sampleIn_loaded (List.replicate 23 0x00#8), sampleIn_loaded (List.replicate 24 0x00#8), by decide, by decide,
    by decide, by decide, by decide, by decide⟩

/-- A BUILD on a fresh block and on one with a continuation, and a DECODE that goes on from it. -/
theorem witness_BuildIsIndependent :
    (loaded [0x12#8]).arg = (holding 0 pendingBm (loaded [0x12#8])).arg ∧
    Memory.read (loaded [0x12#8]).mem 0x400 = Memory.read (holding 0 pendingBm (loaded [0x12#8])).mem 0x400 ∧
    (∃ t, exec (.build 1#16) (loaded [0x12#8]) = .next t ∧ t.result ≠ 0x0000000A#32) ∧
    (∃ t, exec (.build 1#16) (holding 0 pendingBm (loaded [0x12#8])) = .next t) ∧
    ∃ d, exec (.decode 0#4 1#16) (holding 0 pendingBm (loaded [0x12#8])) = .next d :=
  ⟨rfl, rfl, ⟨_, rfl, by decide⟩, ⟨_, rfl⟩, _, rfl⟩

/-- The three cases of V-E6 to V-E8, each with its frame as the next chunk. -/
theorem witness_BuiltFrameFedBack :
    ∀ arg ∈ [0x00000000#32, 0x000003A5#32, 0x000000A5#32], ∃ t,
      exec (.build 2#16) { loaded [0x12#8, 0x34#8] with arg := arg } = .next t ∧
      t.encLen.toNat = (9#16 : BitVec 16).toNat ∧
      ∃ f, Memory.readBytes t.mem 0x200 t.encLen.toNat = some f ∧
        (loaded f).sampleIn (9#16 : BitVec 16).toNat = some f ∧ ((loaded f).channel 0).cont = false := by
  intro arg h
  simp only [List.mem_cons, List.not_mem_nil, or_false] at h
  rcases h with rfl | rfl | rfl <;> exact ⟨_, rfl, rfl, _, rfl, rfl, rfl⟩

theorem witness_FeedLoads :
    (1#4 : BitVec 4).toNat < 2 ∧
    hostFeed Config.hw 1#4 [0xAA#8] = some [.write 0x400#11 0x000000AA#32, .write 0x000#11 0x00010101#32] ∧
    ({ State.reset with hostQueue := [.write 0x400#11 0x000000AA#32, .write 0x000#11 0x00010101#32, .read 0x002#11] } :
      State).hostQueue = [.write 0x400#11 0x000000AA#32, .write 0x000#11 0x00010101#32] ++ [.read 0x002#11] ∧
    hostFeed Config.hw 1#4 [] = some [.write 0x000#11 0x00000101#32] ∧
    (facing (.write 0x000#11 0x00000101#32) State.reset).hostQueue = [.write 0x000#11 0x00000101#32] ++ [] := by decide

theorem witness_HostStatementsRunSafely :
    hostSend Config.hw 0xA5#8 0x03#8 [] = some [.write 0x001#11 0x000003A5#32, .write 0x000#11 0x00000003#32] ∧
    hostCksum Config.hw 0x03#8 0x00#8 [] = some [.write 0x001#11 0x00000300#32, .write 0x000#11 0x00000004#32] ∧
    hostVerify 0x00#8 0x00#8 0x00#8 0x00#8 = [.write 0x001#11 0x00000000#32, .write 0x000#11 0x00000005#32] ∧
    ({ State.reset with hostQueue := [.write 0x001#11 0x00000000#32, .write 0x000#11 0x00000005#32] } :
      State).hostQueue = [.write 0x001#11 0x00000000#32, .write 0x000#11 0x00000005#32] ++ [] := by decide

theorem witness_HostReads :
    (facing (.read 0x1FF#11) State.reset).hostQueue = .read 0x1FF#11 :: [] ∧
    HostReg.index (.pktPayload 255) = BitVec.ofNat 11 (0x100 + 255) ∧
    HostReg.index (.encOut 29) = BitVec.ofNat 11 (0x200 + 29) ∧
    Memory.read (loaded [0x12#8]).mem (0x400 + 0) = some 0x12#8 ∧
    Memory.read (Memory.write [] (0x400 + 511) 0x34#8) (0x400 + 511) = some 0x34#8 :=
  ⟨rfl, rfl, rfl, rfl, rfl⟩

end Sys2Proof.Tests
end

section
/-! The invariant of the state: what keeps each of its parts, and that every step keeps all of it (10_state.md R22, R23,
R32 to R36). -/

namespace Sys2Proof.Machine

variable {cfg : Config}

/-! ## The buffers -/

/-- A cleared channel without a continuation meets the invariant of R23, whatever its cells hold. -/
theorem channel_ok_of_empty {prof : Profile} {ch : Channel} (hl : ch.cells.length = cfg.bufCap) (hcur : ch.cur = 0)
    (hcont : ch.cont = false) : ch.Ok cfg prof :=
  ⟨hl, by omega, by simp [hcont], fun _ => hcur⟩

/-- The channel a decoded chunk leaves meets the invariant. -/
theorem ChunkResult.channel_ok {prof : Profile} {ch : Channel} {w : Word} (h : ChunkResult cfg prof ch w)
    (hl : ch.cells.length = cfg.bufCap) : ch.Ok cfg prof := by
  cases h with
  | terminal cur cont _ => exact channel_ok_of_empty hl cur cont
  | kept cur cap cont first _ => exact ⟨hl, cap, fun _ => ⟨cur, first⟩, by simp [cont]⟩

/-- The buffers stay as R21 to R23 say when one channel takes a value that meets them and the others are kept. -/
theorem State.ChannelsOk.of_othersKept {s t : State} {c : Nat} (hs : s.ChannelsOk cfg)
    (hlen : t.channels.length = s.channels.length) (hother : OthersKept c s t)
    (hc : c < cfg.nch → (t.channel c).Ok cfg (cfg.profile c)) : t.ChannelsOk cfg := by
  obtain ⟨hn, hok⟩ := hs
  refine ⟨hlen.trans hn, fun d hd => ?_⟩
  by_cases h : d = c
  · subst h; exact hc hd
  · rw [hother d h]; exact hok d hd

/-- `clear(c)` keeps the buffers' invariant (R154). -/
theorem State.ChannelsOk.clearChannel {s : State} (hs : s.ChannelsOk cfg) (c : Nat) :
    (s.clearChannel c).ChannelsOk cfg := by
  refine hs.of_othersKept (c := c) (by simp) (fun d hd => channel_setChannel_other _ _ _ hd) fun hc => ?_
  obtain ⟨hcur, hcont⟩ := channel_clearChannel s c
  refine channel_ok_of_empty ?_ hcur hcont
  rw [State.clearChannel, channel_setChannel_same _ _ _ (hs.1 ▸ hc)]
  exact (hs.2 c hc).1

/-- A decoded chunk leaves the number of channels. -/
theorem length_channels_decodeChunk (s : State) (c : Nat) (chunk : List Byte) :
    (s.decodeChunk cfg c chunk).channels.length = s.channels.length := by
  cases decodeChunk_effect (cfg := cfg) s c chunk with
  | result ch w eq => rw [eq]; simp
  | packet ch pkt eq _ _ => rw [eq]; simp

/-- A decoded chunk keeps the buffers' invariant (R151 to R155). -/
theorem State.ChannelsOk.decodeChunk {s : State} (hs : s.ChannelsOk cfg) (c : Nat) (chunk : List Byte) :
    (s.decodeChunk cfg c chunk).ChannelsOk cfg := by
  refine hs.of_othersKept (length_channels_decodeChunk s c chunk) (fun d hd => decodeChunk_other hd chunk) fun hc => ?_
  obtain ⟨hl, hres⟩ := decodeChunk_result (cfg := cfg) (chunk := chunk) (hs.1 ▸ hc) (hs.2 c hc).1
  exact hres.channel_ok hl

/-! ## The windows' memory -/

/-- Bytes written to window cells keep the memory canonical, with window cells only. -/
theorem State.MemoryOk.writeBytes {s t : State} {a : Nat} {bs : List Byte} (hs : s.MemoryOk cfg)
    (hcells : ∀ x, a ≤ x → x < a + bs.length → isWindowCell cfg x = true)
    (ht : t.mem = Memory.writeBytes s.mem a bs) : t.MemoryOk cfg := by
  obtain ⟨hwf, hin⟩ := hs
  refine ⟨ht ▸ writeBytes_wf bs a hwf, fun e he => ?_⟩
  rcases mem_writeBytes bs (ht ▸ he) with ⟨hlo, hhi⟩ | hold
  · exact hcells _ hlo hhi
  · exact hin e hold

/-! ## The registers -/

/-- A composed RESULT word meets R32 when STATUS stands beside DETECTED_ERROR only and VERIFY_OK beside OK only. -/
theorem resultOk_of_resultWord {s : State} {code : ResultCode} {status : Byte} {v : Bool}
    (h : s.result = resultWord code status v) (hstatus : status ≠ 0x00#8 ↔ code = .detectedError)
    (hv : v = true → code = .ok) : s.ResultOk := by
  have hcode : s.resultCode = code.number := by rw [State.resultCode, h, code_resultWord]
  refine ⟨by rw [h, unnamed_resultWord], ?_, ?_, ?_⟩
  · rw [hcode]; cases code <;> decide
  · rw [State.resultStatus, h, status_resultWord, hcode, hstatus]
    exact ⟨fun e => by rw [e]; rfl, fun e => number_injective e⟩
  · rw [State.verifyOk, h, verifyOk_resultWord, hcode]
    exact fun e => by rw [hv e]; rfl

/-- A command that reports only a code, any but DETECTED_ERROR, leaves RESULT as R32 says. -/
theorem resultOk_of_codeWord {s : State} {code : ResultCode} (h : s.result = codeWord code)
    (hcode : code ≠ .detectedError) : s.ResultOk :=
  resultOk_of_resultWord h (by simp [hcode]) (by simp)

/-- RESULT after a decoded chunk is as R32 says. -/
theorem ChunkResult.result_ok {s : State} {prof : Profile} {ch : Channel} (h : ChunkResult cfg prof ch s.result) :
    s.ResultOk := by
  cases h with
  | terminal _ _ code =>
    obtain h | h | h | h | ⟨-, h | ⟨status, hne, h⟩⟩ := code
    · exact resultOk_of_codeWord h (by decide)
    · exact resultOk_of_codeWord h (by decide)
    · exact resultOk_of_codeWord h (by decide)
    · exact resultOk_of_codeWord h (by decide)
    · exact resultOk_of_codeWord h (by decide)
    · exact resultOk_of_resultWord h (by simp [hne]) (by simp)
  | kept _ _ _ _ code => exact resultOk_of_codeWord code (by decide)

/-- PKT0 of a packet: the unnamed bits and STATUS are 0 and the three flags agree (R35). -/
theorem pkt0Word_fields (prof : Profile) (id : Byte) :
    pkt0Word prof id >>> 27 = 0#32 ∧ (pkt0Word prof id).extractLsb' 16 8 = 0#8 ∧
      (pkt0Word prof id).getLsbD 24 = (pkt0Word prof id).getLsbD 26 ∧
      (pkt0Word prof id).getLsbD 25 = (pkt0Word prof id).getLsbD 26 := by
  cases prof with
  | mc =>
    have hw : pkt0Word .mc id = 0x000000AA#32 := by simp [pkt0Word, hdr]
    rw [hw]
    decide
  | bm =>
    have hid := id.isLt
    have hn := toNat_pkt0Word_bm id
    have hbit (k : Nat) (hk : k < 3) : (pkt0Word .bm id).getLsbD (24 + k) = true := by
      have : (pkt0Word .bm id).toNat / 2 ^ 24 = 7 := by omega
      rw [BitVec.getLsbD, Nat.add_comm, ← Nat.testBit_div_two_pow, this]
      interval_cases k <;> rfl
    refine ⟨BitVec.eq_of_toNat_eq ?_, BitVec.eq_of_toNat_eq ?_, (hbit 0 (by omega)).trans (hbit 2 (by omega)).symm,
      (hbit 1 (by omega)).trans (hbit 2 (by omega)).symm⟩
    · rw [BitVec.toNat_ushiftRight, Nat.shiftRight_eq_div_pow, hn]
      show _ = 0
      omega
    · rw [BitVec.extractLsb'_toNat, Nat.shiftRight_eq_div_pow, hn]
      show _ = 0
      omega

/-- PKT1 of a packet: the unnamed bits are 0, LEN and CH are what was composed (R36). -/
theorem pkt1Word_fields {n c : Nat} (hn : n ≤ 255) (hc : c < 16) :
    pkt1Word n c &&& 0xFFF0FE00#32 = 0#32 ∧ ((pkt1Word n c).extractLsb' 0 9).toNat = n ∧
      ((pkt1Word n c).extractLsb' 16 4).toNat = c := by
  have hw := toNat_pkt1Word hn hc
  refine ⟨?_, ?_, ?_⟩
  · have hb : pkt1Word n c = (BitVec.ofNat 8 n).setWidth 32 ||| (BitVec.ofNat 4 c).setWidth 32 <<< 16 := by
      have h1 : (BitVec.ofNat 8 n).setWidth 32 = BitVec.ofNat 32 n := by
        apply BitVec.eq_of_toNat_eq; simp; omega
      have h2 : (BitVec.ofNat 4 c).setWidth 32 = BitVec.ofNat 32 c := by
        apply BitVec.eq_of_toNat_eq; simp; omega
      rw [h1, h2, pkt1Word]
    rw [hb]
    ext i hi
    interval_cases i <;> simp
  · rw [BitVec.extractLsb'_toNat, hw]
    simp
    omega
  · rw [BitVec.extractLsb'_toNat, hw, Nat.shiftRight_eq_div_pow]
    omega

/-- The packet registers of a packet on a channel of the block are as R35 and R36 say. -/
theorem packetOk_of_packet {s : State} {prof : Profile} {pkt : Packet} {c : Nat} (hcfg : cfg.Legal)
    (hc : c < cfg.nch) (hn : pkt.n ≤ 255) (h0 : s.pkt0 = pkt0Word prof pkt.id) (h1 : s.pkt1 = pkt1Word pkt.n c) :
    s.PacketOk cfg := by
  obtain ⟨-, hnch, -⟩ := hcfg
  obtain ⟨hres0, hstatus, hid, hhas⟩ := pkt0Word_fields prof pkt.id
  obtain ⟨hres1, hlen, hch⟩ := pkt1Word_fields hn (show c < 16 by omega)
  refine ⟨h0 ▸ hres0, ?_, ?_, ?_, h1 ▸ hres1, ?_, ?_⟩
  · rw [State.pktStatus, h0, hstatus]
  · rw [State.pktHasId, State.pktCkValid, h0, hid]
  · rw [State.pktHasStatus, State.pktCkValid, h0, hhas]
  · rw [State.pktLen, h1, hlen]; exact hn
  · rw [State.pktCh, h1, hch]; exact hc

/-- A checksum zero-extended to a word has no unnamed bit of CK (R33). -/
theorem setWidth_u16_unnamed (v : U16) : (v.setWidth 32 : Word) >>> 16 = 0#32 := by
  apply BitVec.eq_of_toNat_eq
  have := v.isLt
  rw [BitVec.toNat_ushiftRight, Nat.shiftRight_eq_div_pow, BitVec.toNat_setWidth]
  show _ = 0
  omega

/-! ## The invariant -/

/-- The invariant speaks of neither ARG nor the model's own fields. -/
theorem State.Inv.withHostFields {s : State} (h : s.Inv cfg) (arg : Word) (queue : List HostEvent)
    (answer : Option Word) (cycle : Nat) :
    State.Inv cfg { s with arg := arg, hostQueue := queue, readData := answer, powerCycle := cycle } :=
  ⟨h.channels, h.memory, h.result, h.outputs, h.packet⟩

/-- A command that only reports a code keeps the invariant. -/
theorem State.Inv.setResult {s : State} {code : ResultCode} (h : s.Inv cfg) (hcode : code ≠ .detectedError) :
    (s.setResult (codeWord code)).Inv cfg :=
  ⟨h.channels, h.memory, resultOk_of_codeWord rfl hcode, h.outputs, h.packet⟩

/-- ILLEGAL_COMMAND keeps the invariant (60_exceptions.md R212). -/
theorem State.Inv.raiseIllegalCommand {s : State} (h : s.Inv cfg) : (raiseIllegalCommand s).Inv cfg :=
  h.setResult (code := .illegalCommand) (by decide)

/-- A decoded chunk keeps the invariant. -/
theorem State.Inv.decodeChunk {s : State} {c : Nat} (hcfg : cfg.Legal) (h : s.Inv cfg) (hc : c < cfg.nch)
    (chunk : List Byte) : (s.decodeChunk cfg c chunk).Inv cfg := by
  have hchannels := h.channels.decodeChunk c chunk
  obtain ⟨hn, hok⟩ := h.channels
  have hresult := (decodeChunk_result (cfg := cfg) (chunk := chunk) (hn ▸ hc) (hok c hc).1).2.result_ok
  cases decodeChunk_effect (cfg := cfg) s c chunk with
  | result ch w eq =>
    rw [eq] at hchannels hresult ⊢
    exact ⟨hchannels, h.memory, hresult, h.outputs, h.packet⟩
  | packet ch pkt eq hlen hbound =>
    rw [eq] at hchannels hresult ⊢
    refine ⟨hchannels, h.memory.writeBytes (fun x hlo hhi => ?_) rfl, hresult, h.outputs,
      packetOk_of_packet hcfg hc hbound rfl rfl⟩
    unfold pktBase at hlo hhi
    exact isWindowCell_iff.mpr (.inl ⟨hlo, by omega⟩)

/-- BUILD of a frame that fits keeps the invariant (43_encoder.md R190). -/
theorem State.Inv.built {s : State} {p : List Byte} {n : Nat} (h : s.Inv cfg) (hp : p.length = n) (hn : n ≤ 255)
    (hfit : 7 + n ≤ cfg.encCap) :
    State.Inv cfg { s with
      mem := Memory.writeBytes s.mem encBase (requestFrame s.arg0 s.arg1 p)
      encLen := BitVec.ofNat 32 (7 + n)
      result := codeWord .ok } := by
  refine ⟨h.channels, h.memory.writeBytes (fun x hlo hhi => ?_) rfl, resultOk_of_codeWord rfl (by decide),
    ⟨h.outputs.1, .inr ?_⟩, h.packet⟩
  · rw [length_requestFrame] at hhi
    unfold encBase at hlo hhi
    exact isWindowCell_iff.mpr (.inr (.inl ⟨hlo, by omega⟩))
  · have : (BitVec.ofNat 32 (7 + n)).toNat = 7 + n := by simp; omega
    show 7 ≤ (BitVec.ofNat 32 (7 + n)).toNat ∧ (BitVec.ofNat 32 (7 + n)).toNat ≤ cfg.encCap
    omega

/-- Every command keeps the invariant. -/
theorem exec_keeps_inv {i : Instr} {s t : State} (h : s.Inv Config.hw) (he : exec i s = .next t) :
    t.Inv Config.hw := by
  cases i with
  | decode ch len =>
    rcases execDecodeIn_cases (cfg := Config.hw) ch len s with
      ⟨-, e⟩ | ⟨-, -, e⟩ | ⟨-, -, e⟩ | ⟨hok, -, chunk, -, e⟩ <;> cases e.symm.trans he
    · exact h.raiseIllegalCommand
    · exact h.setResult (by decide)
    · obtain ⟨hch, -⟩ := Bool.and_eq_true_iff.mp hok
      exact h.decodeChunk hw_legal ((channelOk_hw ch).mp hch) chunk
  | reset ch =>
    rcases execResetIn_cases (cfg := Config.hw) ch s with ⟨-, e⟩ | ⟨-, e⟩ <;> cases e.symm.trans he
    · exact h.raiseIllegalCommand
    · exact ⟨h.channels.clearChannel _, h.memory, resultOk_of_codeWord rfl (by decide), h.outputs, h.packet⟩
  | build len =>
    rcases execBuildIn_cases (cfg := Config.hw) len s with
      ⟨-, e⟩ | ⟨-, -, e⟩ | ⟨-, -, -, e⟩ | ⟨-, hfit, p, hp, e⟩ <;> cases e.symm.trans he
    · exact h.raiseIllegalCommand
    · exact ⟨h.channels, h.memory, resultOk_of_codeWord rfl (by decide), ⟨h.outputs.1, .inl rfl⟩, h.packet⟩
    · have hn : ¬(255 < len.toNat ∨ Config.hw.encCap < 7 + len.toNat) := of_decide_eq_false hfit
      exact h.built (length_of_sampleIn hp) (by omega) (by omega)
  | ckCompute len =>
    rcases execCkComputeIn_cases (cfg := Config.hw) len s with ⟨-, e⟩ | ⟨-, -, e⟩ | ⟨-, p, -, e⟩ <;>
      cases e.symm.trans he
    · exact h.raiseIllegalCommand
    · exact ⟨h.channels, h.memory, resultOk_of_codeWord rfl (by decide),
        ⟨setWidth_u16_unnamed _, h.outputs.2⟩, h.packet⟩
  | ckVerify =>
    cases he
    exact ⟨h.channels, h.memory, resultOk_of_resultWord rfl (by simp) fun _ => rfl, h.outputs, h.packet⟩

/-- Issuing any word keeps the invariant. -/
theorem issueCommand_keeps_inv {w : Word} {s t : State} (h : s.Inv Config.hw) (he : issueCommand w s = .next t) :
    t.Inv Config.hw := by
  rcases issueCommand_cases w s with ⟨i, -, e⟩ | ⟨-, e⟩
  · exact exec_keeps_inv h (e.symm.trans he)
  · cases e.symm.trans he; exact h.raiseIllegalCommand

/-- Every host write keeps the invariant. -/
theorem busWrite_keeps_inv {a : WordIndex} {w : Word} {s t : State} (h : s.Inv Config.hw)
    (he : busWrite Config.hw a w s = .next t) : t.Inv Config.hw := by
  rcases busWrite_cases Config.hw a w s with ⟨-, e⟩ | ⟨-, e⟩ | ⟨j, -, hj, e⟩ | e
  · exact issueCommand_keeps_inv h (e.symm.trans he)
  · cases e.symm.trans he; exact h.withHostFields _ _ _ _
  · cases e.symm.trans he
    refine ⟨h.channels, h.memory.writeBytes (bs := [w.extractLsb' 0 8]) (fun x hlo hhi => ?_) rfl, h.result, h.outputs,
      h.packet⟩
    unfold inBase at hlo hhi
    simp only [List.length_singleton] at hhi
    exact isWindowCell_iff.mpr (.inr (.inr ⟨by omega, by omega⟩))
  · cases e.symm.trans he; exact h

/-- A channel right after reset is empty (R45). -/
theorem resetIn_channel {c : Nat} (hc : c < cfg.nch) : (State.resetIn cfg).channel c = Channel.fresh cfg := by
  simp [State.channel, State.resetIn, List.getD_eq_getElem?_getD, hc]

/-- The reset state meets the invariant, whatever the legal parameters (R45). -/
theorem resetIn_inv (hcfg : cfg.Legal) : (State.resetIn cfg).Inv cfg where
  channels := by
    refine ⟨List.length_replicate, fun c hc => ?_⟩
    rw [resetIn_channel hc]
    exact channel_ok_of_empty List.length_replicate rfl rfl
  memory := ⟨⟨List.Pairwise.nil, fun _ h => nomatch h⟩, fun _ h => nomatch h⟩
  result := resultOk_of_codeWord (code := .none) rfl (by decide)
  outputs := ⟨by simp [State.resetIn], .inl rfl⟩
  packet := by
    have hnch : 0 < cfg.nch := hcfg.1
    simp [State.PacketOk, State.pktStatus, State.pktHasId, State.pktCkValid, State.pktHasStatus, State.pktLen,
      State.pktCh, State.resetIn, hnch]

/-- Every step keeps the invariant. -/
theorem step_keeps_inv {s t : State} (h : s.Inv Config.hw) (hst : step s = .next t) : t.Inv Config.hw := by
  rcases step_cases s with ⟨-, e⟩ | ⟨a, rest, -, e⟩ | ⟨a, w, rest, -, e⟩ | ⟨rest, -, e⟩
  · cases e.symm.trans hst; exact h
  · cases e.symm.trans hst; exact h.withHostFields _ _ _ _
  · exact busWrite_keeps_inv (h.withHostFields _ _ _ _) (e.symm.trans hst)
  · cases e.symm.trans hst
    exact (resetIn_inv hw_legal).withHostFields _ _ _ _

/-- Settles O16: every outcome of every event keeps each part of the invariant. -/
theorem everyStepKeepsTheInvariant : Obligations.EveryStepKeepsTheInvariant := fun _ _ h hst => step_keeps_inv h hst

/-- Settles O15: right after reset the buffers are empty, the memory lists nothing and every register is 0. -/
theorem resetMeetsTheInvariant : Obligations.ResetMeetsTheInvariant :=
  ⟨hw_legal, rfl, fun _ hcfg => resetIn_inv hcfg⟩

/-- A run from a state of the invariant stays in it: the steps' induction, once. -/
theorem run_keeps_inv {k : Nat} : ∀ {s t : State}, s.Inv Config.hw → Host.Core.run core k s = .next t →
    t.Inv Config.hw := by
  induction k with
  | zero => intro s t h hrun; cases hrun; exact h
  | succ k ih =>
    intro s t h hrun
    cases hst : step s with
    | next u => exact ih (step_keeps_inv h hst) ((run_succ_of_next hst).symm.trans hrun)
    | fault f =>
      have hs : core.step s = .fault f := hst
      simp [Host.Core.run, hs] at hrun
    | refused r =>
      have hs : core.step s = .refused r := hst
      simp [Host.Core.run, hs] at hrun

/-- Settles O17: the buffers' part of the invariant, which reset meets and every step keeps, read at this hardware's
capacity and headers. -/
theorem reachableBuffersKeepTheirInvariants : Obligations.ReachableBuffersKeepTheirInvariants := by
  intro events k t c hrun hc
  have hreset : State.Inv Config.hw { State.reset with hostQueue := events } :=
    (resetIn_inv hw_legal).withHostFields _ _ _ _
  obtain ⟨-, hok⟩ := (run_keeps_inv hreset hrun).channels
  obtain ⟨-, hcap, hcont, hidle⟩ := hok c hc
  have hhdr : hdr (Config.hw.profile c) = if c = 0 then 0xDD#8 else 0xAA#8 := by interval_cases c <;> rfl
  refine ⟨hcap, fun h => ?_, hidle⟩
  obtain ⟨hpos, hfirst⟩ := hcont h
  exact ⟨hpos, hcap, hhdr ▸ hfirst⟩

end Sys2Proof.Machine
end

section
/-! What a command does to the channels it does not name (10_state.md R24), and that no command and no access tells two
states apart whose channels hold the same cursor, flag and buffered bytes (R44). -/

namespace Sys2Proof.Machine

variable {cfg : Config}

/-! ## Outcomes -/

/-- An outcome with its next state, if it has one, changed by `f`. -/
def onNext (f : State → State) : Host.Outcome State Fault Refusal → Host.Outcome State Fault Refusal
  | .next t => .next (f t)
  | .fault r => .fault r
  | .refused r => .refused r

@[simp] theorem onNext_next (f : State → State) (t : State) : onNext f (.next t) = .next (f t) := rfl
@[simp] theorem onNext_fault (f : State → State) (r : Fault) : onNext f (.fault r) = .fault r := rfl
@[simp] theorem onNext_refused (f : State → State) (r : Refusal) : onNext f (.refused r) = .refused r := rfl

/-- The block with other buffers and all else as it was. -/
def State.withChannels (s : State) (l : List Channel) : State := { s with channels := l }

/-! ## A command that names no channel -/

/-- BUILD, CK_COMPUTE and CK_VERIFY do the same whatever the buffers hold, and carry them along. -/
theorem exec_withChannels {i : Instr} (h : namedChannel i = none) (s : State) (l : List Channel) :
    exec i (s.withChannels l) = onNext (·.withChannels l) (exec i s) := by
  cases i with
  | decode ch len => cases h
  | reset ch => cases h
  | build len =>
    have hin : (s.withChannels l).sampleIn len.toNat = s.sampleIn len.toNat := rfl
    simp only [exec, execBuild, execBuildIn, hin]
    cases lengthOk Config.hw len
    · rfl
    · cases s.sampleIn len.toNat
      · rfl
      · cases payloadTooLarge Config.hw len.toNat <;> rfl
  | ckCompute len =>
    have hin : (s.withChannels l).sampleIn len.toNat = s.sampleIn len.toNat := rfl
    simp only [exec, execCkCompute, execCkComputeIn, hin]
    cases lengthOk Config.hw len
    · rfl
    · cases s.sampleIn len.toNat <;> rfl
  | ckVerify => rfl

/-- BUILD, CK_COMPUTE and CK_VERIFY leave the buffers as they were. -/
theorem exec_channels_of_unnamed {i : Instr} {s t : State} (h : namedChannel i = none) (he : exec i s = .next t) :
    t.channels = s.channels := by
  have hsame := exec_withChannels h s s.channels
  rw [show s.withChannels s.channels = s from rfl, he, onNext_next] at hsame
  injection hsame with hsame
  rw [hsame]
  rfl

/-! ## A command on another channel -/

section OtherChannel

variable {c d : Nat} (x : Channel) (h : d ≠ c)
include h

theorem clearChannel_setChannel_other (s : State) :
    (s.setChannel d x).clearChannel c = (s.clearChannel c).setChannel d x := by
  rw [State.clearChannel, channel_setChannel_other _ _ _ h.symm, setChannel_comm _ _ _ _ h.symm]
  rfl

theorem applyError_setChannel_other (s : State) (w : Word) :
    (s.setChannel d x).applyError c w = (s.applyError c w).setChannel d x := by
  rw [State.applyError, clearChannel_setChannel_other x h]
  rfl

theorem overflow_setChannel_other (s : State) : (s.setChannel d x).overflow c = (s.overflow c).setChannel d x :=
  applyError_setChannel_other x h s _

theorem saveShort_setChannel_other (s : State) (input : List Byte) (place : Option Nat) :
    (s.setChannel d x).saveShort cfg c input place = (s.saveShort cfg c input place).setChannel d x := by
  cases place with
  | none => exact applyError_setChannel_other x h s _
  | some j =>
    simp only [State.saveShort, channel_setChannel_other _ _ _ h.symm]
    cases (s.channel c).clear.append cfg (input.drop j) with
    | none => exact overflow_setChannel_other x h s
    | some y => simp only [setChannel_comm _ _ _ _ h.symm, setResult_setChannel]

theorem applyResult_setChannel_other (s : State) (prof : Profile) (r : PassResult) (input : List Byte) :
    (s.setChannel d x).applyResult cfg c prof r input = (s.applyResult cfg c prof r input).setChannel d x := by
  cases r with
  | packet pkt => simp only [State.applyResult, State.applyPacket, clearChannel_setChannel_other x h]; rfl
  | checksumError => exact applyError_setChannel_other x h s _
  | suffixError => exact applyError_setChannel_other x h s _
  | detectedError status => exact applyError_setChannel_other x h s _
  | short st place =>
    by_cases hst : st = .readHeader
    · subst hst; exact saveShort_setChannel_other (cfg := cfg) x h s input none
    · rw [applyResult_short hst, applyResult_short hst]; exact saveShort_setChannel_other x h s input place

/-- A chunk decoded on channel `c` neither reads nor writes channel `d`. -/
theorem decodeChunk_setChannel_other (s : State) (chunk : List Byte) :
    (s.setChannel d x).decodeChunk cfg c chunk = (s.decodeChunk cfg c chunk).setChannel d x := by
  simp only [State.decodeChunk, channel_setChannel_other _ _ _ h.symm]
  cases (s.channel c).cont with
  | false => exact applyResult_setChannel_other x h s _ _ _
  | true =>
    cases (s.channel c).append cfg chunk with
    | none => exact overflow_setChannel_other x h s
    | some y =>
      simp only [setChannel_comm _ _ _ _ h.symm, if_true]
      exact applyResult_setChannel_other x h _ _ _ _

end OtherChannel

/-- A command does the same whatever a channel it does not name holds, and carries that along (R24). -/
theorem exec_setChannel_other {i : Instr} {d : Nat} (h : namedChannel i ≠ some d) (s : State) (x : Channel) :
    exec i (s.setChannel d x) = onNext (·.setChannel d x) (exec i s) := by
  have unnamed (hi : namedChannel i = none) : exec i (s.setChannel d x) = onNext (·.setChannel d x) (exec i s) := by
    refine (exec_withChannels hi s (s.channels.set d x)).trans ?_
    cases he : exec i s with
    | next t => simp [State.withChannels, State.setChannel, exec_channels_of_unnamed hi he]
    | fault r => rfl
    | refused r => rfl
  cases i with
  | decode ch len =>
    have hd : d ≠ ch.toNat := fun e => h (congrArg some e.symm)
    have hin : (s.setChannel d x).sampleIn len.toNat = s.sampleIn len.toNat := rfl
    simp only [exec, execDecode, execDecodeIn, hin, decodeChunk_setChannel_other x hd]
    cases channelOk Config.hw ch && lengthOk Config.hw len
    · rfl
    · cases s.sampleIn len.toNat
      · rfl
      · by_cases h0 : len = 0#16 <;> simp [h0]
  | reset ch =>
    have hd : d ≠ ch.toNat := fun e => h (congrArg some e.symm)
    simp only [exec, execReset, execResetIn, clearChannel_setChannel_other x hd]
    cases channelOk Config.hw ch <;> rfl
  | build len => exact unnamed rfl
  | ckCompute len => exact unnamed rfl
  | ckVerify => exact unnamed rfl

/-- A command leaves every channel it does not name (R24). -/
theorem exec_channel_other {i : Instr} {d : Nat} {s t : State} (h : namedChannel i ≠ some d)
    (he : exec i s = .next t) : t.channel d = s.channel d := by
  have unnamed (hi : namedChannel i = none) : t.channel d = s.channel d := by
    rw [State.channel, exec_channels_of_unnamed hi he, State.channel]
  cases i with
  | decode ch len =>
    have hd : d ≠ ch.toNat := fun e => h (congrArg some e.symm)
    rcases execDecodeIn_cases (cfg := Config.hw) ch len s with
      ⟨-, e⟩ | ⟨-, -, e⟩ | ⟨-, -, e⟩ | ⟨-, -, chunk, -, e⟩ <;> cases e.symm.trans he
    · rfl
    · rfl
    · exact decodeChunk_other hd chunk
  | reset ch =>
    have hd : d ≠ ch.toNat := fun e => h (congrArg some e.symm)
    rcases execResetIn_cases (cfg := Config.hw) ch s with ⟨-, e⟩ | ⟨-, e⟩ <;> cases e.symm.trans he
    · rfl
    · exact channel_setChannel_other _ _ _ hd
  | build len => exact unnamed rfl
  | ckCompute len => exact unnamed rfl
  | ckVerify => exact unnamed rfl

/-- Settles O18: a command leaves the channels it does not name, and commutes with replacing one of them. -/
theorem commandsKeepToTheirChannel : Obligations.CommandsKeepToTheirChannel := by
  intro i s d x h
  have hcomm := exec_setChannel_other h s x
  refine ⟨fun t he => ⟨exec_channel_other h he, ?_⟩, fun f he => ?_⟩
  · rw [hcomm, he, onNext_next]
  · rw [hcomm, he, onNext_fault]

/-! ## Channels no rule can tell apart -/

section ChannelAlike

variable {x y : Channel}

theorem Channel.Alike.clear (h : x.Alike y) : x.clear.Alike y.clear := by
  obtain ⟨hlen, -, -, -⟩ := h
  exact ⟨hlen, rfl, rfl, rfl⟩

theorem Channel.Alike.withCont (h : x.Alike y) (v : Bool) :
    Channel.Alike { x with cont := v } { y with cont := v } := by
  obtain ⟨hlen, hcur, -, hcontents⟩ := h
  exact ⟨hlen, hcur, rfl, hcontents⟩

/-- An `append` on channels alike fails on both or leaves channels alike (R151). -/
theorem Channel.Alike.append (h : x.Alike y) (hl : x.cells.length = cfg.bufCap) (bs : List Byte) :
    (x.append cfg bs = none ∧ y.append cfg bs = none) ∨
      ∃ x' y', x.append cfg bs = some x' ∧ y.append cfg bs = some y' ∧ x'.Alike y' := by
  obtain ⟨hlen, hcur, hcont, hcontents⟩ := h
  by_cases hfit : x.cur + bs.length ≤ cfg.bufCap
  · have hx := append_of_fits hfit
    have hy := append_of_fits (hcur ▸ hfit)
    refine .inr ⟨_, _, hx, hy, by simp [hlen], by rw [hcur], hcont, ?_⟩
    rw [contents_append hl hx, contents_append (hlen ▸ hl) hy, hcontents]
  · exact .inl ⟨append_eq_none.mpr (by omega), append_eq_none.mpr (by omega)⟩

end ChannelAlike

/-! ## States no host can tell apart -/

/-- Two outcomes no host can tell apart: next states alike, or the same stop. -/
inductive OutcomesAlike : (o p : Host.Outcome State Fault Refusal) → Prop
  | next {s t : State} (alike : s.Alike t) : OutcomesAlike (.next s) (.next t)
  | fault (r : Fault) : OutcomesAlike (.fault r) (.fault r)
  | refused (r : Refusal) : OutcomesAlike (.refused r) (.refused r)

theorem State.Alike.refl (s : State) : s.Alike s :=
  ⟨⟨rfl, rfl, rfl, rfl, rfl, rfl, rfl, rfl, rfl, rfl⟩, rfl, fun _ => ⟨rfl, rfl, rfl, rfl⟩⟩

theorem sameButChannels_withChannels (s : State) (l : List Channel) : s.SameButChannels (s.withChannels l) :=
  ⟨rfl, rfl, rfl, rfl, rfl, rfl, rfl, rfl, rfl, rfl⟩

/-- What is alike to a next state is a next state. -/
theorem OutcomesAlike.of_next {s : State} {o : Host.Outcome State Fault Refusal} (h : OutcomesAlike (.next s) o) :
    ∃ t, o = .next t ∧ s.Alike t := by
  cases h with
  | next alike => exact ⟨_, rfl, alike⟩

/-- What is alike to a fault is that fault. -/
theorem OutcomesAlike.of_fault {r : Fault} {o : Host.Outcome State Fault Refusal} (h : OutcomesAlike (.fault r) o) :
    o = .fault r := by
  cases h
  rfl

section StateAlike

variable {s t : State} (h : s.Alike t)
include h

/-- States that agree outside the channels and hold the channels of states alike are alike. -/
theorem State.Alike.of_channels {u v : State} (hsame : u.SameButChannels v) (hu : u.channels = s.channels)
    (hv : v.channels = t.channels) : u.Alike v := by
  obtain ⟨-, hlen, hch⟩ := h
  refine ⟨hsame, hu ▸ hv ▸ hlen, fun c => ?_⟩
  rw [State.channel, State.channel, hu, hv]
  exact hch c

/-- A state alike another is that state with other buffers. -/
theorem State.Alike.eq_withChannels : t = s.withChannels t.channels := by
  obtain ⟨⟨harg, hresult, hck, hlen, h0, h1, hmem, hqueue, hread, hcycle⟩, -, -⟩ := h
  cases t
  simp_all [State.withChannels]

theorem State.Alike.channel (c : Nat) : (s.channel c).Alike (t.channel c) := by
  obtain ⟨-, -, hch⟩ := h
  exact hch c

/-- Channels alike put in the same place leave states alike. -/
theorem State.Alike.setChannel {x y : Channel} (hxy : x.Alike y) (c : Nat) :
    (s.setChannel c x).Alike (t.setChannel c y) := by
  obtain ⟨hsame, hlen, hch⟩ := h
  refine ⟨hsame, by simp [hlen], fun d => ?_⟩
  by_cases hd : d = c
  · subst hd
    by_cases hc : d < s.channels.length
    · rw [channel_setChannel_same _ _ _ hc, channel_setChannel_same _ _ _ (hlen ▸ hc)]
      exact hxy
    · rw [State.setChannel, State.setChannel, List.set_eq_of_length_le (by omega), List.set_eq_of_length_le (by omega)]
      exact hch d
  · rw [channel_setChannel_other _ _ _ hd, channel_setChannel_other _ _ _ hd]
    exact hch d

theorem State.Alike.setResult (w : Word) : (s.setResult w).Alike (t.setResult w) := by
  obtain ⟨⟨harg, -, hrest⟩, hlen, hch⟩ := h
  exact ⟨⟨harg, rfl, hrest⟩, hlen, hch⟩

theorem State.Alike.clearChannel (c : Nat) : (s.clearChannel c).Alike (t.clearChannel c) :=
  h.setChannel (h.channel c).clear c

theorem State.Alike.overflow (c : Nat) : (s.overflow c).Alike (t.overflow c) := (h.clearChannel c).setResult _

/-- A save retains the same bytes on states alike (R153). -/
theorem State.Alike.saveShort {c : Nat} (hl : (s.channel c).cells.length = cfg.bufCap) (input : List Byte)
    (place : Option Nat) : (s.saveShort cfg c input place).Alike (t.saveShort cfg c input place) := by
  cases place with
  | none => exact (h.clearChannel c).setResult _
  | some j =>
    rcases (h.channel c).clear.append (cfg := cfg) hl (input.drop j) with ⟨hs, ht⟩ | ⟨x, y, hs, ht, hxy⟩
    · simp only [State.saveShort, hs, ht]
      exact h.overflow c
    · simp only [State.saveShort, hs, ht]
      exact (h.setChannel (hxy.withCont true) c).setResult _

theorem State.Alike.applyPacket (c : Nat) (prof : Profile) (pkt : Packet) :
    (s.applyPacket c prof pkt).Alike (t.applyPacket c prof pkt) := by
  obtain ⟨⟨harg, -, hck, hlen, -, -, hmem, hrest⟩, hch⟩ := h.clearChannel c
  simp only [clearChannel_mem] at hmem
  exact ⟨⟨harg, rfl, hck, hlen, rfl, rfl, congrArg (Memory.writeBytes · pktBase _) hmem, hrest⟩, hch⟩

/-- A pass result applied to states alike leaves states alike (R126 to R128). -/
theorem State.Alike.applyResult {c : Nat} (hl : (s.channel c).cells.length = cfg.bufCap) (prof : Profile)
    (r : PassResult) (input : List Byte) :
    (s.applyResult cfg c prof r input).Alike (t.applyResult cfg c prof r input) := by
  cases r with
  | packet pkt => exact h.applyPacket c prof pkt
  | checksumError => exact (h.clearChannel c).setResult _
  | suffixError => exact (h.clearChannel c).setResult _
  | detectedError status => exact (h.clearChannel c).setResult _
  | short st place =>
    by_cases hst : st = .readHeader
    · subst hst; exact h.saveShort hl input none
    · rw [applyResult_short hst, applyResult_short hst]; exact h.saveShort hl input place

/-- A chunk decoded on states alike leaves states alike: only the buffered bytes are parsed (R111, R150). -/
theorem State.Alike.decodeChunk {c : Nat} (hc : c < s.channels.length)
    (hl : (s.channel c).cells.length = cfg.bufCap) (chunk : List Byte) :
    (s.decodeChunk cfg c chunk).Alike (t.decodeChunk cfg c chunk) := by
  obtain ⟨-, -, hcont, -⟩ := h.channel c
  cases hv : (s.channel c).cont with
  | false =>
    rw [decodeChunk_fresh hv, decodeChunk_fresh (hcont ▸ hv)]
    exact h.applyResult hl _ _ _
  | true =>
    rcases (h.channel c).append (cfg := cfg) hl chunk with ⟨hs, ht⟩ | ⟨x, y, hs, ht, hxy⟩
    · rw [decodeChunk_overflow hv (append_eq_none.mp hs), decodeChunk_overflow (hcont ▸ hv) (append_eq_none.mp ht)]
      exact h.overflow c
    · have ⟨_, _, _, hcontents⟩ := hxy
      simp only [State.decodeChunk, hv, hcont ▸ hv, hs, ht, if_true, hcontents]
      refine (h.setChannel (hxy.withCont false) c).applyResult ?_ _ _ _
      rw [channel_setChannel_same _ _ _ hc]
      exact (length_cells_append hs).trans hl

theorem State.Alike.raiseIllegalCommand : (raiseIllegalCommand s).Alike (raiseIllegalCommand t) := h.setResult _

/-- A command that names no channel ends alike on states alike. -/
theorem State.Alike.exec_unnamed {i : Instr} (hi : namedChannel i = none) : OutcomesAlike (exec i s) (exec i t) := by
  rw [h.eq_withChannels, exec_withChannels hi]
  cases he : exec i s with
  | next u =>
    exact .next (h.of_channels (sameButChannels_withChannels _ _) (exec_channels_of_unnamed hi he) rfl)
  | fault r => exact .fault r
  | refused r => exact .refused r

/-- A command ends alike on states alike. -/
theorem State.Alike.exec (hs : s.ChannelsOk Config.hw) (i : Instr) : OutcomesAlike (exec i s) (exec i t) := by
  have hmem : t.mem = s.mem := by rw [h.eq_withChannels]; rfl
  cases i with
  | decode ch len =>
    have hin : t.sampleIn len.toNat = s.sampleIn len.toNat := by rw [State.sampleIn, State.sampleIn, hmem]
    simp only [Machine.exec, execDecode, execDecodeIn, hin]
    cases hok : channelOk Config.hw ch && lengthOk Config.hw len with
    | false => exact .next h.raiseIllegalCommand
    | true =>
      cases s.sampleIn len.toNat with
      | none => exact .fault _
      | some chunk =>
        obtain ⟨hn, hch⟩ := hs
        have hc : ch.toNat < Config.hw.nch := (channelOk_hw ch).mp (Bool.and_eq_true_iff.mp hok).1
        by_cases h0 : len = 0#16
        · simp only [h0, if_true]
          exact .next (h.setResult _)
        · simp only [h0, if_true, if_false]
          exact .next (h.decodeChunk (hn ▸ hc) (hch _ hc).1 chunk)
  | reset ch =>
    simp only [Machine.exec, execReset, execResetIn]
    cases channelOk Config.hw ch with
    | false => exact .next h.raiseIllegalCommand
    | true => exact .next ((h.clearChannel _).setResult _)
  | build len => exact h.exec_unnamed rfl
  | ckCompute len => exact h.exec_unnamed rfl
  | ckVerify => exact h.exec_unnamed rfl

/-- A host read answers the same word on states alike: CH_STAT shows only the cursor and the flag (R39). -/
theorem State.Alike.busRead (a : WordIndex) : busRead cfg a s = busRead cfg a t := by
  rw [h.eq_withChannels]
  unfold Machine.busRead
  cases hr : regAt cfg a with
  | none => rfl
  | some r =>
    cases r
    case chStat c =>
      obtain ⟨-, hcur, hcont, -⟩ := h.channel c
      have hc : (s.withChannels t.channels).channel c = t.channel c := rfl
      simp only [readReg, chStatWord, hc, hcur, hcont]
    all_goals rfl

/-- Issuing a word ends alike on states alike. -/
theorem State.Alike.issueCommand (hs : s.ChannelsOk Config.hw) (w : Word) :
    OutcomesAlike (issueCommand w s) (issueCommand w t) := by
  unfold Machine.issueCommand
  cases decodeWord w with
  | ok i => exact h.exec hs i
  | error e => exact .next h.raiseIllegalCommand

/-- A host write ends alike on states alike. -/
theorem State.Alike.busWrite (hs : s.ChannelsOk Config.hw) (a : WordIndex) (w : Word) :
    OutcomesAlike (busWrite Config.hw a w s) (busWrite Config.hw a w t) := by
  have hcommand := h.issueCommand hs w
  rw [h.eq_withChannels] at hcommand ⊢
  have stored (u : State) (hu : u.channels = s.channels) :
      OutcomesAlike (.next u) (.next (u.withChannels t.channels)) :=
    .next (h.of_channels (sameButChannels_withChannels _ _) hu rfl)
  unfold Machine.busWrite
  cases regAt Config.hw a with
  | none => exact stored s rfl
  | some r =>
    cases r
    case cmd => exact hcommand
    case arg => exact stored { s with arg := w } rfl
    case inCell j => exact stored { s with mem := Memory.write s.mem (inBase + j) (w.extractLsb' 0 8) } rfl
    all_goals exact stored s rfl

/-- A step ends alike on states alike. -/
theorem State.Alike.step (hs : s.ChannelsOk Config.hw) : OutcomesAlike (step s) (step t) := by
  have hread (a : WordIndex) : Machine.busRead Config.hw a s = Machine.busRead Config.hw a t := h.busRead a
  have hqueue (rest : List HostEvent) :
      State.Alike { s with hostQueue := rest } { t with hostQueue := rest } := by
    rw [h.eq_withChannels]
    exact h.of_channels (sameButChannels_withChannels { s with hostQueue := rest } t.channels) rfl rfl
  have ht : t.hostQueue = s.hostQueue := by rw [h.eq_withChannels]; rfl
  rcases step_cases s with ⟨hq, e⟩ | ⟨a, rest, hq, e⟩ | ⟨a, w, rest, hq, e⟩ | ⟨rest, hq, e⟩
  · rw [e, step_idle (ht.trans hq)]
    exact .next h
  · rw [e, step_read (ht.trans hq), hread a]
    obtain ⟨⟨harg, hresult, hck, hlen, h0, h1, hmem, -, -, hcycle⟩, hch⟩ := hqueue rest
    exact .next ⟨⟨harg, hresult, hck, hlen, h0, h1, hmem, rfl, rfl, hcycle⟩, hch⟩
  · rw [e, step_write (ht.trans hq)]
    exact (hqueue rest).busWrite hs a w
  · rw [e, step_powerOn (ht.trans hq), show t.powerCycle = s.powerCycle by rw [h.eq_withChannels]; rfl]
    exact .next (.refl _)

end StateAlike

/-- Settles O19: the decode pass reads the buffered bytes alone and CH_STAT shows the cursor and the flag, so every
step ends alike on states alike. -/
theorem cellsAboveTheCursorAreUnobservable : Obligations.CellsAboveTheCursorAreUnobservable := by
  intro s t hs _ h
  have hstep := h.step hs.channels
  exact ⟨fun s' e => (e ▸ hstep).of_next, fun f e => (e ▸ hstep).of_fault⟩

end Sys2Proof.Machine
end

section
/-! Which command writes which register (10_state.md R31 to R36, 70_reset_and_hazards.md R247), and the states a decode
pass can end in (R28). -/

namespace Sys2Proof.Machine

/-! ## One writer for each register -/

/-- The registers a command may write besides RESULT: CK by CK_COMPUTE, ENC_LEN by BUILD, PKT0 and PKT1 by a DECODE that
gives PACKET (R33 to R36). -/
structure WritesOwnRegisters (i : Instr) (s t : State) : Prop where
  ck : t.ck = s.ck ∨ ∃ len, i = .ckCompute len
  encLen : t.encLen = s.encLen ∨ ∃ len, i = .build len
  packet : (t.pkt0 = s.pkt0 ∧ t.pkt1 = s.pkt1) ∨ ∃ ch len, i = .decode ch len ∧ t.result = 0x00000001#32

/-- A command that keeps the four registers writes none that is not its own. -/
theorem WritesOwnRegisters.of_kept {i : Instr} {s t : State} (hck : t.ck = s.ck) (hlen : t.encLen = s.encLen)
    (h0 : t.pkt0 = s.pkt0) (h1 : t.pkt1 = s.pkt1) : WritesOwnRegisters i s t :=
  ⟨.inl hck, .inl hlen, .inl ⟨h0, h1⟩⟩

/-- Every command writes its own registers only. -/
theorem exec_writesOwnRegisters {i : Instr} {s t : State} (he : exec i s = .next t) : WritesOwnRegisters i s t := by
  cases i with
  | decode ch len =>
    rcases execDecodeIn_cases (cfg := Config.hw) ch len s with
      ⟨-, e⟩ | ⟨-, -, e⟩ | ⟨-, -, e⟩ | ⟨-, -, chunk, -, e⟩ <;> cases e.symm.trans he
    · exact .of_kept rfl rfl rfl rfl
    · exact .of_kept rfl rfl rfl rfl
    · have hpacket : codeWord .packet = 0x00000001#32 := by decide
      cases decodeChunk_effect (cfg := Config.hw) s ch.toNat chunk with
      | result x w eq => rw [eq]; exact .of_kept rfl rfl rfl rfl
      | packet x pkt eq _ _ => rw [eq]; exact ⟨.inl rfl, .inl rfl, .inr ⟨ch, len, rfl, hpacket⟩⟩
  | reset ch =>
    rcases execResetIn_cases (cfg := Config.hw) ch s with ⟨-, e⟩ | ⟨-, e⟩ <;> cases e.symm.trans he <;>
      exact .of_kept rfl rfl rfl rfl
  | build len =>
    rcases execBuildIn_cases (cfg := Config.hw) len s with
      ⟨-, e⟩ | ⟨-, -, e⟩ | ⟨-, -, -, e⟩ | ⟨-, -, p, -, e⟩ <;> cases e.symm.trans he
    · exact .of_kept rfl rfl rfl rfl
    · exact ⟨.inl rfl, .inr ⟨len, rfl⟩, .inl ⟨rfl, rfl⟩⟩
    · exact ⟨.inl rfl, .inr ⟨len, rfl⟩, .inl ⟨rfl, rfl⟩⟩
  | ckCompute len =>
    rcases execCkComputeIn_cases (cfg := Config.hw) len s with ⟨-, e⟩ | ⟨-, -, e⟩ | ⟨-, p, -, e⟩ <;>
      cases e.symm.trans he
    · exact .of_kept rfl rfl rfl rfl
    · exact ⟨.inr ⟨len, rfl⟩, .inl rfl, .inl ⟨rfl, rfl⟩⟩
  | ckVerify => cases he; exact .of_kept rfl rfl rfl rfl

/-- Issuing a word writes a register other than RESULT only where the word decodes to that register's own command. -/
theorem issueCommand_writers {w : Word} {s t : State} (he : issueCommand w s = .next t) :
    t.arg = s.arg ∧ (t.ck = s.ck ∨ ∃ len, decodeWord w = .ok (.ckCompute len)) ∧
      (t.encLen = s.encLen ∨ ∃ len, decodeWord w = .ok (.build len)) ∧
      ((t.pkt0 = s.pkt0 ∧ t.pkt1 = s.pkt1) ∨
        ∃ ch len, decodeWord w = .ok (.decode ch len) ∧ t.result = 0x00000001#32) := by
  rcases issueCommand_cases w s with ⟨i, hi, e⟩ | ⟨-, e⟩
  · have hexec := e.symm.trans he
    obtain ⟨hck, hlen, hpkt⟩ := exec_writesOwnRegisters hexec
    refine ⟨(exec_untouched hexec).arg, hck.imp_right ?_, hlen.imp_right ?_, hpkt.imp_right ?_⟩
    · rintro ⟨len, rfl⟩; exact ⟨len, hi⟩
    · rintro ⟨len, rfl⟩; exact ⟨len, hi⟩
    · rintro ⟨ch, len, rfl, hr⟩; exact ⟨ch, len, hi, hr⟩
  · cases e.symm.trans he
    exact ⟨rfl, .inl rfl, .inl rfl, .inl ⟨rfl, rfl⟩⟩

/-- Settles O23: the events that leave a register alone are gone through once; what is left is its own writer. -/
theorem eachRegisterHasOneWriter : Obligations.EachRegisterHasOneWriter := by
  intro s t hst hno
  rcases step_cases s with ⟨-, e⟩ | ⟨a, rest, -, e⟩ | ⟨a, w, rest, hq, e⟩ | ⟨rest, hq, -⟩
  · cases e.symm.trans hst; simp
  · cases e.symm.trans hst; simp
  · have hbus := e.symm.trans hst
    rcases busWrite_cases Config.hw a w { s with hostQueue := rest } with ⟨rfl, e⟩ | ⟨rfl, e⟩ | ⟨j, -, -, e⟩ | e
    · obtain ⟨harg, hck, hlen, hpkt⟩ := issueCommand_writers (e.symm.trans hbus)
      refine ⟨fun h => absurd harg h, fun h => ?_, fun h => ?_, fun h => ?_, fun _ => ⟨w, rest, hq⟩⟩
      · obtain ⟨len, hw⟩ := hck.resolve_left h
        exact ⟨w, rest, len, hq, hw⟩
      · obtain ⟨len, hw⟩ := hlen.resolve_left h
        exact ⟨w, rest, len, hq, hw⟩
      · obtain ⟨ch, len, hw, hr⟩ := hpkt.resolve_left fun ⟨h0, h1⟩ => h.elim (absurd h0) (absurd h1)
        exact ⟨w, rest, ch, len, hq, hw, hr⟩
    · cases e.symm.trans hbus
      refine ⟨fun _ => ⟨w, rest, hq⟩, ?_⟩
      simp
    · cases e.symm.trans hbus; simp
    · cases e.symm.trans hbus; simp
  · exact absurd hq (hno rest)

/-! ## The states a decode pass can end in -/

/-- The states MC uses (R28). -/
theorem active_mc_iff {st : DecodeState} :
    st.active .mc = true ↔ st = .readHeader ∨ st = .readPayload ∨ st = .readSuffix := by
  cases st <;> simp [DecodeState.active]

/-- A BM input whose pass ends in state `st`: a frame with an empty payload, cut off there, but for ReadPayload, which
needs a payload to come. -/
def bmInputEndingIn : DecodeState → List Byte
  | .readHeader => []
  | .readRegister => [0xDD#8]
  | .checkStatus => [0xDD#8, 0x03#8]
  | .readLength => [0xDD#8, 0x03#8, 0x00#8]
  | .readPayload => [0xDD#8, 0x03#8, 0x00#8, 0x01#8]
  | .checksumHigh => [0xDD#8, 0x03#8, 0x00#8, 0x00#8]
  | .checksumLow => [0xDD#8, 0x03#8, 0x00#8, 0x00#8, 0xFF#8]
  | .readSuffix => [0xDD#8, 0x03#8, 0x00#8, 0x00#8, 0xFF#8, 0xFD#8]

/-- Every state is reached on BM. -/
theorem pass_bmInputEndingIn (cfg : Config) (st : DecodeState) :
    ∃ h, pass cfg .bm (bmInputEndingIn st) = .short st h := by
  cases st <;> exact ⟨_, rfl⟩

/-- Settles O44: a pass keeps to the profile's active states at every byte, and a cut-off frame ends in each of them. -/
theorem passStaysInActiveStates : Obligations.PassStaysInActiveStates := by
  refine ⟨fun cfg input st h hpass => ?_, fun cfg st => ⟨_, pass_bmInputEndingIn cfg st⟩, fun cfg st hst => ?_⟩
  · have hok := pass_ok (cfg := cfg) (prof := .mc) input
    rw [hpass] at hok
    obtain ⟨hactive, -⟩ := hok
    exact active_mc_iff.mp hactive
  · rcases hst with rfl | rfl | rfl
    · exact ⟨[], _, rfl⟩
    · exact ⟨[0xAA#8], _, rfl⟩
    · exact ⟨0xAA#8 :: List.replicate 9 0x00#8, _, rfl⟩

end Sys2Proof.Machine
end

section
/-! What a host reads and writes at each index (10_state.md R29 to R42, R45). -/

namespace Sys2Proof.Machine

variable {cfg : Config}

/-! ## Where a register stands, and what a read of a cell answers -/

/-- A window cell as a word is the byte zero-extended. -/
theorem cellWord_eq (b : Byte) : cellWord b = BitVec.ofNat 32 b.toNat := (BitVec.ofNat_toNat 32 b).symm

/-- A read of CH_STAT[c] answers that channel's status (R39). -/
theorem busRead_chStat {c : Nat} (hc : c < cfg.nch) (hn : c < 16) (s : State) :
    busRead cfg (BitVec.ofNat 11 (0x010 + c)) s = chStatWord cfg s c :=
  busRead_of_at (r := .chStat c) ⟨by simp; omega, hc, hn⟩ s

/-- A read of PKT_PAYLOAD[j] answers the byte the cell holds (R40). -/
theorem busRead_pktPayload {j : Nat} {b : Byte} {s : State} (hj : j < 256)
    (hb : Memory.read s.mem (0x100 + j) = some b) :
    busRead cfg (BitVec.ofNat 11 (0x100 + j)) s = BitVec.ofNat 32 b.toNat := by
  rw [busRead_of_at (r := .pktPayload j) ⟨by simp; omega, hj⟩, ← cellWord_eq]
  simp only [readReg, pktBase, hb, Option.getD_some]

/-- A read of ENC_OUT[j] answers the byte the cell holds (R41). -/
theorem busRead_encOut {j : Nat} {b : Byte} {s : State} (hj : j < cfg.encCap) (hn : j < 512)
    (hb : Memory.read s.mem (0x200 + j) = some b) :
    busRead cfg (BitVec.ofNat 11 (0x200 + j)) s = BitVec.ofNat 32 b.toNat := by
  rw [busRead_of_at (r := .encOut j) ⟨by simp; omega, hj, hn⟩, ← cellWord_eq]
  simp only [readReg, encBase, hb, Option.getD_some]

/-- A read of IN[j] answers a byte in bits 7:0, written or not (R42). -/
theorem busRead_inCell {j : Nat} (hj : j < cfg.inCap) (hn : j < 1024) (s : State) :
    busRead cfg (BitVec.ofNat 11 (0x400 + j)) s = BitVec.ofNat 32 (inReadByte s j).toNat := by
  rw [busRead_of_at (r := .inCell j) ⟨by simp; omega, hj, hn⟩, ← cellWord_eq]
  rfl

/-- The byte of a written IN cell is what the cell holds. -/
theorem inReadByte_written {s : State} {j : Nat} {b : Byte} (hb : Memory.read s.mem (0x400 + j) = some b) :
    inReadByte s j = b := by
  simp only [inReadByte, inBase, hb]

/-! ## Host writes and reads -/

/-- Settles O9: ARG stores the whole word; IN[j] stores the low byte, by the law of a read after a write. -/
theorem hostWritesReachArgAndIn : Obligations.HostWritesReachArgAndIn := by
  refine ⟨fun s v rest hq => ⟨step_write hq, fun rest' => by rw [step_read rfl]; rfl⟩, fun s j v rest hj hq => ?_⟩
  refine ⟨Memory.write s.mem (0x400 + j) (v.extractLsb' 0 8), ?_, fun a ha => read_write_other _ _ ha, fun rest' => ?_⟩
  · rw [step_write hq, busWrite_inCell hj (by omega)]
    rfl
  · rw [step_read rfl, busRead_inCell hj (by omega), inReadByte_written (read_write_same _ _ _),
      BitVec.extractLsb'_toNat]
    rfl

/-- Settles O10: the read answers the free power-up byte. -/
theorem unwrittenCellReadsAsSomeByte : Obligations.UnwrittenCellReadsAsSomeByte := by
  intro s j rest hj _ hq
  exact ⟨inReadByte s j, by rw [step_read hq, busRead_inCell hj (by omega)]⟩

/-- Settles O56: each register's index is in the map, and the cells below IN always hold a byte. -/
theorem hostReadsAnswerTheContents : Obligations.HostReadsAnswerTheContents := by
  intro s
  refine ⟨fun a rest hq => step_read hq, rfl, rfl, rfl, rfl, rfl, rfl, fun j hj => ?_, fun j hj => ?_,
    fun j b hj hb => ?_⟩
  · obtain ⟨b, hb⟩ := read_below_in s.mem (a := 0x100 + j) (by unfold inBase; omega)
    exact ⟨b, hb, busRead_pktPayload hj hb⟩
  · obtain ⟨b, hb⟩ := read_below_in s.mem (a := 0x200 + j) (by unfold inBase; omega)
    exact ⟨b, hb, busRead_encOut hj (by omega) hb⟩
  · rw [busRead_inCell hj (by omega), inReadByte_written hb]

/-! ## The registers that show the parameters and the channels -/

/-- Settles O11: the two words as numbers, and both indices are read-only. -/
theorem configRegistersHoldTheParameters : Obligations.ConfigRegistersHoldTheParameters := by
  intro cfg s hcfg
  refine ⟨toNat_config0Word hcfg, (toNat_config1Word hcfg).trans ?_, fun w => ⟨?_, ?_⟩⟩
  · cases cfg.seed <;> rfl
  · exact busWrite_readOnly hcfg (.inl ⟨by decide, by decide⟩) w s
  · exact busWrite_readOnly hcfg (.inl ⟨by decide, by decide⟩) w s

/-- Settles O12: CH_STAT[c] as a number, the cursor within its nine bits. -/
theorem channelStatusShowsTheChannel : Obligations.ChannelStatusShowsTheChannel := by
  intro cfg s c hcfg hc hcur
  obtain ⟨-, hn, -, -, hb, -, -, -, -⟩ := hcfg
  rw [busRead_chStat hc (by omega), toNat_chStatWord (by omega)]
  cases cfg.profile c <;> rfl

/-- Settles O13: the registers by evaluation; the windows because nothing is listed after reset. -/
theorem resetReadsTheSpecifiedValues : Obligations.ResetReadsTheSpecifiedValues := by
  have hzero {a : Nat} (ha : a < inBase) : Memory.read State.reset.mem a = some 0x00#8 := if_pos ha
  have hnone {a : Nat} (ha : ¬ a < inBase) : Memory.read State.reset.mem a = none := if_neg ha
  refine ⟨?_, rfl, rfl, rfl, fun j hj => ?_, fun j hj => ?_, fun j hj => ?_, fun c hc => ?_⟩
  · simp only [List.forall_mem_cons, List.not_mem_nil, false_implies, implies_true, and_true]
    exact ⟨rfl, rfl, rfl, rfl, rfl, rfl, rfl, rfl, rfl, rfl⟩
  · exact busRead_pktPayload hj (hzero (by unfold inBase; omega))
  · exact busRead_encOut hj (by omega) (hzero (by unfold inBase; omega))
  · exact hnone (by unfold inBase; omega)
  · interval_cases c <;> exact ⟨rfl, rfl⟩

end Sys2Proof.Machine
end

section
/-! What a host access leaves alone (20_memory.md R62, R63, R65): reserved and read-only indices, the bits no rule names,
and the word a read answers while nothing writes its register. -/

namespace Sys2Proof.Machine

variable {cfg : Config} {a b : WordIndex}

/-! ## Reserved indices -/

theorem busRead_reserved (h : ReservedIndex cfg a) (s : State) : busRead cfg a s = 0x00000000#32 := by
  unfold busRead; rw [regAt_reserved h]

theorem busWrite_reserved (h : ReservedIndex cfg a) (w : Word) (s : State) : busWrite cfg a w s = .next s := by
  unfold busWrite; rw [regAt_reserved h]

/-- Settles O6: the map names nothing at a reserved index. -/
theorem reservedIndicesReadZeroAndIgnoreWrites : Obligations.ReservedIndicesReadZeroAndIgnoreWrites := by
  intro s a v rest h
  exact ⟨fun hq => by rw [step_read hq, busRead_reserved h], fun hq => by rw [step_write hq, busWrite_reserved h]⟩

/-! ## Unnamed bits -/

/-- A number below `2 ^ k` has no bit in the mask of the bits from `k` up. -/
theorem and_highMask {w m : Word} {k : Nat} (hw : w.toNat < 2 ^ k) (hm : m = BitVec.allOnes 32 <<< k) :
    w &&& m = 0#32 := by
  subst hm
  ext i hi
  by_cases hik : i < k
  · simp [hik]
  · have hbit : w.getLsbD i = false :=
      Nat.testBit_lt_two_pow (Nat.lt_of_lt_of_le hw (Nat.pow_le_pow_right (by decide) (by omega)))
    simp [← BitVec.getLsbD_eq_getElem, hbit]

/-- A word whose bits from `k` up are 0 is below `2 ^ k`. -/
theorem toNat_lt_of_ushiftRight {w : Word} {k : Nat} (h : w >>> k = 0#32) : w.toNat < 2 ^ k := by
  have hdiv : w.toNat / 2 ^ k = 0 := by
    rw [← Nat.shiftRight_eq_div_pow, ← BitVec.toNat_ushiftRight, h]; rfl
  exact (Nat.div_eq_zero_iff_lt (Nat.two_pow_pos k)).mp hdiv

/-- A window cell shows bits 31:8 zero (R40 to R42). -/
theorem cellWord_unnamed (x : Byte) : cellWord x &&& 0xFFFFFF00#32 = 0#32 :=
  and_highMask (k := 8) (by rw [cellWord, toNat_setWidth_byte]; exact x.isLt) (by decide)

/-- CH_STAT[c] shows bits 31:11 zero: the cursor fits its nine bits (R39). -/
theorem chStatWord_unnamed {s : State} {c : Nat} (h : (s.channel c).cur < 2 ^ 9) :
    chStatWord cfg s c &&& 0xFFFFF800#32 = 0#32 := by
  refine and_highMask (k := 11) ?_ (by decide)
  have hcont := Bool.toNat_le (s.channel c).cont
  have hprof := Bool.toNat_le (profileBit (cfg.profile c))
  rw [toNat_chStatWord h]
  omega

/-- In a state that meets the invariant every register of the map reads 0 in its unnamed bits. -/
theorem readReg_unnamed {s : State} {r : HostReg} {n : Nat} (h : s.Inv Config.hw) (hr : r.At Config.hw n) :
    readReg Config.hw s r &&& unnamedBits r = 0#32 := by
  cases r with
  | cmd => exact BitVec.zero_and
  | arg => exact BitVec.and_zero
  | result =>
    obtain ⟨hhigh, -⟩ := h.result
    exact and_highMask (toNat_lt_of_ushiftRight hhigh) (by decide)
  | ck =>
    obtain ⟨hhigh, -⟩ := h.outputs
    exact and_highMask (toNat_lt_of_ushiftRight hhigh) (by decide)
  | encLen =>
    refine and_highMask (k := 9) ?_ (by decide)
    obtain ⟨-, hzero | ⟨-, hcap⟩⟩ := h.outputs
    · simp [readReg, hzero]
    · exact Nat.lt_of_le_of_lt hcap (by decide)
  | pkt0 =>
    obtain ⟨hhigh, -⟩ := h.packet
    exact and_highMask (toNat_lt_of_ushiftRight hhigh) (by decide)
  | pkt1 =>
    obtain ⟨-, -, -, -, hmask, -⟩ := h.packet
    exact hmask
  | config0 => exact (by decide : config0Word Config.hw &&& 0xFE00FE00#32 = 0#32)
  | config1 => exact (by decide : config1Word Config.hw &&& 0xFEE0F800#32 = 0#32)
  | chStat c =>
    obtain ⟨-, hc, -⟩ := hr
    obtain ⟨-, hok⟩ := h.channels
    obtain ⟨-, hcur, -⟩ := hok c hc
    exact chStatWord_unnamed (Nat.lt_of_le_of_lt hcur (by decide))
  | pktPayload j => exact cellWord_unnamed _
  | encOut j => exact cellWord_unnamed _
  | inCell j => exact cellWord_unnamed _

/-- Outside CMD a write ignores the unnamed bits of its word: ARG has none, an IN cell takes bits 7:0. -/
theorem busWrite_unnamed {r : HostReg} (hr : regAt cfg a = some r) (hcmd : r ≠ .cmd) (w : Word) (s : State) :
    busWrite cfg a (w &&& ~~~ unnamedBits r) s = busWrite cfg a w s := by
  unfold busWrite
  rw [hr]
  cases r
  case cmd => exact absurd rfl hcmd
  case arg =>
    have hw : w &&& ~~~ unnamedBits .arg = w := BitVec.and_allOnes
    simp only [hw]
  case inCell j =>
    have hlow : (~~~ 0xFFFFFF00#32 : Word).extractLsb' 0 8 = BitVec.allOnes 8 := by decide
    simp only [unnamedBits, BitVec.extractLsb'_and, hlow, BitVec.and_allOnes]
  all_goals rfl

/-- Settles O7: the invariant bounds each register, and no write stores a bit that is not named. -/
theorem readOnlyRegistersAndUnnamedBits : Obligations.ReadOnlyRegistersAndUnnamedBits := by
  refine ⟨fun s a v rest h hq => ?_, fun s rest hq => step_read hq, fun s a r rest h hr hq => ?_,
    fun s a r v rest hr hcmd => ?_⟩
  · rw [step_write hq, busWrite_readOnly hw_legal h]
  · have hat := regAt_some hr
    exact ⟨_, step_read hq, by rw [busRead_of_at hat]; exact readReg_unnamed h hat⟩
  · rw [step_write rfl, step_write rfl, busWrite_unnamed hr hcmd]

/-! ## Reads that repeat -/

/-- A read answers alike in two states that hold the register at its index alike. -/
theorem busRead_congr {s t : State} (h : ∀ r : HostReg, r.At cfg a.toNat → readReg cfg s r = readReg cfg t r) :
    busRead cfg a s = busRead cfg a t := by
  unfold busRead
  cases hr : regAt cfg a with
  | none => rfl
  | some r => exact h r (regAt_some hr)

/-- A read does not see the queue or the last answer. -/
theorem busRead_hostFields (s : State) (queue : List HostEvent) (answer : Option Word) :
    busRead cfg a { s with hostQueue := queue, readData := answer } = busRead cfg a s :=
  busRead_congr fun r _ => by cases r <;> rfl

/-- Only ARG's own index shows a write to ARG. -/
theorem busRead_arg_other (h : a ≠ 0x001#11) (w : Word) (s : State) :
    busRead cfg a { s with arg := w } = busRead cfg a s :=
  busRead_congr fun r hr => by
    cases r
    case arg => exact absurd (BitVec.eq_of_toNat_eq (y := 0x001#11) hr) h
    all_goals rfl

/-- Only the cell's own index shows a write to an IN cell. -/
theorem busRead_inCell_other {j : Nat} (h : a.toNat ≠ 0x400 + j) (x : Byte) (s : State) :
    busRead cfg a { s with mem := Memory.write s.mem (inBase + j) x } = busRead cfg a s :=
  busRead_congr fun r hr => by
    cases r <;> simp only [HostReg.At] at hr
    case pktPayload i =>
      simp only [readReg, read_write_other s.mem x (show pktBase + i ≠ inBase + j by unfold pktBase inBase; omega)]
    case encOut i =>
      simp only [readReg, read_write_other s.mem x (show encBase + i ≠ inBase + j by unfold encBase inBase; omega)]
    case inCell i =>
      simp only [readReg, inReadByte, read_write_other s.mem x (show inBase + i ≠ inBase + j by omega)]
    all_goals rfl

/-- ARG and the IN cells, which a host write stores to, are neither read-only nor reserved. -/
theorem not_ignored_of_stored (hcfg : cfg.Legal) (h : a = 0x001#11 ∨ ∃ j < cfg.inCap, a.toNat = 0x400 + j) :
    ¬ (ReadOnlyIndex cfg a ∨ ReservedIndex cfg a) := by
  obtain ⟨-, hn, -, -, -, -, he, -, -⟩ := hcfg
  unfold ReadOnlyIndex ReservedIndex
  obtain rfl | ⟨j, hj, ha⟩ := h
  · simp only [BitVec.toNat_ofNat]; omega
  · omega

/-- A write that may stand between two reads of `a` stores nothing a read of `a` shows. -/
theorem busWrite_leavesIndex {w : Word} (hcfg : cfg.Legal) (h : LeavesIndex cfg a (.write b w)) (s : State) :
    ∃ t, busWrite cfg b w s = .next t ∧ t.hostQueue = s.hostQueue ∧ busRead cfg a t = busRead cfg a s := by
  obtain ⟨hcmd, hown⟩ := h
  have hne (hb : b = 0x001#11 ∨ ∃ j < cfg.inCap, b.toNat = 0x400 + j) : a ≠ b := by
    rintro rfl
    exact not_ignored_of_stored hcfg hb (hown rfl)
  obtain ⟨hb, -⟩ | ⟨rfl, e⟩ | ⟨j, hb, hj, e⟩ | e := busWrite_cases cfg b w s
  · exact absurd hb hcmd
  · exact ⟨_, e, rfl, busRead_arg_other (hne (.inl rfl)) w s⟩
  · have hab : a.toNat ≠ 0x400 + j := fun h => hne (.inr ⟨j, hj, hb⟩) (BitVec.eq_of_toNat_eq (h.trans hb.symm))
    exact ⟨_, e, rfl, busRead_inCell_other hab _ s⟩
  · exact ⟨s, e, rfl, rfl⟩

/-- An event that may stand between two reads of `a` is served, and `a` then reads as before. -/
theorem step_leavesIndex {e : HostEvent} {s : State} {rest : List HostEvent} (h : LeavesIndex Config.hw a e)
    (hq : s.hostQueue = e :: rest) :
    ∃ t, step s = .next t ∧ t.hostQueue = rest ∧ busRead Config.hw a t = busRead Config.hw a s := by
  cases e with
  | read b => exact ⟨_, step_read hq, rfl, busRead_hostFields s _ _⟩
  | write b w =>
    obtain ⟨t, e, htq, hread⟩ := busWrite_leavesIndex hw_legal h { s with hostQueue := rest }
    exact ⟨t, (step_write hq).trans e, htq, hread.trans (busRead_hostFields s _ s.readData)⟩
  | powerOnReset => exact h.elim

/-- A read of `a` after such events answers what `a` reads as before them; after reads alone nothing else differs. -/
theorem run_leavesIndex_read {rest : List HostEvent} (between : List HostEvent) :
    ∀ {s : State}, (∀ e ∈ between, LeavesIndex Config.hw a e) → s.hostQueue = between ++ .read a :: rest →
      ∃ t, Host.Core.run core (between.length + 1) s = .next t ∧
        t.readData = some (busRead Config.hw a s) ∧ t.hostQueue = rest ∧
        ((∀ e ∈ between, ∃ b, e = .read b) →
          t = { s with hostQueue := rest, readData := some (busRead Config.hw a s) }) := by
  induction between with
  | nil => exact fun _ hq => ⟨_, run_succ_of_next (step_read hq), rfl, rfl, fun _ => rfl⟩
  | cons e between ih =>
    intro s hall hq
    obtain ⟨he, hall⟩ := List.forall_mem_cons.mp hall
    obtain ⟨u, hstep, huq, hread⟩ := step_leavesIndex he hq
    obtain ⟨t, hrun, hdata, htq, hreads⟩ := ih hall huq
    refine ⟨t, (run_succ_of_next hstep).trans hrun, hread ▸ hdata, htq, fun hr => ?_⟩
    obtain ⟨⟨b, rfl⟩, htail⟩ := List.forall_mem_cons.mp hr
    have hu := Host.Outcome.next.inj (hstep.symm.trans (step_read hq))
    rw [hreads htail, hread, hu]

/-- Settles O8: no event between the two reads changes what the index reads as. -/
theorem readsRepeatAndChangeNothing : Obligations.ReadsRepeatAndChangeNothing := by
  intro s a between rest hall hq
  have hsame := busRead_hostFields (cfg := Config.hw) (a := a) s (between ++ .read a :: rest)
    (some (busRead Config.hw a s))
  obtain ⟨t, hrun, hdata, htq, hreads⟩ := run_leavesIndex_read (rest := rest)
    (s := { s with hostQueue := between ++ .read a :: rest, readData := some (busRead Config.hw a s) }) between hall rfl
  rw [hsame] at hdata hreads
  exact ⟨_, t, step_read hq, (run_succ_of_next (step_read hq)).trans hrun, hdata, htq, hreads⟩

end Sys2Proof.Machine
end

section
/-! The command word (30_encoding.md R81 to R90, R98): the encoder and the decoder are inverse to each other on the legal
words, and a write to CMD runs exactly those. -/

namespace Sys2Proof

variable {cfg : Config}

/-! ## Encoder and decoder -/

/-- The decoder gives back every well-formed instruction from its word (R82, R98). -/
theorem decodeWordIn_encode {i : Instr} (h : i.wellFormedIn cfg = true) : decodeWordIn cfg (encode i) = .ok i := by
  rw [decodeWordIn, fieldRsv_encode, if_pos rfl, decodeOp, fieldOp_encode, fieldCh_encode, fieldLen_encode]
  cases i with
  | decode ch len =>
    obtain ⟨hch, hlen⟩ := Bool.and_eq_true_iff.mp h
    simp [Instr.opcode, Instr.channelField, Instr.lengthField, hch, hlen]
  | reset ch =>
    have hch : channelOk cfg ch = true := h
    simp [Instr.opcode, Instr.channelField, Instr.lengthField, hch]
  | build len =>
    have hlen : lengthOk cfg len = true := h
    simp [Instr.opcode, Instr.channelField, Instr.lengthField, hlen]
  | ckCompute len =>
    have hlen : lengthOk cfg len = true := h
    simp [Instr.opcode, Instr.channelField, Instr.lengthField, hlen]
  | ckVerify => rfl

/-- A word with RSV 0 whose other fields are those of an instruction is that instruction's word (R81). -/
theorem encode_of_fields {w : Word} {i : Instr} (hrsv : fieldRsv w = 0#4) (hop : fieldOp w = i.opcode)
    (hch : fieldCh w = i.channelField) (hlen : fieldLen w = i.lengthField) : encode i = w := by
  rw [encode, ← hop, ← hch, ← hlen, commandWord_of_fields hrsv]

/-- The words that decode to an instruction are the words of the well-formed ones (R89, R98). -/
theorem decodeWordIn_eq_ok_iff {w : Word} {i : Instr} :
    decodeWordIn cfg w = .ok i ↔ encode i = w ∧ i.wellFormedIn cfg = true := by
  constructor
  · intro h
    obtain ⟨hrsv, hop, hch, hlen, hwf⟩ := decodeWordIn_ok h
    exact ⟨encode_of_fields hrsv hop hch hlen, hwf⟩
  · rintro ⟨rfl, hwf⟩
    exact decodeWordIn_encode hwf

/-- Settles O2: each field of the word is the operand it was composed of, and the operand passes its check. -/
theorem encodedCommandDecodesBack : Obligations.EncodedCommandDecodesBack := fun _ _ h => decodeWordIn_encode h

/-- Settles O3: the decoder fixes all four fields of the word. -/
theorem decodedWordEncodesBack : Obligations.DecodedWordEncodesBack := fun _ _ _ h => decodeWordIn_eq_ok_iff.mp h

/-- Settles O1: the encoder evaluated gives the worked words, so they decode back; the illegal ones by evaluation. -/
theorem workedCommandWords : Obligations.WorkedCommandWords := by
  have worked {i : Instr} {w : Word} (he : encode i = w) (hwf : i.wellFormedIn Config.hw = true) :
      encode i = w ∧ decodeWord w = .ok i := ⟨he, decodeWordIn_eq_ok_iff.mpr ⟨he, hwf⟩⟩
  refine ⟨worked (by decide) rfl, worked (by decide) rfl, worked (by decide) rfl, worked (by decide) rfl,
    worked (by decide) rfl, worked (by decide) rfl, ?_⟩
  simp only [List.forall_mem_cons, List.not_mem_nil, false_implies, implies_true, and_true]
  decide

/-! ## Legal words -/

open Machine

/-- The word of a well-formed instruction meets the four conditions of R89. -/
theorem legalWord_encode {i : Instr} (h : i.wellFormedIn cfg = true) : LegalWord cfg (encode i) := by
  unfold LegalWord
  simp only [← toNat_fieldOp, ← toNat_fieldCh, ← toNat_fieldRsv, ← toNat_fieldLen, fieldOp_encode, fieldCh_encode,
    fieldRsv_encode, fieldLen_encode]
  cases i with
  | decode ch len =>
    obtain ⟨hch, hlen⟩ := Bool.and_eq_true_iff.mp h
    simp [Instr.opcode, Instr.channelField, Instr.lengthField, of_decide_eq_true hch, of_decide_eq_true hlen]
  | reset ch => simp [Instr.opcode, Instr.channelField, Instr.lengthField, of_decide_eq_true h]
  | build len => simp [Instr.opcode, Instr.channelField, Instr.lengthField, of_decide_eq_true h]
  | ckCompute len => simp [Instr.opcode, Instr.channelField, Instr.lengthField, of_decide_eq_true h]
  | ckVerify => simp [Instr.opcode, Instr.channelField, Instr.lengthField]

/-- A word that meets the four conditions of R89 is the word of a well-formed instruction: the one its OP names. -/
theorem exists_encode_of_legalWord {w : Word} (h : LegalWord cfg w) :
    ∃ i, encode i = w ∧ i.wellFormedIn cfg = true := by
  unfold LegalWord at h
  simp only [← toNat_fieldOp, ← toNat_fieldCh, ← toNat_fieldRsv, ← toNat_fieldLen, ← eq_zero_iff_toNat] at h
  obtain ⟨hop, hrsv, hch, hlen⟩ := h
  have opcode {n : Nat} (hn : (fieldOp w).toNat = n) : fieldOp w = BitVec.ofNat 8 n := by
    rw [← hn, BitVec.ofNat_toNat, BitVec.setWidth_eq]
  obtain hop | hop | hop | hop | hop := hop
  · rw [hop, if_pos (by decide)] at hch hlen
    exact ⟨.decode (fieldCh w) (fieldLen w), encode_of_fields hrsv (opcode hop) rfl rfl,
      Bool.and_eq_true_iff.mpr ⟨decide_eq_true hch, decide_eq_true hlen⟩⟩
  · rw [hop, if_pos (by decide)] at hch
    rw [hop, if_neg (by decide)] at hlen
    exact ⟨.reset (fieldCh w), encode_of_fields hrsv (opcode hop) rfl hlen, decide_eq_true hch⟩
  · rw [hop, if_neg (by decide)] at hch
    rw [hop, if_pos (by decide)] at hlen
    exact ⟨.build (fieldLen w), encode_of_fields hrsv (opcode hop) hch rfl, decide_eq_true hlen⟩
  · rw [hop, if_neg (by decide)] at hch
    rw [hop, if_pos (by decide)] at hlen
    exact ⟨.ckCompute (fieldLen w), encode_of_fields hrsv (opcode hop) hch rfl, decide_eq_true hlen⟩
  · rw [hop, if_neg (by decide)] at hch hlen
    exact ⟨.ckVerify, encode_of_fields hrsv (opcode hop) hch hlen, rfl⟩

/-- The legal words are the ones that decode. -/
theorem legalWord_iff {w : Word} : LegalWord cfg w ↔ ∃ i, decodeWordIn cfg w = .ok i := by
  simp only [decodeWordIn_eq_ok_iff]
  refine ⟨exists_encode_of_legalWord, ?_⟩
  rintro ⟨i, rfl, hwf⟩
  exact legalWord_encode hwf

end Sys2Proof

namespace Sys2Proof.Machine

/-! ## Issuing a command -/

/-- A word that decodes runs its instruction (R80). -/
theorem issueCommand_of_decodes {w : Word} {i : Instr} (h : decodeWord w = .ok i) (s : State) :
    issueCommand w s = exec i s := by
  unfold issueCommand; rw [h]

/-- The word of a well-formed instruction runs it. -/
theorem issueCommand_encode {i : Instr} (h : i.WellFormed) (s : State) : issueCommand (encode i) s = exec i s :=
  issueCommand_of_decodes (decodeWordIn_encode h) s

/-- Settles O4: the legal words are the ones that decode, and a write to CMD runs what its word decodes to. -/
theorem legalWordsRunAndIllegalOnesOnlyReport : Obligations.LegalWordsRunAndIllegalOnesOnlyReport := by
  intro s w rest hq
  rw [step_command hq]
  constructor
  · intro hw
    obtain ⟨i, hi⟩ := legalWord_iff.mp hw
    exact ⟨i, hi, (decodeWordIn_eq_ok_iff.mp hi).2, issueCommand_of_decodes hi _⟩
  · intro hw
    obtain ⟨i, hi, -⟩ | ⟨-, e⟩ := issueCommand_cases w { s with hostQueue := rest }
    · exact absurd (legalWord_iff.mpr ⟨i, hi⟩) hw
    · exact e

/-- Settles O5: `withFetchWord` puts the very word first, which 32 bits hold whole. -/
theorem stepRunsTheDecodedCommand : Obligations.StepRunsTheDecodedCommand := by
  refine ⟨fun s w rest i hq hi => ?_, fun s w i hw hi => ?_⟩
  · rw [step_command hq, issueCommand_of_decodes hi]
  · have hq : (s.withFetchWord 32 w).hostQueue = .write 0x000#11 (BitVec.ofNat 32 w) :: s.hostQueue := by
      rw [State.withFetchWord, Nat.mod_eq_of_lt hw]
    rw [step_command hq, issueCommand_of_decodes hi]
    rfl

end Sys2Proof.Machine
end

section
/-! ARG is no operand of DECODE and RESET, and no command writes ARG or IN (30_encoding.md R88, 10_state.md R42). -/

namespace Sys2Proof.Machine

variable {cfg : Config}

/-- The block with another word in ARG. -/
def State.withArg (s : State) (v : Word) : State := { s with arg := v }

section WithArg

variable (s : State) (v : Word) (c : Nat)

@[simp] theorem withArg_channel : (s.withArg v).channel c = s.channel c := rfl
@[simp] theorem withArg_sampleIn (n : Nat) : (s.withArg v).sampleIn n = s.sampleIn n := rfl

theorem saveShort_withArg (input : List Byte) (place : Option Nat) :
    (s.withArg v).saveShort cfg c input place = (s.saveShort cfg c input place).withArg v := by
  cases place with
  | none => rfl
  | some j =>
    simp only [State.saveShort, withArg_channel]
    cases (s.channel c).clear.append cfg (input.drop j) <;> rfl

theorem applyResult_withArg (prof : Profile) (r : PassResult) (input : List Byte) :
    (s.withArg v).applyResult cfg c prof r input = (s.applyResult cfg c prof r input).withArg v := by
  cases r with
  | packet pkt => rfl
  | checksumError => rfl
  | suffixError => rfl
  | detectedError status => rfl
  | short st place =>
    by_cases hst : st = .readHeader
    · subst hst; exact saveShort_withArg (cfg := cfg) s v c input none
    · rw [applyResult_short hst, applyResult_short hst]; exact saveShort_withArg s v c input place

/-- The decode of a chunk neither reads nor writes ARG. -/
theorem decodeChunk_withArg (chunk : List Byte) :
    (s.withArg v).decodeChunk cfg c chunk = (s.decodeChunk cfg c chunk).withArg v := by
  cases hcont : (s.channel c).cont with
  | false =>
    rw [decodeChunk_fresh hcont, decodeChunk_fresh (s := s.withArg v) hcont]
    exact applyResult_withArg s v c _ _ _
  | true =>
    simp only [State.decodeChunk, withArg_channel, hcont, if_true]
    cases (s.channel c).append cfg chunk with
    | none => rfl
    | some x => exact applyResult_withArg (s.setChannel c { x with cont := false }) v c _ _ _

/-- DECODE does the same whatever ARG holds, and carries it along (R88). -/
theorem exec_decode_withArg (ch : BitVec 4) (len : BitVec 16) :
    exec (.decode ch len) (s.withArg v) = onNext (·.withArg v) (exec (.decode ch len) s) := by
  simp only [exec, execDecode, execDecodeIn, withArg_sampleIn, decodeChunk_withArg]
  cases channelOk Config.hw ch && lengthOk Config.hw len
  · rfl
  · cases s.sampleIn len.toNat
    · rfl
    · by_cases h0 : len = 0#16 <;> simp only [h0, if_true, if_false] <;> rfl

/-- RESET does the same whatever ARG holds, and carries it along (R88). -/
theorem exec_reset_withArg (ch : BitVec 4) :
    exec (.reset ch) (s.withArg v) = onNext (·.withArg v) (exec (.reset ch) s) := by
  simp only [exec, execReset, execResetIn]
  cases channelOk Config.hw ch <;> rfl

end WithArg

/-- Settles O25: no command touches ARG or IN, and DECODE and RESET commute with replacing ARG. -/
theorem commandsNeverWriteArgOrIn : Obligations.CommandsNeverWriteArgOrIn := by
  refine ⟨fun i s t h => exec_untouched h, fun i s t v hi h => ?_⟩
  obtain ⟨ch, len, rfl⟩ | ⟨ch, rfl⟩ := hi
  · exact (exec_decode_withArg s v ch len).trans (by rw [h]; rfl)
  · exact (exec_reset_withArg s v ch).trans (by rw [h]; rfl)

end Sys2Proof.Machine
end

section
/-! The host statements (30_encoding.md R97 to R99): LOADIN fills the cells of IN in order, a command over written cells
runs to its end, and so does every statement that loads its operands first. -/

namespace Sys2Proof.Machine

/-! ## Loading IN -/

@[simp] theorem length_loadInFrom (bs : List Byte) : ∀ j, (loadInFrom j bs).length = bs.length := by
  induction bs with
  | nil => intro j; rfl
  | cons b bs ih => intro j; rw [loadInFrom, List.length_cons, List.length_cons, ih]

/-- A byte written as a word to an IN cell is stored whole (10_state.md R42). -/
theorem step_loadCell {s : State} {j : Nat} {b : Byte} {rest : List HostEvent} (hj : j < 512)
    (hq : s.hostQueue = hostWr (.inCell j) (b.setWidth 32) :: rest) :
    step s = .next { s with hostQueue := rest, mem := Memory.write s.mem (inBase + j) b } := by
  have hlow : (b.setWidth 32).extractLsb' 0 8 = b := by
    rw [BitVec.extractLsb'_setWidth_of_le (by decide), BitVec.extractLsb'_eq_self]
  rw [step_write hq, HostReg.index, busWrite_inCell hj (by omega), hlow]

/-- Serving the writes of LOADIN from cell `j` up puts the bytes there; the run goes on with what follows them. -/
theorem run_loadInFrom (bs : List Byte) (k : Nat) :
    ∀ {j : Nat} {s : State} {rest : List HostEvent}, j + bs.length ≤ 512 → s.hostQueue = loadInFrom j bs ++ rest →
      Host.Core.run core (bs.length + k) s =
        Host.Core.run core k { s with hostQueue := rest, mem := Memory.writeBytes s.mem (inBase + j) bs } := by
  induction bs with
  | nil =>
    intro j s rest _ hq
    rw [List.length_nil, Nat.zero_add, ← show s.hostQueue = rest from hq]
    rfl
  | cons b bs ih =>
    intro j s rest hj hq
    rw [List.length_cons] at hj
    rw [List.length_cons, Nat.add_right_comm, run_succ_of_next (step_loadCell (by omega) hq), ih (by omega) rfl]
    rfl

/-- The block with `bs` loaded into `IN[0..)` and `rest` still to serve. -/
def State.withLoaded (s : State) (bs : List Byte) (rest : List HostEvent) : State :=
  { s with hostQueue := rest, mem := Memory.writeBytes s.mem inBase bs }

/-- What LOADIN wrote is what a command then samples. -/
theorem sampleIn_withLoaded (s : State) (bs : List Byte) (rest : List HostEvent) :
    (s.withLoaded bs rest).sampleIn bs.length = some bs :=
  readBytes_eq_some.mpr ⟨rfl, fun _ hj => read_writeBytes_inside _ _ _ _ hj⟩

/-- A statement that loads bytes expands to LOADIN of at most IN_CAP bytes and the events `tail`. -/
theorem hostLoadIn_then {bs : List Byte} {tail events : List HostEvent}
    (h : (hostLoadIn Config.hw bs).map (· ++ tail) = some events) :
    bs.length ≤ 512 ∧ events = loadInFrom 0 bs ++ tail := by
  obtain ⟨load, hload, rfl⟩ := Option.map_eq_some_iff.mp h
  unfold hostLoadIn at hload
  split at hload
  · next hcap => cases hload; exact ⟨hcap, rfl⟩
  · cases hload

/-- Serving a statement that loads bytes: its tail runs on the block with the bytes in IN. -/
theorem run_hostLoadIn_then {bs : List Byte} {tail events rest : List HostEvent} {s : State}
    (h : (hostLoadIn Config.hw bs).map (· ++ tail) = some events) (hq : s.hostQueue = events ++ rest) :
    Host.Core.run core events.length s = Host.Core.run core tail.length (s.withLoaded bs (tail ++ rest)) := by
  obtain ⟨hcap, rfl⟩ := hostLoadIn_then h
  rw [List.append_assoc] at hq
  rw [List.length_append, length_loadInFrom, run_loadInFrom bs _ (by omega) hq]
  rfl

/-- A byte count within IN fits the LEN field. -/
theorem toNat_lenField {n : Nat} (h : n ≤ 512) : (BitVec.ofNat 16 n).toNat = n := by
  rw [BitVec.toNat_ofNat]; omega

/-! ## The command of a statement -/

/-- A run of one step. -/
theorem run_one (s : State) : Host.Core.run core 1 s = step s := by
  simp only [Host.Core.run]
  rw [show core.step s = step s from rfl]
  cases step s <;> rfl

/-- A command mnemonic runs its instruction (R98). -/
theorem run_hostCommand {i : Instr} {s : State} {rest : List HostEvent} (hi : i.WellFormed)
    (hq : s.hostQueue = hostCommand i :: rest) :
    Host.Core.run core 1 s = exec i { s with hostQueue := rest } := by
  rw [run_one, step_command hq, issueCommand_encode hi]

/-- `WR ARG` and then a command mnemonic runs the instruction with that ARG (R97, R98). -/
theorem run_hostWr_arg_hostCommand {i : Instr} {s : State} {v : Word} {rest : List HostEvent} (hi : i.WellFormed)
    (hq : s.hostQueue = hostWr .arg v :: hostCommand i :: rest) :
    Host.Core.run core 2 s = exec i { s with hostQueue := rest, arg := v } := by
  have harg : step s = .next { s with hostQueue := hostCommand i :: rest, arg := v } := step_write hq
  rw [run_succ_of_next harg, run_hostCommand hi rfl]

/-- A command whose IN cells are all written completes (70_reset_and_hazards.md R243, R244). -/
theorem exec_completes {i : Instr} {s : State} {p : List Byte} (h : s.sampleIn (inBytesRead i) = some p) :
    ∃ t, exec i s = .next t := by
  cases i with
  | decode ch len =>
    obtain ⟨-, e⟩ | ⟨-, hnone, -⟩ | ⟨-, -, e⟩ | ⟨-, -, chunk, -, e⟩ := execDecodeIn_cases (cfg := Config.hw) ch len s
    · exact ⟨_, e⟩
    · cases hnone.symm.trans h
    · exact ⟨_, e⟩
    · exact ⟨_, e⟩
  | reset ch =>
    obtain ⟨-, e⟩ | ⟨-, e⟩ := execResetIn_cases (cfg := Config.hw) ch s <;> exact ⟨_, e⟩
  | build len =>
    obtain ⟨-, e⟩ | ⟨-, hnone, -⟩ | ⟨-, -, -, e⟩ | ⟨-, -, _, -, e⟩ := execBuildIn_cases (cfg := Config.hw) len s
    · exact ⟨_, e⟩
    · cases hnone.symm.trans h
    · exact ⟨_, e⟩
    · exact ⟨_, e⟩
  | ckCompute len =>
    obtain ⟨-, e⟩ | ⟨-, hnone, -⟩ | ⟨-, _, -, e⟩ := execCkComputeIn_cases (cfg := Config.hw) len s
    · exact ⟨_, e⟩
    · cases hnone.symm.trans h
    · exact ⟨_, e⟩
  | ckVerify => exact ⟨_, rfl⟩

/-! ## Whole statements -/

/-- DECODE of a loaded chunk on a channel of the block is well-formed. -/
theorem wellFormed_decode {ch : BitVec 4} {n : Nat} (hch : ch.toNat < 2) (hn : n ≤ 512) :
    (Instr.decode ch (BitVec.ofNat 16 n)).WellFormed :=
  Bool.and_eq_true_iff.mpr
    ⟨(channelOk_hw ch).mpr hch, (lengthOk_hw _).mpr (by rw [toNat_lenField hn]; exact hn)⟩

/-- FEED to a channel of the block: DECODE runs on the block with the chunk in IN. -/
theorem run_hostFeed {ch : BitVec 4} {chunk : List Byte} {events rest : List HostEvent} {s : State}
    (hch : ch.toNat < 2) (h : hostFeed Config.hw ch chunk = some events) (hq : s.hostQueue = events ++ rest) :
    Host.Core.run core events.length s =
      exec (.decode ch (BitVec.ofNat 16 chunk.length)) (s.withLoaded chunk rest) := by
  obtain ⟨hcap, -⟩ := hostLoadIn_then h
  rw [run_hostLoadIn_then h hq, List.length_singleton, run_hostCommand (wellFormed_decode hch hcap) rfl]
  rfl

/-- Settles O54: the writes of LOADIN fill IN in order and touch no other cell, and the command then runs. -/
theorem feedLoadsTheChunkAndDecodes : Obligations.FeedLoadsTheChunkAndDecodes := by
  intro s ch chunk events rest hch h hq
  refine ⟨Memory.writeBytes s.mem inBase chunk, sampleIn_withLoaded s chunk s.hostQueue, fun a ha => ?_,
    run_hostFeed hch h hq⟩
  exact read_writeBytes_outside _ _ _ _ ha

/-- A statement that loads its bytes, writes ARG and issues a command that reads just those bytes ends in a state. -/
theorem safeRun_load_arg_command {bs : List Byte} {v : Word} {i : Instr} {events rest : List HostEvent} {s : State}
    (h : (hostLoadIn Config.hw bs).map (· ++ [hostWr .arg v, hostCommand i]) = some events)
    (hq : s.hostQueue = events ++ rest) (hi : i.WellFormed) (hread : inBytesRead i = bs.length) :
    SafeRun events.length s := by
  have hrun : Host.Core.run core events.length s = Host.Core.run core 2 _ := run_hostLoadIn_then h hq
  rw [run_hostWr_arg_hostCommand (i := i) hi rfl] at hrun
  obtain ⟨t, ht⟩ := exec_completes (i := i) (s := { s.withLoaded bs rest with arg := v }) (p := bs)
    (hread ▸ sampleIn_withLoaded s bs rest)
  exact ⟨t, hrun.trans ht⟩

/-- Settles O55: each statement loads all the bytes its command reads; VERIFY's reads none. -/
theorem hostStatementsRunSafely : Obligations.HostStatementsRunSafely := by
  intro s events rest hq hstatement
  obtain ⟨ch, bytes, hch, h⟩ | ⟨mode, cmdId, p, h⟩ | ⟨cmdId, length, p, h⟩ | ⟨eh, el, rh, rl, rfl⟩ := hstatement
  · obtain ⟨hcap, -⟩ := hostLoadIn_then h
    obtain ⟨t, ht⟩ := exec_completes (i := .decode ch (BitVec.ofNat 16 bytes.length)) (s := s.withLoaded bytes rest)
      (p := bytes) (by rw [inBytesRead, toNat_lenField hcap]; exact sampleIn_withLoaded s bytes rest)
    exact ⟨t, (run_hostFeed hch h hq).trans ht⟩
  · obtain ⟨hcap, -⟩ := hostLoadIn_then h
    have hlen := toNat_lenField hcap
    exact safeRun_load_arg_command h hq ((lengthOk_hw _).mpr (hlen.symm ▸ hcap)) hlen
  · obtain ⟨hcap, -⟩ := hostLoadIn_then h
    have hlen := toNat_lenField hcap
    exact safeRun_load_arg_command h hq ((lengthOk_hw _).mpr (hlen.symm ▸ hcap)) hlen
  · exact ⟨_, run_hostWr_arg_hostCommand (i := .ckVerify) rfl hq⟩

end Sys2Proof.Machine
end

section
/-! A whole BM response frame as one chunk (30_encoding.md R93, R96, 40_frame_decoder.md R114, R126, R129). -/

namespace Sys2Proof.Machine

variable {cfg : Config}

/-- A response frame behind noise and before trailing bytes passes to its packet. -/
theorem pass_responseFrame (id : Byte) (p g trail : List Byte) (hp : p.length ≤ 255) (hg : hdr .bm ∉ g) :
    pass cfg .bm (g ++ responseFrame cfg.seed id p ++ trail) =
      .packet { id := id, n := p.length, payload := p } := by
  have hframe := pass_bm_frame (cfg := cfg) id (highByte (expectedChecksum cfg.seed id p))
    (lowByte (expectedChecksum cfg.seed id p)) 0x77#8 p trail hp
  rw [if_pos ⟨rfl, rfl⟩, if_pos rfl] at hframe
  have hbytes : responseFrame cfg.seed id p ++ trail = [0xDD#8, id, 0x00#8, BitVec.ofNat 8 p.length] ++ p ++
      [highByte (expectedChecksum cfg.seed id p), lowByte (expectedChecksum cfg.seed id p)] ++ 0x77#8 :: trail := by
    simp [responseFrame, bmTrailer, hdr, sfx]
  rw [List.append_assoc, pass_garbage _ _ hg, hbytes, hframe]
  rfl

/-- The fields of PKT0 of a BM packet: header, id, status 0 and the three flags set (10_state.md R35). -/
theorem pkt0Word_bm_fields {s : State} {id : Byte} (h : s.pkt0 = pkt0Word .bm id) :
    s.pktHdr = 0xDD#8 ∧ s.pktId = id ∧ s.pktStatus = 0x00#8 ∧ s.pktHasId = true ∧ s.pktHasStatus = true ∧
      s.pktCkValid = true := by
  have hid := id.isLt
  have hn := toNat_pkt0Word_bm id
  obtain ⟨-, hstatus, hhasId, hhasStatus⟩ := pkt0Word_fields .bm id
  have hck : (pkt0Word .bm id).getLsbD 26 = true := by
    have : (pkt0Word .bm id).toNat / 2 ^ 26 = 1 := by omega
    rw [BitVec.getLsbD, Nat.testBit, Nat.shiftRight_eq_div_pow, this]
    rfl
  unfold State.pktHdr State.pktId State.pktStatus State.pktHasId State.pktHasStatus State.pktCkValid
  rw [h]
  refine ⟨BitVec.eq_of_toNat_eq ?_, BitVec.eq_of_toNat_eq ?_, hstatus, hhasId.trans hck, hhasStatus.trans hck, hck⟩
  · rw [BitVec.extractLsb'_toNat, Nat.shiftRight_eq_div_pow, hn]
    show _ = 0xDD
    omega
  · rw [BitVec.extractLsb'_toNat, Nat.shiftRight_eq_div_pow, hn]
    omega

/-- Settles O30: the pass gives the packet, and applying it writes the packet registers and the payload cells alone. -/
theorem responseFrameDecodesToItsPacket : Obligations.ResponseFrameDecodesToItsPacket := by
  intro s id p g trail len hp hg hcont hlen hin
  have hne : g ++ responseFrame .idLen id p ++ trail ≠ [] := by simp [responseFrame]
  have hexec := exec_decode_chunk (ch := 0#4) (by decide) hlen hin hne
  have hdecoded : s.decodeChunk Config.hw 0 (g ++ responseFrame .idLen id p ++ trail) =
      s.applyPacket 0 .bm { id := id, n := p.length, payload := p } := by
    rw [decodeChunk_fresh hcont, hw_profile_zero, ← hw_seed, pass_responseFrame id p g trail hp hg]
    rfl
  rw [show (0#4 : BitVec 4).toNat = 0 from rfl, hdecoded] at hexec
  obtain ⟨hhdr, hid, hstatus, hhasId, hhasStatus, hck⟩ := pkt0Word_bm_fields
    (s := s.applyPacket 0 .bm { id := id, n := p.length, payload := p }) rfl
  obtain ⟨-, hpktLen, hpktCh⟩ := pkt1Word_fields hp (show 0 < 16 by decide)
  have hmem : (s.applyPacket 0 .bm { id := id, n := p.length, payload := p }).mem =
      Memory.writeBytes s.mem 0x100 p := by
    simp [State.applyPacket, pktBase]
  refine ⟨_, hexec, rfl, hhdr, hid, hstatus, hhasId, hhasStatus, hck, hpktLen, BitVec.eq_of_toNat_eq hpktCh,
    fun j hj => ?_, fun a ha => ?_, channel_clearChannel s 0, fun d hd => channel_setChannel_other _ _ _ hd,
    exec_untouched hexec, rfl, rfl⟩
  · rw [hmem]; exact read_writeBytes_inside p _ _ _ hj
  · rw [hmem]; exact read_writeBytes_outside p _ _ _ ha

end Sys2Proof.Machine
end

section
/-! What one DECODE does: its effect on the block in every case, the pass behind noise, and the word RESULT then holds
(40_frame_decoder.md R110, R111, R114, R126 to R128). -/

namespace Sys2Proof.Machine

variable {cfg : Config} {s t u : State} {c : Nat} {ch : BitVec 4} {len : BitVec 16}

/-! ## The effect of a DECODE -/

/-- A channel replaced by itself is no change. -/
theorem setChannel_channel_self (s : State) (c : Nat) : s.setChannel c (s.channel c) = s := by
  have hset : s.channels.set c (s.channel c) = s.channels := by
    rcases Nat.lt_or_ge c s.channels.length with h | h
    · simp [State.channel, List.getD_eq_getElem?_getD, h]
    · exact List.set_eq_of_length_le h
  exact congrArg (fun l => { s with channels := l }) hset

/-- A DECODE that answers a next state keeps to `ChunkEffect`, also when the word is illegal or the chunk is empty. -/
theorem exec_decode_effect (h : exec (.decode ch len) s = .next t) :
    ChunkEffect s ch.toNat (Config.hw.profile ch.toNat) t := by
  have reports (w : Word) : ChunkEffect s ch.toNat (Config.hw.profile ch.toNat) (s.setResult w) :=
    .result (s.channel ch.toNat) w (by rw [setChannel_channel_self])
  rcases execDecodeIn_cases (cfg := Config.hw) ch len s with ⟨-, e⟩ | ⟨-, -, e⟩ | ⟨-, -, e⟩ | ⟨-, -, chunk, -, e⟩ <;>
    cases e.symm.trans h
  · exact reports _
  · exact reports _
  · exact decodeChunk_effect s ch.toNat chunk

/-- A decoded chunk leaves every other channel as it was (10_state.md R24). -/
theorem ChunkEffect.othersKept {prof : Profile} (h : ChunkEffect s c prof t) : OthersKept c s t := by
  intro d hd
  cases h with
  | result x w eq => rw [eq]; exact channel_setChannel_other s c x hd
  | packet x pkt eq hn hb => rw [eq]; exact channel_setChannel_other s c x hd

/-- A decoded chunk leaves CK, ENC_LEN and ENC_OUT as they were: a packet's payload ends below ENC_OUT. -/
theorem ChunkEffect.ck_sameEncoder {prof : Profile} (h : ChunkEffect s c prof t) : t.ck = s.ck ∧ SameEncoder s t := by
  cases h with
  | result x w eq => rw [eq]; exact ⟨rfl, rfl, fun _ _ _ => rfl⟩
  | packet x pkt eq hn hb =>
    rw [eq]
    refine ⟨rfl, rfl, fun a ha _ => read_writeBytes_outside _ _ _ _ (.inr ?_)⟩
    unfold pktBase
    unfold encBase at ha
    omega

/-- Settles O28: the payload cells a packet writes are those below PKT1.LEN, and without one no window changes. -/
theorem decodeFrame : Obligations.DecodeFrame := by
  intro s t ch len h
  have heffect := exec_decode_effect h
  obtain ⟨hck, henc⟩ := heffect.ck_sameEncoder
  refine ⟨exec_untouched h, hck, henc, heffect.othersKept, ?_⟩
  cases heffect with
  | result x w eq => rw [eq]; exact ⟨fun _ => ⟨rfl, rfl, fun _ _ _ => rfl⟩, fun _ _ _ => rfl⟩
  | packet x pkt eq hn hb =>
    have hcode : t.resultCode = 0x01#8 := by rw [eq]; exact code_resultWord .packet 0x00#8 false
    obtain ⟨-, hpktLen, -⟩ := pkt1Word_fields hb ch.isLt
    refine ⟨fun hne => absurd hcode hne, fun _ a ha => ?_⟩
    rw [State.pktLen, eq, hpktLen] at ha
    rw [eq]
    exact read_writeBytes_outside _ _ _ _ (.inr (hn ▸ ha))

/-! ## The pass of a fresh channel, behind noise -/

/-- A DECODE of the empty chunk reports NO_DATA_AVAILABLE and does nothing else (R111). -/
theorem exec_decode_empty (hch : ch.toNat < 2) (s : State) :
    exec (.decode ch 0#16) s = .next (s.setResult (codeWord .noDataAvailable)) := by
  simp only [exec, execDecode, execDecodeIn, (channelOk_hw ch).mpr hch, (lengthOk_hw 0#16).mpr (by decide),
    Bool.and_self, if_true]
  rfl

/-- Without a continuation, noise without the header byte before a non-empty input leaves the result of the pass and
what is retained as they are for the input alone (R114). -/
theorem exec_decode_behind_noise {prof : Profile} {r : PassResult} {g x : List Byte} (hc : ch.toNat = c) (hch : c < 2)
    (hprof : Config.hw.profile c = prof) (hlen : len.toNat ≤ 512) (hg : hdr prof ∉ g) (hx : x ≠ [])
    (hcont : (s.channel c).cont = false) (hin : s.sampleIn len.toNat = some (g ++ x))
    (hpass : pass Config.hw prof x = r) :
    exec (.decode ch len) s = .next (s.applyResult Config.hw c prof r x) := by
  subst hc hprof hpass
  rw [exec_decode_chunk hch hlen hin (by simp [hx]), decodeChunk_fresh hcont, pass_garbage g x hg, applyResult_garbage]

/-! ## The words RESULT holds after a DECODE (R130) -/

/-- The codes a DECODE can report on either profile. -/
def commonDecodeCodes : List ResultCode := [.packet, .shortData, .suffixError, .noDataAvailable, .bufferOverflow]

/-- The words a DECODE on profile `prof` can leave in RESULT: the common codes, and two more on BM. -/
def DecodeWord (prof : Profile) (w : Word) : Prop :=
  (∃ code ∈ commonDecodeCodes, w = codeWord code) ∨
    prof = .bm ∧ (w = codeWord .checksumError ∨
      ∃ status : Byte, status ≠ 0x00#8 ∧ w = resultWord .detectedError status false)

/-- The common codes as words of RESULT (60_exceptions.md R210). -/
theorem codeWord_of_commonDecodeCodes : ∀ code ∈ commonDecodeCodes,
    codeWord code ∈ [0x00000001#32, 0x00000002#32, 0x00000004#32, 0x00000006#32, 0x00000007#32] := by decide

/-- A save reports SHORT_DATA or BUFFER_OVERFLOW (41_reassembly_buffer.md R153). -/
theorem saveShort_word (prof : Profile) (s : State) (c : Nat) (input : List Byte) (place : Option Nat) :
    DecodeWord prof (s.saveShort cfg c input place).result := by
  have hshort : DecodeWord prof (codeWord .shortData) := .inl ⟨.shortData, by decide, rfl⟩
  have hoverflow : DecodeWord prof (codeWord .bufferOverflow) := .inl ⟨.bufferOverflow, by decide, rfl⟩
  unfold State.saveShort
  split
  · exact hshort
  · split
    · exact hoverflow
    · exact hshort

/-- A pass result of profile `prof` leaves one of its words, whatever the channel held. -/
theorem applyResult_word {prof : Profile} {r : PassResult} {input : List Byte} (h : r.Ok prof input) :
    DecodeWord prof (s.applyResult cfg c prof r input).result := by
  cases r with
  | packet pkt => exact .inl ⟨.packet, by decide, rfl⟩
  | checksumError => exact .inr ⟨h, .inl rfl⟩
  | suffixError => exact .inl ⟨.suffixError, by decide, rfl⟩
  | detectedError status => exact .inr ⟨h.1, .inr ⟨status, h.2, rfl⟩⟩
  | short st place =>
    by_cases hst : st = .readHeader
    · subst hst; exact saveShort_word (cfg := cfg) prof s c input none
    · rw [applyResult_short hst]; exact saveShort_word prof s c input place

/-- A decoded chunk leaves one of the words of the channel's profile. -/
theorem decodeChunk_word (s : State) (c : Nat) (chunk : List Byte) :
    DecodeWord (cfg.profile c) (s.decodeChunk cfg c chunk).result := by
  unfold State.decodeChunk
  dsimp only
  split
  · split
    · exact .inl ⟨.bufferOverflow, by decide, rfl⟩
    · exact applyResult_word (pass_ok _)
  · exact applyResult_word (pass_ok _)

/-- A DECODE over written bytes completes with one of the words of the channel's profile. -/
theorem exec_decode_word {chunk : List Byte} (hch : ch.toNat < 2) (hlen : len.toNat ≤ 512)
    (hin : s.sampleIn len.toNat = some chunk) :
    ∃ t, exec (.decode ch len) s = .next t ∧ DecodeWord (Config.hw.profile ch.toNat) t.result := by
  by_cases h0 : len = 0#16
  · subst h0
    exact ⟨_, exec_decode_empty hch s, .inl ⟨.noDataAvailable, by decide, rfl⟩⟩
  · have hne : chunk ≠ [] := by
      rintro rfl
      exact h0 (BitVec.eq_of_toNat_eq (length_of_sampleIn hin).symm)
    exact ⟨_, exec_decode_chunk hch hlen hin hne, decodeChunk_word s ch.toNat chunk⟩

/-! ## Each result occurs -/

/-- A DECODE on channel `ch`, from some state of the invariant, ends with CODE `code`. -/
def CodeOccurs (ch : BitVec 4) (code : Byte) : Prop :=
  ∃ s len t, s.Inv Config.hw ∧ exec (.decode ch len) s = .next t ∧ t.resultCode = code

/-- Loading bytes into IN keeps the invariant. -/
theorem State.Inv.withLoaded {bs : List Byte} (h : s.Inv Config.hw) (hbs : bs.length ≤ 512) (rest : List HostEvent) :
    (s.withLoaded bs rest).Inv Config.hw := by
  refine ⟨h.channels, h.memory.writeBytes (a := inBase) (bs := bs) (fun x hlo hhi => ?_) rfl, h.result, h.outputs,
    h.packet⟩
  unfold inBase at hlo hhi
  exact isWindowCell_iff.mpr (.inr (.inr ⟨hlo, by rw [hw_inCap]; omega⟩))

/-- What the decode of a loaded chunk gives does occur. -/
theorem CodeOccurs.of_chunk {code : Byte} (h : s.Inv Config.hw) (hch : ch.toNat < 2) (chunk : List Byte)
    (hchunk : chunk ≠ [] ∧ chunk.length ≤ 512 ∧
      ((s.withLoaded chunk []).decodeChunk Config.hw ch.toNat chunk).resultCode = code) : CodeOccurs ch code := by
  obtain ⟨hne, hlen, hcode⟩ := hchunk
  have hfield := toNat_lenField hlen
  exact ⟨s.withLoaded chunk [], BitVec.ofNat 16 chunk.length, _, h.withLoaded hlen [],
    exec_decode_chunk hch (hfield.symm ▸ hlen) (hfield.symm ▸ sampleIn_withLoaded s chunk []) hne, hcode⟩

/-- The empty chunk gives NO_DATA_AVAILABLE. -/
theorem CodeOccurs.noDataAvailable (hch : ch.toNat < 2) : CodeOccurs ch 0x06#8 :=
  ⟨State.reset, 0#16, _, resetIn_inv hw_legal, exec_decode_empty hch _, by decide⟩

/-- Forty bytes after a header byte give BUFFER_OVERFLOW, on either profile. -/
theorem CodeOccurs.bufferOverflow (hch : ch.toNat < 2) : CodeOccurs ch 0x07#8 := by
  have hinv := (resetIn_inv hw_legal).decodeChunk hw_legal (c := ch.toNat) hch [hdr (Config.hw.profile ch.toNat)]
  refine .of_chunk hinv hch (List.replicate 40 0x00#8) ⟨by decide, by decide, ?_⟩
  generalize ch.toNat = c at hch ⊢
  interval_cases c <;> decide

/-- Settles O27: the words of the pass results bound what can come, and one short chunk gives each code, but for
BUFFER_OVERFLOW, which takes a header byte buffered before. -/
theorem decodeResultsOfEachProfile : Obligations.DecodeResultsOfEachProfile := by
  have hreset : State.reset.Inv Config.hw := resetIn_inv hw_legal
  refine ⟨fun s ch len chunk hch hlen hin => ?_, fun code hcode => ?_, fun code hcode => ?_⟩
  · obtain ⟨t, hexec, ⟨code, hcode, hw⟩ | ⟨hprof, hword⟩⟩ := exec_decode_word hch hlen hin
    · exact ⟨t, hexec, .inl (hw ▸ codeWord_of_commonDecodeCodes code hcode)⟩
    · have h0 : ch.toNat = 0 := by
        by_contra hne
        rw [hw_profile hch, if_neg hne] at hprof
        cases hprof
      refine ⟨t, hexec, .inr ⟨h0, hword.imp_right ?_⟩⟩
      rintro ⟨status, hne, hw⟩
      exact ⟨status, hne, hw.trans (detectedError_eq status)⟩
  · simp only [List.mem_cons, List.not_mem_nil, or_false] at hcode
    have occurs {code : Byte} := CodeOccurs.of_chunk (code := code) hreset (ch := 0#4) (by decide)
    obtain rfl | rfl | rfl | rfl | rfl | rfl | rfl := hcode
    · exact occurs [0xDD#8, 0x00#8, 0x00#8, 0x00#8, 0x00#8, 0x00#8, 0x77#8] (by decide)
    · exact occurs [0xDD#8] (by decide)
    · exact occurs [0xDD#8, 0x00#8, 0x00#8, 0x00#8, 0x00#8, 0x01#8, 0x77#8] (by decide)
    · exact occurs [0xDD#8, 0x00#8, 0x00#8, 0x00#8, 0x00#8, 0x00#8, 0x78#8] (by decide)
    · exact occurs [0xDD#8, 0x00#8, 0x01#8] (by decide)
    · exact CodeOccurs.noDataAvailable (by decide)
    · exact CodeOccurs.bufferOverflow (by decide)
  · simp only [List.mem_cons, List.not_mem_nil, or_false] at hcode
    have occurs {code : Byte} := CodeOccurs.of_chunk (code := code) hreset (ch := 1#4) (by decide)
    obtain rfl | rfl | rfl | rfl | rfl := hcode
    · exact occurs ([0xAA#8] ++ List.replicate 9 0x00#8 ++ [0x85#8]) (by decide)
    · exact occurs [0xAA#8] (by decide)
    · exact occurs ([0xAA#8] ++ List.replicate 9 0x00#8 ++ [0x86#8]) (by decide)
    · exact CodeOccurs.noDataAvailable (by decide)
    · exact CodeOccurs.bufferOverflow (by decide)

end Sys2Proof.Machine
end

section
/-! Whole frames that are not accepted as they stand: the suffix and the checksum a frame ends on, the status that ends
it early, and the checksum value the decoder expects (40_frame_decoder.md R117, R122, R123, R133, R134). -/

namespace Sys2Proof.Machine

variable {cfg : Config} {s : State} {len : BitVec 16}

/-! ## The expected checksum -/

/-- A payload length fits the length byte. -/
theorem toNat_lengthByte {p : List Byte} (hp : p.length ≤ 255) : (BitVec.ofNat 8 p.length).toNat = p.length := by
  rw [BitVec.toNat_ofNat]; omega

/-- `compute` with a payload's own length byte sums the id, the length and the payload (42_checksum.md R170). -/
theorem compute_ownLength {p : List Byte} (id : Byte) (hp : p.length ≤ 255) :
    compute id (BitVec.ofNat 8 p.length) p = neg16 (id.toNat + p.length + sum8 p) := by
  rw [compute, toNat_lengthByte hp, Nat.add_comm p.length]

/-- The checksum expected of a frame by ID_LEN, as a number. -/
theorem toNat_expectedChecksum_idLen {p : List Byte} (id : Byte) (hp : p.length ≤ 255) :
    (expectedChecksum .idLen id p).toNat = (2 ^ 16 - (id.toNat + p.length + sum8 p) % 2 ^ 16) % 2 ^ 16 := by
  rw [expectedChecksum, compute_ownLength id hp]
  exact toNat_neg16 _

/-- A u16 has two given bytes exactly when they compose its number, high byte first. -/
theorem bytes_eq_iff (v : U16) (high low : Byte) :
    highByte v = high ∧ lowByte v = low ↔ high.toNat * 2 ^ 8 + low.toNat = v.toNat := by
  have hv := v.isLt
  have hhigh := high.isLt
  have hlow := low.isLt
  have h1 : (highByte v).toNat = v.toNat / 2 ^ 8 % 2 ^ 8 := by
    rw [highByte, BitVec.extractLsb'_toNat, Nat.shiftRight_eq_div_pow]
  have h2 : (lowByte v).toNat = v.toNat % 2 ^ 8 := BitVec.extractLsb'_toNat 0 8 v
  rw [← BitVec.toNat_inj, ← BitVec.toNat_inj, h1, h2]
  omega

/-- Settles O43: `compute` is the negated sum under either seed, and the pass compares the two bytes with its bytes. -/
theorem expectedChecksumUnderBothSeeds : Obligations.ExpectedChecksumUnderBothSeeds := by
  intro cfg id c1 c2 p hp n e
  have he : e = expectedChecksum cfg.seed id p := rfl
  refine ⟨?_, ?_⟩
  · rw [he]
    cases cfg.seed with
    | idLen => exact compute_ownLength id hp
    | lenOnly =>
      have := compute_ownLength 0x00#8 hp
      rwa [BitVec.toNat_zero, Nat.zero_add] at this
  · have hpass := pass_bm_frame (cfg := cfg) id c1 c2 0x77#8 p [] hp
    rw [if_pos rfl, ← he] at hpass
    rw [← hpass, List.append_assoc _ [c1, c2]]
    rfl

/-! ## BM frames -/

/-- A whole BM frame with status 0, behind noise and before trailing bytes, on a fresh channel 0: a mismatch of the
checksum bytes comes first, then the suffix byte decides (R122, R123). -/
theorem exec_decode_bm_frame {id c1 c2 x : Byte} {p g trail : List Byte} (hp : p.length ≤ 255) (hg : 0xDD#8 ∉ g)
    (hcont : (s.channel 0).cont = false) (hlen : len.toNat ≤ 512)
    (hin : s.sampleIn len.toNat =
      some (g ++ ([0xDD#8, id, 0x00#8, BitVec.ofNat 8 p.length] ++ p ++ [c1, c2, x]) ++ trail)) :
    ∃ input, exec (.decode 0#4 len) s = .next (s.applyResult Config.hw 0 .bm
      (if c1.toNat * 2 ^ 8 + c2.toNat = (2 ^ 16 - (id.toNat + p.length + sum8 p) % 2 ^ 16) % 2 ^ 16 then
        if x = 0x77#8 then .packet { id := id, n := p.length, payload := p } else .suffixError
      else .checksumError) input) := by
  have hin' : s.sampleIn len.toNat = some (g ++
      ([0xDD#8, id, 0x00#8, BitVec.ofNat 8 p.length] ++ p ++ [c1, c2] ++ x :: trail)) := by
    rw [hin]; simp
  have hpass := pass_bm_frame (cfg := Config.hw) id c1 c2 x p trail hp
  simp only [bytes_eq_iff, hw_seed, toNat_expectedChecksum_idLen id hp] at hpass
  exact ⟨_, exec_decode_behind_noise (ch := 0#4) rfl (by decide) rfl hlen hg (by simp) hcont hin' hpass⟩

/-- Settles O32: the two tests in the order the pass makes them. -/
theorem checksumErrorBeatsTheSuffix : Obligations.ChecksumErrorBeatsTheSuffix := by
  intro s id c1 c2 x p g trail len hp hg hcont hlen hin e
  obtain ⟨input, hexec⟩ := exec_decode_bm_frame hp hg hcont hlen hin
  refine ⟨fun hne => ?_, fun heq hx => ?_⟩
  · rw [hexec, if_neg hne]; rfl
  · rw [hexec, if_pos heq, if_neg hx]; rfl

/-- Settles O33: the status byte is the terminal byte of the pass. -/
theorem nonzeroStatusEndsTheFrame : Obligations.NonzeroStatusEndsTheFrame := by
  intro s id status g trail len hstatus hg hcont hlen hin
  rw [List.append_assoc] at hin
  rw [← detectedError_eq]
  exact exec_decode_behind_noise (ch := 0#4) rfl (by decide) rfl hlen hg (by simp) hcont hin
    (pass_bm_status id status trail hstatus)

/-- Settles O42: one changed byte changes the sum by less than 2^16, so the frame's checksum is not the expected one. -/
theorem changedPayloadByteGivesChecksumError : Obligations.ChangedPayloadByteGivesChecksumError := by
  intro s id b b' p j len hp hb hne hcont hlen hin
  have hsum := sum8_set b' hb
  have hbytes := (bytes_eq_iff (expectedChecksum .idLen id p) _ _).mp ⟨rfl, rfl⟩
  rw [toNat_expectedChecksum_idLen id hp] at hbytes
  have hlength : (p.set j b').length = p.length := List.length_set
  obtain ⟨input, hexec⟩ := exec_decode_bm_frame (g := []) (trail := []) (id := id) (p := p.set j b')
    (hlength ▸ hp) List.not_mem_nil hcont hlen
    (by rw [hin, hlength, List.nil_append, List.append_nil]; rfl)
  rw [hexec, hbytes, hlength, if_neg]
  · rfl
  · have hval : b'.toNat ≠ b.toNat := fun h => hne (BitVec.eq_of_toNat_eq h)
    have h1 := b.isLt
    have h2 := b'.isLt
    omega

/-! ## MC frames -/

/-- Settles O31: the last byte alone decides, and applying the packet writes the packet registers and nine payload
cells. -/
theorem mcFrameDecodesByItsSuffix : Obligations.McFrameDecodesByItsSuffix := by
  intro s p g trail x len hp hg hcont hlen hin
  have hin' : s.sampleIn len.toNat = some (g ++ ([0xAA#8] ++ p ++ x :: trail)) := by rw [hin]; simp
  have hexec := exec_decode_behind_noise (ch := 1#4) rfl (by decide) rfl hlen hg (by simp) hcont hin'
    (pass_mc_frame p trail x hp)
  have heffect := exec_decode_effect hexec
  obtain ⟨hck, henc⟩ := heffect.ck_sameEncoder
  refine ⟨_, hexec, ?_, heffect.othersKept, exec_untouched hexec, hck, henc, fun hx => ?_, fun hx => ?_⟩
  · split <;> exact channel_clearChannel s 1
  · have hmem (a : Nat) : Memory.read (s.applyPacket 1 .mc { id := 0x00#8, n := 9, payload := p }).mem a =
        Memory.read (Memory.writeBytes s.mem 0x100 p) a := by
      rw [State.applyPacket, List.take_of_length_le (Nat.le_of_eq hp)]; rfl
    rw [if_pos hx]
    refine ⟨rfl, rfl, show pkt1Word 9 1 = 0x00010009#32 by decide, fun j hj => ?_, fun a ha => ?_⟩
    · exact (hmem _).trans (read_writeBytes_inside p _ _ _ (hp ▸ hj))
    · exact (hmem _).trans (read_writeBytes_outside p _ _ _ (by rwa [hp]))
  · rw [if_neg hx]
    exact ⟨rfl, ⟨rfl, rfl, fun _ _ _ => rfl⟩, fun _ => rfl⟩

end Sys2Proof.Machine
end

section
/-! An input cut up or behind noise against the input as one chunk (40_frame_decoder.md R134, 41_reassembly_buffer.md
R152, R153, R159). -/

namespace Sys2Proof.Machine

variable {cfg : Config} {s t u : State} {c : Nat} {ch : BitVec 4} {len : BitVec 16}

/-! ## A pass result applied to two states -/

/-- A cleared channel with `bs` retained and the continuation pending (41_reassembly_buffer.md R153). -/
def Channel.retaining (bs : List Byte) (ch : Channel) : Channel :=
  { cells := putCells ch.cells 0 bs, cur := bs.length, cont := true }

/-- A save replaces the channel by what it alone determines, and sets RESULT by the length of the input alone. -/
theorem saveShort_eq (cfg : Config) (c : Nat) (input : List Byte) (place : Option Nat) :
    ∃ (f : Channel → Channel) (w : Word), ∀ s : State,
      s.saveShort cfg c input place = (s.setChannel c (f (s.channel c))).setResult w := by
  cases place with
  | none => exact ⟨Channel.clear, codeWord .shortData, fun _ => rfl⟩
  | some j =>
    rcases Nat.lt_or_ge cfg.bufCap (input.drop j).length with h | h
    · exact ⟨Channel.clear, codeWord .bufferOverflow, fun _ => saveShort_overflow h⟩
    · refine ⟨Channel.retaining (input.drop j), codeWord .shortData, fun s => ?_⟩
      have hfits : (s.channel c).clear.cur + (input.drop j).length ≤ cfg.bufCap := by
        rw [clear_cur, Nat.zero_add]; exact h
      simp only [State.saveShort, append_of_fits hfits, clear_cells, clear_cur, Nat.zero_add, Channel.retaining]

/-- Any result but PACKET replaces the channel by what it alone determines and sets RESULT, whatever the state. -/
theorem applyResult_eq (cfg : Config) (c : Nat) (prof : Profile) (r : PassResult) (input : List Byte) :
    (∃ pkt, r = .packet pkt) ∨ ∃ (f : Channel → Channel) (w : Word), ∀ s : State,
      s.applyResult cfg c prof r input = (s.setChannel c (f (s.channel c))).setResult w := by
  cases r with
  | packet pkt => exact .inl ⟨pkt, rfl⟩
  | checksumError => exact .inr ⟨Channel.clear, codeWord .checksumError, fun _ => rfl⟩
  | suffixError => exact .inr ⟨Channel.clear, codeWord .suffixError, fun _ => rfl⟩
  | detectedError status => exact .inr ⟨Channel.clear, resultWord .detectedError status false, fun _ => rfl⟩
  | short st place =>
    by_cases hst : st = .readHeader
    · subst hst; exact .inr (saveShort_eq cfg c input none)
    · simp only [applyResult_short hst]; exact .inr (saveShort_eq cfg c input place)

/-- Cells that read alike still do after the same bytes are written in both memories. -/
theorem read_writeBytes_congr (bs : List Byte) :
    ∀ {m m' : Memory} (a : Nat) {x : Nat}, Memory.read m x = Memory.read m' x →
      Memory.read (Memory.writeBytes m a bs) x = Memory.read (Memory.writeBytes m' a bs) x := by
  induction bs with
  | nil => intro m m' a x h; exact h
  | cons b bs ih => intro m m' a x h; exact ih (a + 1) (by rw [read_write, read_write, h])

/-- A packet applied to two states shows the host the same if their payload cells read alike. -/
theorem sameDecodeOutputs_applyPacket (prof : Profile) (pkt : Packet)
    (h : ∀ a, pktBase ≤ a → a < encBase → Memory.read s.mem a = Memory.read u.mem a) :
    SameDecodeOutputs (s.applyPacket c prof pkt) (u.applyPacket c prof pkt) :=
  ⟨rfl, rfl, rfl, fun a hlo hhi => read_writeBytes_congr _ _ (h a hlo hhi)⟩

/-- A pass result applied to two states that show the same outputs and hold the same channels keeps both. -/
theorem sameDecodeOutputs_applyResult (prof : Profile) (r : PassResult) (input : List Byte)
    (hout : SameDecodeOutputs s u) (hch : s.channels = u.channels) :
    SameDecodeOutputs (s.applyResult cfg c prof r input) (u.applyResult cfg c prof r input) ∧
      (s.applyResult cfg c prof r input).channels = (u.applyResult cfg c prof r input).channels := by
  obtain ⟨-, h0, h1, hcells⟩ := hout
  have hchannel : s.channel c = u.channel c := by rw [State.channel, hch, State.channel]
  obtain ⟨pkt, rfl⟩ | ⟨f, w, hf⟩ := applyResult_eq cfg c prof r input
  · refine ⟨sameDecodeOutputs_applyPacket prof pkt hcells, ?_⟩
    show s.channels.set c _ = u.channels.set c _
    rw [hch, hchannel]
  · rw [hf s, hf u]
    refine ⟨⟨rfl, h0, h1, hcells⟩, ?_⟩
    show s.channels.set c _ = u.channels.set c _
    rw [hch, hchannel]

/-- Settles O39: both calls apply the pass result of the input alone. -/
theorem noiseBeforeTheInputChangesNothing : Obligations.NoiseBeforeTheInputChangesNothing := by
  intro s u ch g x len len' hch _ hx hg hlen hlen' hcont hchannels hout hin hin'
  have hcont' : (u.channel ch.toNat).cont = false := by rwa [State.channel, ← hchannels]
  exact ⟨_, _, exec_decode_behind_noise rfl hch rfl hlen hg hx hcont hin rfl,
    exec_decode_behind_noise (g := []) rfl hch rfl hlen' List.not_mem_nil hx hcont' hin' rfl,
    sameDecodeOutputs_applyResult _ _ _ hout hchannels⟩

/-! ## A frame in two chunks -/

/-- A whole frame has the shape of one (30_encoding.md R93, R94). -/
theorem IsFrame.shaped {seed : SeedKind} {prof : Profile} {f : List Byte} (h : IsFrame seed prof f) :
    ShapedAsFrame prof f := by
  cases prof with
  | bm =>
    obtain ⟨id, p, hp, rfl⟩ := h
    exact ⟨id, _, _, _, p, hp, rfl⟩
  | mc =>
    obtain ⟨p, hp, rfl⟩ := h
    exact ⟨sfx .mc, p, hp, rfl⟩

/-- A whole frame fits IN: its payload has at most 255 bytes. -/
theorem IsFrame.length_le {seed : SeedKind} {prof : Profile} {f : List Byte} (h : IsFrame seed prof f) :
    f.length ≤ 262 := by
  cases prof with
  | bm => obtain ⟨id, p, hp, rfl⟩ := h; simp [responseFrame, bmTrailer]; omega
  | mc => obtain ⟨p, hp, rfl⟩ := h; simp [mcFrame, hp]

/-- The pass over a whole frame gives a packet (R93, R94, R126). -/
theorem IsFrame.pass {prof : Profile} {f : List Byte} (h : IsFrame cfg.seed prof f) :
    ∃ pkt, pass cfg prof f = .packet pkt := by
  cases prof with
  | bm =>
    obtain ⟨id, p, hp, rfl⟩ := h
    have := pass_responseFrame (cfg := cfg) id p [] [] hp List.not_mem_nil
    rw [List.nil_append, List.append_nil] at this
    exact ⟨_, this⟩
  | mc =>
    obtain ⟨p, hp, rfl⟩ := h
    exact ⟨_, (pass_mc_frame p [] (sfx .mc) hp).trans (if_pos rfl)⟩

/-- After a first chunk `a` on channel `c`: SHORT_DATA, the whole of `a` buffered with the continuation pending, the
packet registers and the windows as before (41_reassembly_buffer.md R153). -/
structure KeptWhole (c : Nat) (a : List Byte) (s t : State) : Prop where
  result : t.result = 0x00000002#32
  pkt0 : t.pkt0 = s.pkt0
  pkt1 : t.pkt1 = s.pkt1
  mem : t.mem = s.mem
  cont : (t.channel c).cont = true
  cur : (t.channel c).cur = a.length
  contents : (t.channel c).contents = a
  cells : (t.channel c).cells.length = 40

section FirstChunk

variable {f a b : List Byte} (hch : ch.toNat < 2) (hf : IsFrame .idLen (Config.hw.profile ch.toNat) f)
  (hab : f = a ++ b) (ha : a ≠ []) (hb : b ≠ []) (hcont : (s.channel ch.toNat).cont = false)
  (hin : s.sampleIn len.toNat = some a)

include hch hf hab ha hb hcont hin

/-- A proper part of a frame from its header on is saved whole (R124, R128). -/
theorem exec_decode_firstChunk :
    exec (.decode ch len) s = .next (s.saveShort Config.hw ch.toNat a (some 0)) := by
  obtain ⟨-, st, hst, hpass⟩ := pass_shaped_prefix (cfg := Config.hw) hf.shaped hab ha hb
  have hlen : len.toNat ≤ 512 := by
    have := hf.length_le
    rw [← length_of_sampleIn hin]
    rw [hab, List.length_append] at this
    omega
  rw [exec_decode_behind_noise (g := []) rfl hch rfl hlen List.not_mem_nil ha hcont hin hpass, applyResult_short hst]

/-- A first chunk that fits the buffer is kept there for the continuation call. -/
theorem exec_decode_firstChunk_fits (hs : s.ChannelsOk Config.hw) (hfit : a.length ≤ 40) :
    ∃ t, exec (.decode ch len) s = .next t ∧ KeptWhole ch.toNat a s t := by
  obtain ⟨hn, hok⟩ := hs
  obtain ⟨hcells, -⟩ := hok ch.toNat hch
  obtain ⟨x, hx, hcur, hcontents, hxl, hsave⟩ := saveShort_keeps (h := 0) (input := a) hcells hfit
  have hchannel := channel_setChannel_same s ch.toNat x (hn.symm ▸ hch)
  refine ⟨_, (exec_decode_firstChunk hch hf hab ha hb hcont hin).trans (congrArg _ hsave),
    ⟨rfl, rfl, rfl, rfl, ?_, ?_, ?_, ?_⟩⟩ <;> rwa [setResult_channel, hchannel]

/-- A first chunk longer than the buffer overflows. -/
theorem exec_decode_firstChunk_overflow (hlong : 40 < a.length) :
    exec (.decode ch len) s = .next (s.overflow ch.toNat) := by
  rw [exec_decode_firstChunk hch hf hab ha hb hcont hin, saveShort_overflow (h := 0) (cfg := Config.hw) hlong]

end FirstChunk

/-- Settles O40: the first chunk is kept from its header on, so the second call parses the whole frame again, and
applying its packet to states with like payload cells shows the host the same. -/
theorem fragmentedFrameDecodesAsTheWhole : Obligations.FragmentedFrameDecodesAsTheWhole := by
  intro s ch f a b len hch hs hf hshort hab ha hb hcont hin
  have hlength : a.length + b.length ≤ 40 := by rw [← List.length_append, ← hab]; exact hshort
  obtain ⟨pkt, hpass⟩ := IsFrame.pass (cfg := Config.hw) hf
  obtain ⟨t, hexec, hresult, hpkt0, hpkt1, hmem, hpending, hcur, hcontents, hcells⟩ :=
    exec_decode_firstChunk_fits hch hf hab ha hb hcont hin hs (by omega)
  refine ⟨t, hexec, hresult, ⟨hpkt0, hpkt1, fun _ _ _ => by rw [hmem]⟩, fun m len' hin' hm => ?_⟩
  have hlen' : len'.toNat ≤ 512 := by rw [← length_of_sampleIn hin']; omega
  obtain ⟨y, -, -, -, hdecode⟩ := decodeChunk_fits (cfg := Config.hw) (s := { t with mem := m }) (chunk := b) hpending
    hcells (hcur.symm ▸ hlength)
  rw [show (State.channel { t with mem := m } ch.toNat).contents = a from hcontents, ← hab, hpass] at hdecode
  refine ⟨_, (exec_decode_chunk hch hlen' hin' hb).trans (congrArg _ hdecode), rfl, channel_clearChannel _ _,
    fun u w len'' hu hucont hout hw => ?_⟩
  have hlen'' : len''.toNat ≤ 512 := by rw [← length_of_sampleIn hu]; omega
  have hne : f ≠ [] := by simp [hab, ha]
  cases (exec_decode_behind_noise (g := []) rfl hch rfl hlen'' List.not_mem_nil hne hucont hu hpass).symm.trans hw
  obtain ⟨-, -, -, hpayload⟩ := hout
  refine sameDecodeOutputs_applyPacket _ _ fun i hlo hhi => ?_
  rw [setChannel_mem, hm i (Nat.lt_trans hhi (by decide)), hmem, hpayload i hlo hhi]

/-- Settles O41: either the first chunk is too long for the buffer, or what is kept of it leaves no room for the
second. -/
theorem longFrameOverflowsAtEverySplit : Obligations.LongFrameOverflowsAtEverySplit := by
  intro s ch f a b len hch hs hf hlong hab ha hb hcont hin
  have hlength : f.length = a.length + b.length := by rw [hab, List.length_append]
  have hframe := hf.length_le
  rcases Nat.lt_or_ge 40 a.length with hfirst | hfirst
  · exact ⟨_, exec_decode_firstChunk_overflow hch hf hab ha hb hcont hin hfirst, fun _ => rfl,
      fun hfit => absurd hfit (Nat.not_le.mpr hfirst)⟩
  · obtain ⟨t, hexec, hkept⟩ := exec_decode_firstChunk_fits hch hf hab ha hb hcont hin hs hfirst
    refine ⟨t, hexec, fun h => absurd h (Nat.not_lt.mpr hfirst), fun _ m len' hin' => ?_⟩
    have hlen' : len'.toNat ≤ 512 := by rw [← length_of_sampleIn hin']; omega
    have hfull : 40 < (t.channel ch.toNat).cur + b.length := by rw [hkept.cur]; omega
    have hdecode := decodeChunk_overflow (cfg := Config.hw) (s := { t with mem := m }) (chunk := b) hkept.cont hfull
    exact ⟨_, (exec_decode_chunk hch hlen' hin' hb).trans (congrArg _ hdecode), rfl, channel_clearChannel _ _⟩

end Sys2Proof.Machine
end

section
/-! What a DECODE, an overflow and a RESET leave in the Reassembly Buffer (41_reassembly_buffer.md R152 to R160). -/

namespace Sys2Proof.Machine

variable {cfg : Config} {s t u : State} {c : Nat} {ch : BitVec 4} {len : BitVec 16}

/-! ## The chunk and the result code -/

/-- A chunk of at least one byte is not empty. -/
theorem ne_nil_of_sampleIn {n : Nat} {p : List Byte} (h : s.sampleIn n = some p) (hn : 1 ≤ n) : p ≠ [] :=
  List.ne_nil_of_length_pos (by rw [length_of_sampleIn h]; exact hn)

/-- The code of a composed RESULT word (10_state.md R32). -/
theorem resultCode_of_resultWord {code : ResultCode} {status : Byte} {v : Bool}
    (h : t.result = resultWord code status v) : t.resultCode = code.number := by
  rw [State.resultCode, h, code_resultWord]

/-- The code RESULT holds after a command that reports only a code (60_exceptions.md R210). -/
theorem resultCode_of_codeWord (code : ResultCode) (h : t.result = codeWord code) : t.resultCode = code.number :=
  resultCode_of_resultWord h

/-- A decoded chunk never reports NO_DATA_AVAILABLE; it clears its channel, or reports SHORT_DATA and keeps bytes that
begin with the header (R153, R154). -/
theorem ChunkResult.cleared_or_kept {prof : Profile} (h : ChunkResult cfg prof (t.channel c) t.result) :
    t.resultCode ≠ 0x06#8 ∧ ((t.channel c).Cleared ∨ t.resultCode = 0x02#8 ∧ (t.channel c).cont = true ∧
      1 ≤ (t.channel c).cur ∧ (t.channel c).cur ≤ cfg.bufCap ∧ (t.channel c).contents[0]? = some (hdr prof)) := by
  cases h with
  | terminal cur cont code =>
    obtain ⟨code, status, hne, hw⟩ : ∃ code status, code ≠ .noDataAvailable ∧
        t.result = resultWord code status false := by
      obtain h | h | h | h | ⟨-, h | ⟨status, -, h⟩⟩ := code <;> exact ⟨_, _, by decide, h⟩
    rw [resultCode_of_resultWord hw]
    exact ⟨fun h => hne (number_injective h), .inl ⟨cur, cont⟩⟩
  | kept cur cap cont first code =>
    have hcode := resultCode_of_codeWord .shortData code
    have hcontents : (t.channel c).contents[0]? = (t.channel c).cells[0]? := List.getElem?_take_of_lt cur
    rw [hcode, hcontents]
    exact ⟨by decide, .inr ⟨rfl, cont, cur, cap, first⟩⟩

/-- Settles O29: the empty chunk touches no channel, and any other either clears its channel or is kept with
SHORT_DATA. -/
theorem decodeResultDecidesTheChannel : Obligations.DecodeResultDecidesTheChannel := by
  intro s t ch len hs hch hlen h
  obtain ⟨hn, hok⟩ := hs
  rcases execDecodeIn_cases (cfg := Config.hw) ch len s with
    ⟨hill, -⟩ | ⟨-, -, e⟩ | ⟨-, -, e⟩ | ⟨-, -, chunk, -, e⟩
  · rw [(channelOk_hw ch).mpr hch, (lengthOk_hw len).mpr hlen] at hill
    cases hill
  · cases e.symm.trans h
  · cases e.symm.trans h
    have hcode : (s.setResult (codeWord .noDataAvailable)).resultCode = 0x06#8 :=
      resultCode_of_codeWord .noDataAvailable rfl
    rw [hcode]
    exact ⟨fun _ => rfl, fun h => absurd h (by decide), fun h => absurd rfl h⟩
  · cases e.symm.trans h
    obtain ⟨hcells, -⟩ := hok ch.toNat hch
    obtain ⟨-, hresult⟩ := decodeChunk_result (cfg := Config.hw) (chunk := chunk) (hn.symm ▸ hch) hcells
    obtain ⟨hne, hchannel⟩ := hresult.cleared_or_kept
    refine ⟨fun h => absurd h hne, fun _ => hchannel.imp_right fun ⟨_, hkept⟩ => hkept, fun _ hshort => ?_⟩
    exact hchannel.resolve_right fun ⟨hcode, _⟩ => hshort hcode

/-! ## A chunk on a channel without a continuation -/

/-- Settles O26: nothing is sampled and nothing parsed. -/
theorem emptyChunkLeavesTheChannelAlone : Obligations.EmptyChunkLeavesTheChannelAlone :=
  fun s _ hch => exec_decode_empty hch s

/-- Settles O34: the pass ends where it began, in ReadHeader, and then nothing is retained. -/
theorem chunkWithoutHeaderKeepsNothing : Obligations.ChunkWithoutHeaderKeepsNothing := by
  intro s ch g len hch hg hne hcont hlen hin
  rw [exec_decode_chunk hch hlen hin hne, decodeChunk_fresh hcont, pass_no_header g hg]
  rfl

/-- A DECODE that does not report PACKET keeps everything but RESULT and its channel (R110, R127, R128). -/
theorem exec_decode_keeps (h : exec (.decode ch len) s = .next t) (hcode : t.resultCode ≠ 0x01#8) :
    Untouched s t ∧ SamePacket s t ∧ SameEncoder s t ∧ t.ck = s.ck ∧ OthersKept ch.toNat s t := by
  obtain ⟨huntouched, hck, henc, hothers, hpacket, -⟩ := decodeFrame _ _ _ _ h
  exact ⟨huntouched, hpacket hcode, henc, hck, hothers⟩

/-- Settles O35: the pass over the part of the frame ends SHORT with the header at its first byte, so the whole part is
handed to the save. -/
theorem incompleteFrameIsKeptFromItsHeader : Obligations.IncompleteFrameIsKeptFromItsHeader := by
  intro s ch f g a b len hch hs hf hab ha hb hg hcont hlen hin
  obtain ⟨hn, hok⟩ := hs
  obtain ⟨hcells, -⟩ := hok ch.toNat hch
  obtain ⟨-, st, hst, hpass⟩ := pass_shaped_prefix (cfg := Config.hw) hf hab ha hb
  have hexec := exec_decode_behind_noise rfl hch rfl hlen hg ha hcont hin hpass
  rw [applyResult_short hst] at hexec
  rcases Nat.lt_or_ge 40 a.length with hlong | hfit
  · rw [saveShort_overflow (h := 0) (cfg := Config.hw) hlong] at hexec
    have hcode : (s.overflow ch.toNat).resultCode = 0x07#8 := resultCode_of_codeWord .bufferOverflow rfl
    obtain ⟨huntouched, hpacket, henc, hck, hothers⟩ := exec_decode_keeps hexec (by rw [hcode]; decide)
    exact ⟨_, hexec, huntouched, hpacket, henc, hck, hothers, fun h => absurd h (Nat.not_le.mpr hlong),
      fun _ => ⟨rfl, channel_clearChannel s ch.toNat⟩⟩
  · obtain ⟨x, hx, -, hcontents, -, hsave⟩ := saveShort_keeps (h := 0) (input := a) hcells hfit
    rw [hsave] at hexec
    have hcode : ((s.setChannel ch.toNat x).setResult (codeWord .shortData)).resultCode = 0x02#8 :=
      resultCode_of_codeWord .shortData rfl
    obtain ⟨huntouched, hpacket, henc, hck, hothers⟩ := exec_decode_keeps hexec (by rw [hcode]; decide)
    refine ⟨_, hexec, huntouched, hpacket, henc, hck, hothers, fun _ => ⟨rfl, ?_⟩,
      fun h => absurd h (Nat.not_lt.mpr hfit)⟩
    rw [setResult_channel, channel_setChannel_same s ch.toNat x (hn.symm ▸ hch)]
    exact ⟨hx, hcontents⟩

/-! ## A continuation call -/

/-- Settles O37: `append` fails before anything is parsed. -/
theorem continuationThatDoesNotFitOverflows : Obligations.ContinuationThatDoesNotFitOverflows := by
  intro s ch len chunk hch hcont hpos hlen hin hfull
  rw [← length_of_sampleIn hin] at hfull
  rw [exec_decode_chunk hch hlen hin (ne_nil_of_sampleIn hin hpos), decodeChunk_overflow (cfg := Config.hw) hcont hfull]
  rfl

section SameCapacity

variable (hs : c < s.channels.length) (hu : c < u.channels.length)
  (hls : (s.channel c).cells.length = cfg.bufCap) (hlu : (u.channel c).cells.length = cfg.bufCap)
include hs hu hls hlu

/-- Two channels of the block's capacity are alike once cleared, whatever they held. -/
theorem clearChannel_channel_alike : ((s.clearChannel c).channel c).Alike ((u.clearChannel c).channel c) := by
  rw [State.clearChannel, State.clearChannel, channel_setChannel_same _ _ _ hs, channel_setChannel_same _ _ _ hu]
  exact ⟨hls.trans hlu.symm, rfl, rfl, rfl⟩

/-- A save starts from the cleared channel, so what it leaves there depends on the input alone (R153). -/
theorem saveShort_channel_alike (input : List Byte) (place : Option Nat) :
    ((s.saveShort cfg c input place).channel c).Alike ((u.saveShort cfg c input place).channel c) := by
  have hclear := clearChannel_channel_alike hs hu hls hlu
  cases place with
  | none => exact hclear
  | some j =>
    rcases Nat.lt_or_ge cfg.bufCap (input.drop j).length with h | h
    · rw [saveShort_overflow h, saveShort_overflow h]
      exact hclear
    · obtain ⟨x, hx, hxcur, hxcontents, hxl, hxsave⟩ := saveShort_keeps hls h
      obtain ⟨y, hy, hycur, hycontents, hyl, hysave⟩ := saveShort_keeps hlu h
      rw [hxsave, hysave, setResult_channel, setResult_channel, channel_setChannel_same _ _ _ hs,
        channel_setChannel_same _ _ _ hu]
      exact ⟨hxl.trans hyl.symm, hxcur.trans hycur.symm, hx.trans hy.symm, hxcontents.trans hycontents.symm⟩

/-- What a pass result leaves in the channel depends on the result and the input alone (R126 to R128). -/
theorem applyResult_channel_alike (prof : Profile) (r : PassResult) (input : List Byte) :
    ((s.applyResult cfg c prof r input).channel c).Alike ((u.applyResult cfg c prof r input).channel c) := by
  have hclear := clearChannel_channel_alike hs hu hls hlu
  cases r with
  | packet pkt => exact hclear
  | checksumError => exact hclear
  | suffixError => exact hclear
  | detectedError status => exact hclear
  | short st place =>
    by_cases hst : st = .readHeader
    · subst hst; exact saveShort_channel_alike hs hu hls hlu input none
    · rw [applyResult_short hst, applyResult_short hst]; exact saveShort_channel_alike hs hu hls hlu input place

end SameCapacity

/-- A pass result applied to two states that show the same outputs keeps them the same, whatever the channels hold. -/
theorem sameDecodeOutputs_applyResult_anyChannels (c : Nat) (prof : Profile) (r : PassResult) (input : List Byte)
    (hout : SameDecodeOutputs s u) :
    SameDecodeOutputs (s.applyResult cfg c prof r input) (u.applyResult cfg c prof r input) := by
  obtain ⟨-, h0, h1, hcells⟩ := hout
  obtain ⟨pkt, rfl⟩ | ⟨f, w, hf⟩ := applyResult_eq cfg c prof r input
  · exact sameDecodeOutputs_applyPacket prof pkt hcells
  · rw [hf s, hf u]
    exact ⟨rfl, h0, h1, hcells⟩

/-- Settles O36: both calls apply the pass result of the buffered bytes followed by the chunk, which leaves the outputs
and the channel alike. -/
theorem continuationIsDecodeOfTheConcatenation : Obligations.ContinuationIsDecodeOfTheConcatenation := by
  intro s u ch len len' chunk hch hs hu hcont hucont hpos hlen hin hfit hin' hout
  obtain ⟨hn, hok⟩ := hs
  obtain ⟨hun, huok⟩ := hu
  obtain ⟨hcells, -⟩ := hok ch.toNat hch
  obtain ⟨hucells, -⟩ := huok ch.toNat hch
  have hc : ch.toNat < s.channels.length := hn.symm ▸ hch
  have hne := ne_nil_of_sampleIn hin hpos
  rw [← length_of_sampleIn hin] at hfit
  have hlen' : len'.toNat ≤ 512 := by
    rw [← length_of_sampleIn hin', List.length_append, Channel.contents, List.length_take]
    omega
  obtain ⟨x, hxl, -, -, hdecode⟩ := decodeChunk_fits (cfg := Config.hw) hcont hcells hfit
  refine ⟨_, _, (exec_decode_chunk hch hlen hin hne).trans (congrArg _ hdecode),
    exec_decode_behind_noise (g := []) rfl hch rfl hlen' List.not_mem_nil (by simp [hne]) hucont hin' rfl,
    sameDecodeOutputs_applyResult_anyChannels _ _ _ _ hout, ?_⟩
  refine applyResult_channel_alike (by rwa [setChannel_channels, List.length_set]) (hun.symm ▸ hch) ?_ hucells _ _ _
  rw [channel_setChannel_same _ _ _ hc]
  exact hxl

/-! ## BUFFER_OVERFLOW -/

/-- A save that reports BUFFER_OVERFLOW is the overflow of the channel (R153). -/
theorem saveShort_of_overflow {input : List Byte} {place : Option Nat}
    (h : (s.saveShort cfg c input place).resultCode = 0x07#8) : s.saveShort cfg c input place = s.overflow c := by
  have hshort {v : State} (hv : v.result = codeWord .shortData) : v.resultCode ≠ 0x07#8 := by
    rw [resultCode_of_codeWord .shortData hv]; decide
  cases place with
  | none => exact absurd h (hshort rfl)
  | some j =>
    unfold State.saveShort at h
    cases ha : (s.channel c).clear.append cfg (input.drop j) with
    | none => exact saveShort_overflow (by simpa using append_eq_none.mp ha)
    | some x => simp only [ha] at h; exact absurd h (hshort rfl)

/-- A pass result is applied with BUFFER_OVERFLOW only where the bytes to save do not fit (R153). -/
theorem applyResult_of_overflow {prof : Profile} {r : PassResult} {input : List Byte}
    (h : (s.applyResult cfg c prof r input).resultCode = 0x07#8) :
    s.applyResult cfg c prof r input = s.overflow c := by
  have hother {code : ResultCode} {status : Byte} (hne : code ≠ .bufferOverflow)
      (hv : (s.applyResult cfg c prof r input).result = resultWord code status false) :
      s.applyResult cfg c prof r input = s.overflow c :=
    absurd (number_injective (b := .bufferOverflow) ((resultCode_of_resultWord hv).symm.trans h)) hne
  cases r with
  | packet pkt => exact hother (code := .packet) (by decide) rfl
  | checksumError => exact hother (code := .checksumError) (by decide) rfl
  | suffixError => exact hother (code := .suffixError) (by decide) rfl
  | detectedError status => exact hother (code := .detectedError) (by decide) rfl
  | short st place =>
    by_cases hst : st = .readHeader
    · subst hst; exact saveShort_of_overflow h
    · rw [applyResult_short hst] at h ⊢; exact saveShort_of_overflow h

/-- A decoded chunk that reports BUFFER_OVERFLOW leaves its channel cleared, whatever it held (R152, R153, R155). -/
theorem decodeChunk_cleared_of_overflow {chunk : List Byte} (h : (s.decodeChunk cfg c chunk).resultCode = 0x07#8) :
    ((s.decodeChunk cfg c chunk).channel c).Cleared := by
  have happlied {v : State} {r : PassResult} {input : List Byte}
      (h : (v.applyResult cfg c (cfg.profile c) r input).resultCode = 0x07#8) :
      ((v.applyResult cfg c (cfg.profile c) r input).channel c).Cleared := by
    rw [applyResult_of_overflow h]
    exact channel_clearChannel v c
  revert h
  unfold State.decodeChunk
  dsimp only
  split
  · split
    · exact fun _ => channel_clearChannel s c
    · exact happlied
  · exact happlied

/-- A DECODE that reports BUFFER_OVERFLOW decoded a chunk and left its channel cleared. -/
theorem exec_decode_cleared_of_overflow (h : exec (.decode ch len) s = .next t) (hcode : t.resultCode = 0x07#8) :
    (t.channel ch.toNat).Cleared := by
  rcases execDecodeIn_cases (cfg := Config.hw) ch len s with
    ⟨-, e⟩ | ⟨-, -, e⟩ | ⟨-, -, e⟩ | ⟨-, -, chunk, -, e⟩ <;> cases e.symm.trans h
  · exact absurd ((resultCode_of_codeWord .illegalCommand rfl).symm.trans hcode) (by decide)
  · exact absurd ((resultCode_of_codeWord .noDataAvailable rfl).symm.trans hcode) (by decide)
  · exact decodeChunk_cleared_of_overflow hcode

/-- Settles O38: what DECODE leaves alone unless it reports PACKET, the cleared channel, and with it the next chunk
parsed in place. -/
theorem overflowClearsTheChannelAndNothingElse : Obligations.OverflowClearsTheChannelAndNothingElse := by
  intro s t ch len hch h hcode
  have hcleared := exec_decode_cleared_of_overflow h hcode
  obtain ⟨huntouched, hpacket, henc, hck, hothers⟩ := exec_decode_keeps h (by rw [hcode]; decide)
  refine ⟨hcleared, hothers, huntouched, hck, hpacket, henc, fun u len' chunk hu hpos hlen' hin => ?_⟩
  have hcont : (u.channel ch.toNat).cont = false := by
    rw [State.channel, hu]
    exact hcleared.2
  rw [exec_decode_chunk hch hlen' hin (ne_nil_of_sampleIn hin hpos), decodeChunk_fresh hcont]

/-! ## RESET -/

/-- Settles O45: RESET is the clearing of one channel, and OK. -/
theorem resetClearsOneChannel : Obligations.ResetClearsOneChannel := by
  intro s ch
  rcases execResetIn_cases (cfg := Config.hw) ch s with ⟨hok, e⟩ | ⟨hok, e⟩
  · have hch : ¬ ch.toNat < 2 := fun h => by rw [(channelOk_hw ch).mpr h] at hok; cases hok
    exact ⟨fun h => absurd h hch, fun _ => e⟩
  · have hch : ch.toNat < 2 := (channelOk_hw ch).mp hok
    exact ⟨fun _ => ⟨_, e, rfl, channel_clearChannel s ch.toNat, fun d hd => channel_setChannel_other s _ _ hd,
      exec_untouched (i := .reset ch) e, rfl, ⟨rfl, rfl, fun _ _ _ => rfl⟩, rfl, fun _ _ _ => rfl⟩,
      fun h => absurd hch (Nat.not_lt.mpr h)⟩

end Sys2Proof.Machine
end

section
/-! The Checksum Validator: what `compute` depends on, and what CK_COMPUTE and CK_VERIFY leave (42_checksum.md R170 to
R175). -/

namespace Sys2Proof.Machine

variable {s : State} {len : BitVec 16} {p q : List Byte}

/-! ## The sum of the covered bytes -/

theorem sum8_replicate (n : Nat) (b : Byte) : sum8 (List.replicate n b) = n * b.toNat := by
  rw [sum8, List.map_replicate, List.sum_replicate, smul_eq_mul]

/-- The sum does not see the order of the bytes. -/
theorem sum8_perm (h : p.Perm q) : sum8 p = sum8 q := (h.map _).sum_eq

theorem sum8_le (p : List Byte) : sum8 p ≤ p.length * 255 := by
  induction p with
  | nil => rfl
  | cons b p ih =>
    have hb := b.isLt
    rw [sum8_cons, List.length_cons]
    omega

/-- Two computes agree exactly when their covered bytes have sums equal mod 2^16. -/
theorem compute_eq_iff {c c' l l' : Byte} :
    compute c l p = compute c' l' q ↔
      (l.toNat + c.toNat + sum8 p) % 65536 = (l'.toNat + c'.toNat + sum8 q) % 65536 := neg16_eq_iff _ _

/-- Two sums that differ in one byte alone differ mod 2^16, whatever the rest of the sum is. -/
theorem mod_ne_of_byte_ne {a b : Byte} (h : a ≠ b) {m n : Nat} (hsum : m + b.toNat = n + a.toNat) :
    m % 65536 ≠ n % 65536 := by
  have hval : a.toNat ≠ b.toNat := fun e => h (BitVec.eq_of_toNat_eq e)
  have ha := a.isLt
  have hb := b.isLt
  omega

/-- Settles O48: the two sums differ by less than 2^8 where one byte changes, and not at all in a reordering. -/
theorem checksumDetectsOneChangedByte : Obligations.ChecksumDetectsOneChangedByte := by
  refine ⟨fun c c' l p hc h => ?_, fun c l l' p hl h => ?_, fun c l b b' p j hb hne h => ?_, fun c l p q hpq => ?_⟩
  · exact mod_ne_of_byte_ne hc (by omega) (compute_eq_iff.mp h)
  · exact mod_ne_of_byte_ne hl (by omega) (compute_eq_iff.mp h)
  · have hsum := sum8_set b' hb
    exact mod_ne_of_byte_ne hne (by omega) (compute_eq_iff.mp h)
  · rw [compute, compute, sum8_perm hpq]

/-! ## CK_COMPUTE -/

/-- CK_COMPUTE over written bytes completes, and CK is the checksum of the id, the length and the bytes (R171). -/
theorem exec_ckCompute (hlen : len.toNat ≤ 512) (hin : s.sampleIn len.toNat = some p) :
    exec (.ckCompute len) s =
      .next { s with ck := (compute s.arg1 s.arg0 p).setWidth 32, result := 0x00000009#32 } := by
  simp only [exec, execCkCompute, execCkComputeIn, (lengthOk_hw len).mpr hlen, if_true, hin]
  rfl

theorem toNat_arg0 (s : State) : s.arg0.toNat = s.arg.toNat % 2 ^ 8 := BitVec.extractLsb'_toNat 0 8 s.arg

theorem toNat_arg1 (s : State) : s.arg1.toNat = s.arg.toNat / 2 ^ 8 % 2 ^ 8 := by
  rw [State.arg1, BitVec.extractLsb'_toNat, Nat.shiftRight_eq_div_pow]

theorem toNat_arg2 (s : State) : s.arg2.toNat = s.arg.toNat / 2 ^ 16 % 2 ^ 8 := by
  rw [State.arg2, BitVec.extractLsb'_toNat, Nat.shiftRight_eq_div_pow]

theorem toNat_arg3 (s : State) : s.arg3.toNat = s.arg.toNat / 2 ^ 24 % 2 ^ 8 := by
  rw [State.arg3, BitVec.extractLsb'_toNat, Nat.shiftRight_eq_div_pow]

/-- Settles O46: CK is `compute` of the two bytes of ARG and the payload, which cancels their sum. -/
theorem ckComputeLeavesTheNegatedSum : Obligations.CkComputeLeavesTheNegatedSum := by
  intro s len p hlen hin
  refine ⟨_, exec_ckCompute hlen hin, rfl, ?_⟩
  have hck : ((compute s.arg1 s.arg0 p).setWidth 32).toNat = (compute s.arg1 s.arg0 p).toNat :=
    BitVec.toNat_setWidth_of_le (by decide)
  have hlt := (compute s.arg1 s.arg0 p).isLt
  have hcancel : (s.arg0.toNat + s.arg1.toNat + sum8 p + (compute s.arg1 s.arg0 p).toNat) % 65536 = 0 := add_neg16 _
  rw [toNat_arg0, toNat_arg1, sum8] at hcancel
  rw [hck]
  exact ⟨hlt, by omega⟩

/-- Settles O47: `compute` is the negated sum, the decoder's running sum is the sum mod 2^16, and the worked values are
negated sums of equal bytes. -/
theorem checksumArithmetic : Obligations.ChecksumArithmetic := by
  refine ⟨fun cmdId length p => ⟨toNat_neg16 _, add_neg16 _, ?_, fun hp => ?_⟩,
    fun s len p hlen hin => ⟨_, exec_ckCompute hlen hin, rfl⟩, ?_⟩
  · rw [BitVec.add_comm]
    exact neg16_runningSum .idLen cmdId length p
  · have hsum := sum8_le p
    have hid := cmdId.isLt
    have hlength := length.isLt
    omega
  · simp only [compute, sum8_replicate]
    decide

/-! ## CK_VERIFY -/

/-- The byte pairs of ARG agree in position exactly when its halves are equal (R172). -/
theorem verify_arg_iff (s : State) :
    verify s.arg0 s.arg1 s.arg2 s.arg3 = true ↔ s.arg.toNat % 2 ^ 16 = s.arg.toNat / 2 ^ 16 := by
  have hlt := s.arg.isLt
  have hlow : s.arg.toNat % 2 ^ 16 = s.arg0.toNat + 2 ^ 8 * s.arg1.toNat := by
    rw [toNat_arg0, toNat_arg1]; omega
  have hhigh : s.arg.toNat / 2 ^ 16 = s.arg2.toNat + 2 ^ 8 * s.arg3.toNat := by
    rw [toNat_arg2, toNat_arg3]; omega
  have h0 := s.arg0.isLt
  have h2 := s.arg2.isLt
  rw [verify_iff, ← BitVec.toNat_inj, ← BitVec.toNat_inj, hlow, hhigh]
  omega

/-- Settles O49: the decoder fixes the word, and VERIFY_OK is the comparison of the two halves of ARG. -/
theorem ckVerifyComparesInPosition : Obligations.CkVerifyComparesInPosition := by
  refine ⟨decodeWordIn_encode (i := .ckVerify) rfl, fun w h => ((decodeWordIn_eq_ok_iff.mp h).1).symm, fun s => ?_⟩
  simp only [← verify_arg_iff]
  cases hv : verify s.arg0 s.arg1 s.arg2 s.arg3 <;> simp only [exec, execCkVerify, hv] <;> rfl

end Sys2Proof.Machine
end

section
/-! The Packet Encoder: when a BUILD fits, what it then leaves in ENC_OUT, what it depends on, and what its frame decodes
to (43_encoder.md R190 to R196). -/

namespace Sys2Proof.Machine

variable {cfg : Config} {s t : State} {c : Nat} {len : BitVec 16} {p : List Byte}

/-! ## A BUILD that fits and one that does not -/

/-- A read of the cells just written returns what was written. -/
theorem readBytes_writeBytes (m : Memory) (a : Nat) (bs : List Byte) :
    Memory.readBytes (Memory.writeBytes m a bs) a bs.length = some bs :=
  readBytes_eq_some.mpr ⟨rfl, fun _ hj => read_writeBytes_inside _ _ _ _ hj⟩

/-- The block after a BUILD of a payload `p` that fits: the frame in ENC_OUT, its length in ENC_LEN, and OK (R190). -/
def State.withRequestFrame (s : State) (p : List Byte) : State :=
  { s with
    mem := Memory.writeBytes s.mem 0x200 (requestFrame s.arg0 s.arg1 p)
    encLen := BitVec.ofNat 32 (7 + p.length)
    result := 0x00000009#32 }

/-- For a legal ENC_CAP the length byte never decides: only a frame longer than ENC_CAP is too large (R191). -/
theorem payloadTooLarge_iff (hcfg : cfg.Legal) (n : Nat) : payloadTooLarge cfg n = true ↔ cfg.encCap < 7 + n := by
  obtain ⟨-, -, -, -, -, -, hcap, -, -⟩ := hcfg
  rw [payloadTooLarge, decide_eq_true_iff]
  omega

/-- A payload is accepted exactly where its frame fits ENC_CAP (R191). -/
theorem payloadTooLarge_eq_false_iff (hcfg : cfg.Legal) (n : Nat) :
    payloadTooLarge cfg n = false ↔ 7 + n ≤ cfg.encCap := by
  rw [Bool.eq_false_iff, Ne, payloadTooLarge_iff hcfg, Nat.not_lt]

/-- BUILD of written bytes whose frame fits ENC_CAP (R190). -/
theorem execBuildIn_fits (hcfg : cfg.Legal) (hlen : len.toNat ≤ cfg.inCap) (hin : s.sampleIn len.toNat = some p)
    (hfit : 7 + len.toNat ≤ cfg.encCap) : execBuildIn cfg len s = .next (s.withRequestFrame p) := by
  simp only [execBuildIn, lengthOk, decide_eq_true hlen, if_true, hin, (payloadTooLarge_eq_false_iff hcfg _).mpr hfit,
    State.withRequestFrame, length_of_sampleIn hin]
  rfl

/-- BUILD of written bytes whose frame does not fit ENC_CAP (R191). -/
theorem execBuildIn_tooLarge (hcfg : cfg.Legal) (hlen : len.toNat ≤ cfg.inCap) (hin : s.sampleIn len.toNat = some p)
    (hbig : cfg.encCap < 7 + len.toNat) :
    execBuildIn cfg len s = .next { s with encLen := 0x00000000#32, result := 0x00000008#32 } := by
  simp only [execBuildIn, lengthOk, decide_eq_true hlen, if_true, hin, (payloadTooLarge_iff hcfg _).mpr hbig]
  rfl

/-- BUILD on this hardware of at most 23 written bytes. -/
theorem exec_build_fits (hlen : len.toNat ≤ 23) (hin : s.sampleIn len.toNat = some p) :
    exec (.build len) s = .next (s.withRequestFrame p) :=
  execBuildIn_fits hw_legal (by rw [hw_inCap]; omega) hin (by rw [hw_encCap]; omega)

/-- All that a BUILD on this hardware can end in: ILLEGAL_COMMAND, a payload too large, or the frame. -/
theorem exec_build_next (h : exec (.build len) s = .next t) :
    t = raiseIllegalCommand s ∨
    (23 < len.toNat ∧ len.toNat ≤ 512 ∧ (∃ p, s.sampleIn len.toNat = some p) ∧
      t = { s with encLen := 0x00000000#32, result := 0x00000008#32 }) ∨
    (len.toNat ≤ 23 ∧ ∃ p, s.sampleIn len.toNat = some p ∧ t = s.withRequestFrame p) := by
  rcases execBuildIn_cases (cfg := Config.hw) len s with
    ⟨-, e⟩ | ⟨-, -, e⟩ | ⟨hlen, hbig, hp, e⟩ | ⟨-, hsmall, p, hp, -⟩
  · cases e.symm.trans h; exact .inl rfl
  · cases e.symm.trans h
  · have hcap : 30 < 7 + len.toNat := (payloadTooLarge_iff hw_legal _).mp hbig
    cases e.symm.trans h
    exact .inr (.inl ⟨by omega, (lengthOk_hw len).mp hlen, hp, rfl⟩)
  · have hcap : 7 + len.toNat ≤ 30 := (payloadTooLarge_eq_false_iff hw_legal _).mp hsmall
    cases (exec_build_fits (by omega) hp).symm.trans h
    exact .inr (.inr ⟨by omega, p, hp, rfl⟩)

/-- Settles O51: what fits ENC_CAP, at most 262, leaves at most 255 bytes of payload. -/
theorem buildSizeLimit : Obligations.BuildSizeLimit := by
  refine ⟨fun cfg s len p hcfg hlen hin => ⟨fun hfit => ?_, execBuildIn_tooLarge hcfg hlen hin⟩,
    fun s len p hlen hin => ⟨fun hfit => ⟨_, exec_build_fits hfit hin, rfl⟩, fun hbig => ?_⟩⟩
  · have hexec := execBuildIn_fits hcfg hlen hin hfit
    obtain ⟨-, -, -, -, -, -, hcap, -, -⟩ := hcfg
    exact ⟨by omega, _, hexec, rfl⟩
  · exact execBuildIn_tooLarge hw_legal hlen hin (by rw [hw_encCap]; omega)

/-! ## The frame in ENC_OUT -/

/-- ENC_OUT up to the frame's end holds the frame (R192, R193). -/
theorem readBytes_withRequestFrame (s : State) (p : List Byte) :
    Memory.readBytes (s.withRequestFrame p).mem 0x200 (7 + p.length) = some (requestFrame s.arg0 s.arg1 p) := by
  rw [← length_requestFrame s.arg0 s.arg1 p]
  exact readBytes_writeBytes _ _ _

/-- Every cell outside the frame reads as before (R193). -/
theorem read_withRequestFrame_outside (s : State) (p : List Byte) {a : Nat} (h : a < 0x200 ∨ 0x207 + p.length ≤ a) :
    Memory.read (s.withRequestFrame p).mem a = Memory.read s.mem a := by
  refine read_writeBytes_outside _ _ _ _ ?_
  rw [length_requestFrame]
  omega

/-- What ENC_OUT holds at each place of the frame. -/
theorem read_withRequestFrame {j : Nat} (hj : j < 7 + p.length) :
    Memory.read (s.withRequestFrame p).mem (0x200 + j) = (requestFrame s.arg0 s.arg1 p)[j]? := by
  obtain ⟨-, hcells⟩ := readBytes_eq_some.mp (readBytes_withRequestFrame s p)
  exact hcells j hj

/-- ENC_LEN is the length of the frame (R193). -/
theorem toNat_encLen_withRequestFrame (hp : p.length ≤ 255) : (s.withRequestFrame p).encLen.toNat = 7 + p.length := by
  rw [State.withRequestFrame, BitVec.toNat_ofNat]
  omega

/-- The two checksum bytes of a frame, high byte first, as a number (R92, R170). -/
theorem toNat_checksumBytes (id : Byte) (hp : p.length ≤ 255) :
    (highByte (compute id (BitVec.ofNat 8 p.length) p)).toNat * 2 ^ 8 +
        (lowByte (compute id (BitVec.ofNat 8 p.length) p)).toNat =
      (2 ^ 16 - (id.toNat + p.length + sum8 p) % 2 ^ 16) % 2 ^ 16 :=
  ((bytes_eq_iff _ _ _).mp ⟨rfl, rfl⟩).trans (toNat_expectedChecksum_idLen id hp)

/-- Settles O50: the frame is what ENC_OUT reads back, and its checksum cancels the sum. -/
theorem buildWritesTheRequestFrame : Obligations.BuildWritesTheRequestFrame := by
  intro s len p hlen hin
  have hexec := exec_build_fits hlen hin
  rw [← length_of_sampleIn hin] at hlen ⊢
  have hchecksum := toNat_checksumBytes (p := p) s.arg1 (by omega)
  exact ⟨_, _, _, hexec, rfl, readBytes_withRequestFrame s p, by omega,
    fun _ => read_withRequestFrame_outside s p⟩

/-! ## What a BUILD depends on, and what it leaves to a DECODE -/

/-- A BUILD touches neither the packet registers nor PKT_PAYLOAD (R193). -/
theorem exec_build_samePacket (h : exec (.build len) s = .next t) : SamePacket s t := by
  obtain rfl | ⟨-, -, -, rfl⟩ | ⟨-, p, -, rfl⟩ := exec_build_next h
  · exact ⟨rfl, rfl, fun _ _ _ => rfl⟩
  · exact ⟨rfl, rfl, fun _ _ _ => rfl⟩
  · exact ⟨rfl, rfl, fun _ _ ha => read_withRequestFrame_outside s p (.inl ha)⟩

/-- A command leaves what the next one samples from IN (R42). -/
theorem Untouched.sampleIn (h : Untouched s t) (n : Nat) : t.sampleIn n = s.sampleIn n :=
  readBytes_congr fun _ _ => h.inCells _ (Nat.le_add_right _ _)

/-- States with the same packet registers and payload cells show the host the same after one word in RESULT. -/
theorem SamePacket.setResult (h : SamePacket s t) (w : Word) : SameDecodeOutputs (s.setResult w) (t.setResult w) := by
  obtain ⟨h0, h1, hcells⟩ := h
  exact ⟨rfl, h0.symm, h1.symm, fun a hlo hhi => (hcells a hlo hhi).symm⟩

/-- What RESULT held before a pass result is applied does not matter (60_exceptions.md R213). -/
theorem applyResult_setResult (w : Word) (prof : Profile) (r : PassResult) (input : List Byte) :
    (s.setResult w).applyResult cfg c prof r input = s.applyResult cfg c prof r input := by
  obtain ⟨pkt, rfl⟩ | ⟨f, v, hf⟩ := applyResult_eq cfg c prof r input
  · rfl
  · rw [hf, hf]; rfl

section SameChannels

variable (h : SamePacket s t) (hch : t.channels = s.channels)
include h hch

/-- A pass result applied to states with the same packet and channels gives the same (R126 to R128). -/
theorem SamePacket.applyResult (prof : Profile) (r : PassResult) (input : List Byte) :
    SameDecodeOutputs (s.applyResult cfg c prof r input) (t.applyResult cfg c prof r input) ∧
      (t.applyResult cfg c prof r input).channels = (s.applyResult cfg c prof r input).channels := by
  obtain ⟨hout, hchannels⟩ := sameDecodeOutputs_applyResult (cfg := cfg) (c := c) prof r input
    (h.setResult t.result) hch.symm
  rw [applyResult_setResult] at hout hchannels
  exact ⟨hout, hchannels.symm⟩

/-- A chunk decoded on states with the same packet and channels gives the same, whatever else they hold. -/
theorem SamePacket.decodeChunk (chunk : List Byte) :
    SameDecodeOutputs (s.decodeChunk cfg c chunk) (t.decodeChunk cfg c chunk) ∧
      (t.decodeChunk cfg c chunk).channels = (s.decodeChunk cfg c chunk).channels := by
  have hchannel : t.channel c = s.channel c := by rw [State.channel, hch, State.channel]
  have hset (x : Channel) : (t.setChannel c x).channels = (s.setChannel c x).channels :=
    congrArg (·.set c x) hch
  have hpkt (x : Channel) : SamePacket (s.setChannel c x) (t.setChannel c x) := h
  cases hcont : (s.channel c).cont with
  | false =>
    rw [decodeChunk_fresh hcont, decodeChunk_fresh (hchannel ▸ hcont)]
    exact h.applyResult hch _ _ _
  | true =>
    simp only [State.decodeChunk, hchannel, hcont, if_true]
    cases (s.channel c).append cfg chunk with
    | none =>
      rw [State.overflow, State.overflow, State.clearChannel, State.clearChannel, hchannel]
      exact ⟨(hpkt _).setResult _, hset _⟩
    | some x => exact (hpkt _).applyResult (hset _) _ _ _

/-- A DECODE on states with the same packet, channels and IN gives the same, whatever else they hold. -/
theorem SamePacket.exec_decode (hin : ∀ n, t.sampleIn n = s.sampleIn n) {ch : BitVec 4} {d : State}
    (hd : exec (.decode ch len) s = .next d) :
    ∃ e, exec (.decode ch len) t = .next e ∧ SameDecodeOutputs d e ∧ e.channels = d.channels := by
  revert hd
  simp only [exec, execDecode, execDecodeIn, hin]
  cases channelOk Config.hw ch && lengthOk Config.hw len with
  | false => rintro ⟨⟩; exact ⟨_, rfl, h.setResult _, hch⟩
  | true =>
    cases s.sampleIn len.toNat with
    | none => rintro ⟨⟩
    | some chunk =>
      by_cases h0 : len = 0#16
      · simp only [h0, if_true]
        rintro ⟨⟩; exact ⟨_, rfl, h.setResult _, hch⟩
      · simp only [h0, if_true, if_false]
        rintro ⟨⟩; exact ⟨_, rfl, h.decodeChunk hch _⟩

end SameChannels

/-- Settles O52: a legal BUILD writes from ARG and the payload alone; it keeps all that a DECODE reads. -/
theorem buildIsIndependent : Obligations.BuildIsIndependent := by
  refine ⟨fun s u t len harg hcells ht hlegal => ?_, fun s t d len len' ch ht hd => ?_⟩
  · have hin : s.sampleIn len.toNat = u.sampleIn len.toNat := readBytes_congr hcells
    obtain rfl | ⟨hbig, hlen, ⟨p, hp⟩, rfl⟩ | ⟨hfit, p, hp, rfl⟩ := exec_build_next ht
    · exact absurd rfl hlegal
    · exact ⟨_, execBuildIn_tooLarge hw_legal hlen (hin ▸ hp) (by rw [hw_encCap]; omega), rfl, rfl,
        fun j hj => absurd hj (Nat.not_lt_zero j)⟩
    · have h0 : u.arg0 = s.arg0 := congrArg (BitVec.extractLsb' 0 8) harg.symm
      have h1 : u.arg1 = s.arg1 := congrArg (BitVec.extractLsb' 8 8) harg.symm
      have hlength := length_of_sampleIn hp
      refine ⟨_, exec_build_fits hfit (hin ▸ hp), rfl, rfl, fun j hj => ?_⟩
      rw [toNat_encLen_withRequestFrame (by omega)] at hj
      rw [read_withRequestFrame hj, read_withRequestFrame hj, h0, h1]
  · exact (exec_build_samePacket ht).exec_decode (exec_channels_of_unnamed rfl ht) (exec_untouched ht).sampleIn hd

/-! ## The frame fed back -/

/-- Settles O53: the decoder reads the mode as the id and cmdID as the status; with status 0 the frame's checksum, which
leaves the mode out, is the expected one for mode 0 alone. -/
theorem builtFrameFedBack : Obligations.BuiltFrameFedBack := by
  intro s t u len len' p hlen hin ht hlen' hfed hcont
  cases (exec_build_fits hlen hin).symm.trans ht
  have hp : p.length ≤ 23 := (length_of_sampleIn hin).symm ▸ hlen
  have hencLen := toNat_encLen_withRequestFrame (s := s) (p := p) (by omega)
  rw [hencLen] at hlen'
  rw [hencLen, readBytes_withRequestFrame] at hfed
  obtain ⟨v, hv⟩ := exec_completes (i := .decode 0#4 len') hfed
  refine ⟨v, hv, fun hid => ?_, fun hid hmode => ?_, fun hid hmode => ?_⟩
  · have hdetected := nonzeroStatusEndsTheFrame u s.arg0 s.arg1 [] _ len' hid List.not_mem_nil hcont (by omega) hfed
    cases hdetected.symm.trans hv
    rfl
  · have hne : s.arg0.toNat ≠ 0 := fun h => hmode (BitVec.eq_of_toNat_eq h)
    have hlt := s.arg0.isLt
    have hbytes := toNat_checksumBytes (p := p) 0x00#8 (by omega)
    rw [BitVec.toNat_zero] at hbytes
    rw [hid, ← List.append_nil (requestFrame _ _ _)] at hfed
    obtain ⟨hmismatch, -⟩ := checksumErrorBeatsTheSuffix u s.arg0 _ _ 0x77#8 p [] [] len' (by omega)
      List.not_mem_nil hcont (by omega) hfed
    cases (hmismatch (by omega)).symm.trans hv
    rfl
  · rw [hid, hmode, ← List.append_nil (requestFrame _ _ _)] at hfed
    obtain ⟨w, hw, hresult, -, hpktId, -, -, -, -, hpktLen, -, hpayload, -⟩ := responseFrameDecodesToItsPacket u 0x00#8
      p [] [] len' (by omega) List.not_mem_nil hcont (by omega) hfed
    cases hw.symm.trans hv
    exact ⟨hresult, hpktId, hpktLen, hpayload⟩

end Sys2Proof.Machine
end

section
/-! What a command leaves in RESULT (60_exceptions.md R213, R214): nothing of what stood there before, STATUS from the
decode pass alone, and VERIFY_OK from CK_VERIFY alone. -/

namespace Sys2Proof.Machine

variable {cfg : Config} {s t : State} {c : Nat}

/-! ## What RESULT held before a command -/

/-- What RESULT held before a chunk is decoded does not matter. -/
theorem decodeChunk_setResult (w : Word) (chunk : List Byte) :
    (s.setResult w).decodeChunk cfg c chunk = s.decodeChunk cfg c chunk := by
  cases hcont : (s.channel c).cont with
  | false =>
    rw [decodeChunk_fresh hcont, decodeChunk_fresh (s := s.setResult w) hcont]
    exact applyResult_setResult w _ _ _
  | true =>
    simp only [State.decodeChunk, setResult_channel, hcont, if_true]
    cases (s.channel c).append cfg chunk with
    | none => rfl
    | some x => exact applyResult_setResult (s := s.setChannel c { x with cont := false }) w _ _ _

/-- What RESULT held before a command does not matter, whatever the command ends in. -/
theorem exec_setResult (i : Instr) (s : State) (w : Word) : exec i (s.setResult w) = exec i s := by
  cases i with
  | decode ch len => simp only [exec, execDecode, execDecodeIn, decodeChunk_setResult]; rfl
  | reset ch => rfl
  | build len => rfl
  | ckCompute len => rfl
  | ckVerify => rfl

/-! ## What RESULT holds after a command -/

/-- A save reports a code other than DETECTED_ERROR (R153). -/
theorem saveShort_code (s : State) (c : Nat) (input : List Byte) (place : Option Nat) :
    ∃ code, code ≠ .detectedError ∧ (s.saveShort cfg c input place).result = codeWord code := by
  obtain ⟨code, hmem, hw⟩ | ⟨hprof, -⟩ := saveShort_word (cfg := cfg) .mc s c input place
  · exact ⟨code, fun e => absurd (e ▸ hmem) (by decide), hw⟩
  · cases hprof

/-- Applying a pass result reports DETECTED_ERROR exactly where the pass ended on a status byte, with that byte. -/
theorem applyResult_report (prof : Profile) (r : PassResult) (input : List Byte) :
    (∃ code, code ≠ .detectedError ∧ (s.applyResult cfg c prof r input).result = codeWord code) ∨
      ∃ status, r = .detectedError status ∧
        (s.applyResult cfg c prof r input).result = resultWord .detectedError status false := by
  cases r with
  | packet pkt => exact .inl ⟨.packet, by decide, rfl⟩
  | checksumError => exact .inl ⟨.checksumError, by decide, rfl⟩
  | suffixError => exact .inl ⟨.suffixError, by decide, rfl⟩
  | detectedError status => exact .inr ⟨status, rfl, rfl⟩
  | short st place =>
    by_cases hst : st = .readHeader
    · subst hst; exact .inl (saveShort_code (cfg := cfg) s c input none)
    · rw [applyResult_short hst]; exact .inl (saveShort_code s c input place)

/-- A channel of the invariant without a continuation has no buffered bytes (10_state.md R23). -/
theorem Channel.Ok.contents_of_idle {prof : Profile} {ch : Channel} (h : ch.Ok cfg prof) (hcont : ch.cont = false) :
    ch.contents = [] := by
  obtain ⟨-, -, -, hidle⟩ := h
  rw [Channel.contents, hidle hcont, List.take_zero]

/-- A decoded chunk reports DETECTED_ERROR only with the byte on which the pass over the buffered bytes and the chunk
ended. -/
theorem decodeChunk_report (s : State) (c : Nat) (chunk : List Byte) :
    (∃ code, code ≠ .detectedError ∧ (s.decodeChunk cfg c chunk).result = codeWord code) ∨
      ∃ status, (s.decodeChunk cfg c chunk).result = resultWord .detectedError status false ∧
        ((s.channel c).Ok cfg (cfg.profile c) →
          pass cfg (cfg.profile c) ((s.channel c).contents ++ chunk) = .detectedError status) := by
  cases hcont : (s.channel c).cont with
  | false =>
    rw [decodeChunk_fresh hcont]
    refine (applyResult_report _ _ _).imp_right fun ⟨status, hpass, hw⟩ => ⟨status, hw, fun hok => ?_⟩
    rw [hok.contents_of_idle hcont, List.nil_append, hpass]
  | true =>
    simp only [State.decodeChunk, hcont, if_true]
    cases happ : (s.channel c).append cfg chunk with
    | none => exact .inl ⟨.bufferOverflow, by decide, rfl⟩
    | some x =>
      refine (applyResult_report _ _ _).imp_right fun ⟨status, hpass, hw⟩ => ⟨status, hw, fun hok => ?_⟩
      obtain ⟨hcells, -⟩ := hok
      rw [← contents_append hcells happ, hpass]

/-- The word `w` that command `i`, run on `s`, leaves in RESULT. -/
inductive CommandReport (i : Instr) (s : State) (w : Word) : Prop where
  /-- only a code is reported -/
  | code (code : ResultCode) (other : code ≠ .detectedError) (notVerify : i ≠ .ckVerify) (eq : w = codeWord code)
  /-- CK_VERIFY reports its comparison -/
  | verified (isVerify : i = .ckVerify) (eq : w = resultWord .ok 0x00#8 (verify s.arg0 s.arg1 s.arg2 s.arg3))
  /-- a DECODE reports the status byte its pass ended on -/
  | detected (ch : BitVec 4) (len : BitVec 16) (chunk : List Byte) (status : Byte) (isDecode : i = .decode ch len)
      (sampled : s.sampleIn len.toNat = some chunk)
      (passed : s.ChannelsOk Config.hw →
        pass Config.hw (Config.hw.profile ch.toNat) ((s.channel ch.toNat).contents ++ chunk) = .detectedError status)
      (eq : w = resultWord .detectedError status false)

/-- All that a command can leave in RESULT. -/
theorem exec_report {i : Instr} (h : exec i s = .next t) : CommandReport i s t.result := by
  cases i with
  | decode ch len =>
    rcases execDecodeIn_cases (cfg := Config.hw) ch len s with
      ⟨-, e⟩ | ⟨-, -, e⟩ | ⟨-, -, e⟩ | ⟨hlegal, -, chunk, hin, e⟩ <;> cases e.symm.trans h
    · exact .code .illegalCommand (by decide) (by simp) rfl
    · exact .code .noDataAvailable (by decide) (by simp) rfl
    · obtain ⟨hch, -⟩ := Bool.and_eq_true_iff.mp hlegal
      obtain ⟨code, hne, hw⟩ | ⟨status, hw, hpass⟩ := decodeChunk_report (cfg := Config.hw) s ch.toNat chunk
      · exact .code code hne (by simp) hw
      · exact .detected ch len chunk status rfl hin
          (fun ⟨_, hok⟩ => hpass (hok ch.toNat ((channelOk_hw ch).mp hch))) hw
  | reset ch =>
    rcases execResetIn_cases (cfg := Config.hw) ch s with ⟨-, e⟩ | ⟨-, e⟩ <;> cases e.symm.trans h
    · exact .code .illegalCommand (by decide) (by simp) rfl
    · exact .code .ok (by decide) (by simp) rfl
  | build len =>
    obtain rfl | ⟨-, -, -, rfl⟩ | ⟨-, _, -, rfl⟩ := exec_build_next h
    · exact .code .illegalCommand (by decide) (by simp) rfl
    · exact .code .payloadTooLarge (by decide) (by simp) rfl
    · exact .code .ok (by decide) (by simp) rfl
  | ckCompute len =>
    rcases execCkComputeIn_cases (cfg := Config.hw) len s with ⟨-, e⟩ | ⟨-, -, e⟩ | ⟨-, _, -, e⟩ <;>
      cases e.symm.trans h
    · exact .code .illegalCommand (by decide) (by simp) rfl
    · exact .code .ok (by decide) (by simp) rfl
  | ckVerify => cases h; exact .verified rfl rfl

/-- STATUS of a composed RESULT word (10_state.md R32). -/
theorem resultStatus_of_resultWord {code : ResultCode} {status : Byte} {v : Bool}
    (h : t.result = resultWord code status v) : t.resultStatus = status := by
  rw [State.resultStatus, h, status_resultWord]

/-- VERIFY_OK of a composed RESULT word (10_state.md R32). -/
theorem verifyOk_of_resultWord {code : ResultCode} {status : Byte} {v : Bool}
    (h : t.result = resultWord code status v) : t.verifyOk = v := by
  rw [State.verifyOk, h, verifyOk_resultWord]

/-- Settles O24: what RESULT held before is read by no command, and each of the three forms of word a command leaves
has the fields R213 gives it. -/
theorem everyCommandWritesTheWholeResult : Obligations.EveryCommandWritesTheWholeResult := by
  intro i s t h
  refine ⟨fun r => (exec_setResult i s r).trans h, ?_⟩
  cases exec_report h with
  | code code other notVerify eq =>
    have hcode : t.resultCode ≠ 0x05#8 := fun h5 =>
      other (number_injective (b := .detectedError) ((resultCode_of_codeWord code eq).symm.trans h5))
    exact ⟨eq ▸ unnamed_resultWord _ _ _, fun hst => absurd (resultStatus_of_resultWord eq) hst,
      fun h5 => absurd h5 hcode, fun hi => absurd hi notVerify, fun _ => verifyOk_of_resultWord eq⟩
  | verified isVerify eq =>
    have hcode : t.resultCode = 0x09#8 := resultCode_of_resultWord eq
    exact ⟨eq ▸ unnamed_resultWord _ _ _, fun hst => absurd (resultStatus_of_resultWord eq) hst,
      fun h5 => absurd (hcode.symm.trans h5) (by decide), fun _ => verifyOk_of_resultWord eq,
      fun hi => absurd isVerify hi⟩
  | detected ch len chunk status isDecode sampled passed eq =>
    have hne : i ≠ .ckVerify := by rw [isDecode]; simp
    refine ⟨eq ▸ unnamed_resultWord _ _ _, fun _ => resultCode_of_resultWord eq,
      fun _ hok => ⟨ch, len, chunk, isDecode, sampled, ?_⟩, fun hi => absurd hi hne, fun _ => verifyOk_of_resultWord eq⟩
    rw [resultStatus_of_resultWord eq, passed hok]

end Sys2Proof.Machine
end

section
/-! Power-on reset, the one fault, and what changes a channel (70_reset_and_hazards.md R240, R242 to R244, R248). -/

namespace Sys2Proof.Machine

variable {cfg : Config} {i : Instr} {s t : State}

/-! ## A command over an unwritten cell -/

/-- IN[0..n) cannot be sampled exactly when one of its cells is unwritten. -/
theorem sampleIn_eq_none {n : Nat} :
    s.sampleIn n = none ↔ ∃ j, j < n ∧ Memory.read s.mem (0x400 + j) = none :=
  readBytes_eq_none

/-- A well-formed command over an IN range that cannot be sampled faults (R244). -/
theorem exec_faults (hwf : i.WellFormed) (h : s.sampleIn (inBytesRead i) = none) :
    exec i s = .fault .unwrittenInput := by
  cases i with
  | decode ch len =>
    obtain ⟨hill, -⟩ | ⟨-, -, e⟩ | ⟨-, hzero, -⟩ | ⟨-, -, chunk, hsome, -⟩ :=
      execDecodeIn_cases (cfg := Config.hw) ch len s
    · cases hill.symm.trans hwf
    · exact e
    · subst hzero; cases h
    · cases hsome.symm.trans h
  | reset ch => cases h
  | build len =>
    obtain ⟨hill, -⟩ | ⟨-, -, e⟩ | ⟨-, -, ⟨p, hsome⟩, -⟩ | ⟨-, -, p, hsome, -⟩ :=
      execBuildIn_cases (cfg := Config.hw) len s
    · cases hill.symm.trans hwf
    · exact e
    · cases hsome.symm.trans h
    · cases hsome.symm.trans h
  | ckCompute len =>
    obtain ⟨hill, -⟩ | ⟨-, -, e⟩ | ⟨-, p, hsome, -⟩ := execCkComputeIn_cases (cfg := Config.hw) len s
    · cases hill.symm.trans hwf
    · exact e
    · cases hsome.symm.trans h
  | ckVerify => cases h

/-- A well-formed command ends in a fault over an IN range that cannot be sampled, in a next state over any other. -/
theorem exec_outcome (hwf : i.WellFormed) (s : State) :
    (s.sampleIn (inBytesRead i) = none ∧ exec i s = .fault .unwrittenInput) ∨
      (s.sampleIn (inBytesRead i) ≠ none ∧ ∃ t, exec i s = .next t) := by
  cases hin : s.sampleIn (inBytesRead i) with
  | none => exact .inl ⟨rfl, exec_faults hwf hin⟩
  | some p => exact .inr ⟨Option.some_ne_none p, exec_completes hin⟩

/-- Settles O21: the two outcomes exclude each other, and the range is sampled exactly when its cells are written. -/
theorem commandsCompleteExactlyOnWrittenInput : Obligations.CommandsCompleteExactlyOnWrittenInput := by
  intro i s hwf
  have hwritten : s.sampleIn (inBytesRead i) ≠ none ↔
      ∀ j, j < inBytesRead i → ∃ b, Memory.read s.mem (0x400 + j) = some b := by
    simp only [ne_eq, sampleIn_eq_none, not_exists, not_and, ← Option.ne_none_iff_exists']
  rw [← sampleIn_eq_none, ← hwritten]
  obtain ⟨hnone, e⟩ | ⟨hsome, t, e⟩ := exec_outcome hwf s
  · simp [hnone, e]
  · simp [hsome, e]

/-! ## The steps that are no command -/

/-- A step runs the command a write to CMD decodes to, serves a power-on reset, or has a next state that keeps every
channel. -/
theorem step_command_powerOn_or_keeps (s : State) :
    (∃ w rest i, s.hostQueue = .write 0x000#11 w :: rest ∧ decodeWord w = .ok i ∧
      step s = exec i { s with hostQueue := rest }) ∨
    (∃ rest, s.hostQueue = .powerOnReset :: rest) ∨
    ∃ t, step s = .next t ∧ ChannelsKept s t := by
  obtain ⟨-, e⟩ | ⟨a, rest, -, e⟩ | ⟨a, w, rest, hq, e⟩ | ⟨rest, hq, -⟩ := step_cases s
  · exact .inr (.inr ⟨_, e, fun _ => rfl⟩)
  · exact .inr (.inr ⟨_, e, fun _ => rfl⟩)
  · obtain ⟨rfl, hcmd⟩ | ⟨-, hw⟩ | ⟨_, -, -, hw⟩ | hw :=
      busWrite_cases Config.hw a w { s with hostQueue := rest }
    · obtain ⟨i, hi, hrun⟩ | ⟨-, hill⟩ := issueCommand_cases w { s with hostQueue := rest }
      · exact .inl ⟨w, rest, i, hq, hi, e.trans (hcmd.trans hrun)⟩
      · exact .inr (.inr ⟨_, e.trans (hcmd.trans hill), fun _ => rfl⟩)
    · exact .inr (.inr ⟨_, e.trans hw, fun _ => rfl⟩)
    · exact .inr (.inr ⟨_, e.trans hw, fun _ => rfl⟩)
    · exact .inr (.inr ⟨_, e.trans hw, fun _ => rfl⟩)
  · exact .inr (.inl ⟨rest, hq⟩)

/-- Settles O20: a word that decodes is a well-formed command, and every event but a command has a next state. -/
theorem onlyUnwrittenInputStopsTheBlock : Obligations.OnlyUnwrittenInputStopsTheBlock := by
  intro s
  obtain ⟨w, rest, i, hq, hi, e⟩ | ⟨rest, hq⟩ | ⟨t, e, -⟩ := step_command_powerOn_or_keeps s
  · obtain ⟨-, hwf⟩ := decodeWordIn_eq_ok_iff.mp hi
    obtain ⟨-, hexec⟩ | ⟨-, t, hexec⟩ := exec_outcome hwf { s with hostQueue := rest }
    · exact .inr ⟨e.trans hexec, w, rest, hq⟩
    · exact .inl ⟨t, e.trans hexec⟩
  · exact .inl ⟨_, step_powerOn hq⟩
  · exact .inl ⟨t, e⟩

/-! ## What changes a channel -/

/-- A DECODE of no bytes leaves every channel alone, the one it names included (R248). -/
theorem exec_decode_zero_channelsKept {ch : BitVec 4} (h : exec (.decode ch 0#16) s = .next t) : ChannelsKept s t := by
  intro d
  obtain ⟨-, e⟩ | ⟨-, -, e⟩ | ⟨-, -, e⟩ | ⟨-, hne, -⟩ := execDecodeIn_cases (cfg := Config.hw) ch 0#16 s
  · cases e.symm.trans h; rfl
  · cases e.symm.trans h
  · cases e.symm.trans h; rfl
  · exact absurd rfl hne

/-- A command that changes a channel is a RESET of it or a DECODE of at least one byte on it. -/
theorem exec_changes_channel {c : Nat} (h : exec i s = .next t) (hne : t.channel c ≠ s.channel c) :
    ∃ ch : BitVec 4, ch.toNat = c ∧ (i = .reset ch ∨ ∃ len, len ≠ 0#16 ∧ i = .decode ch len) := by
  have hnamed : namedChannel i = some c := by
    by_contra hother
    exact hne (exec_channel_other hother h)
  cases i with
  | decode ch len =>
    have hlen : len ≠ 0#16 := by
      rintro rfl
      exact hne (exec_decode_zero_channelsKept h c)
    exact ⟨ch, Option.some.inj hnamed, .inr ⟨len, hlen, rfl⟩⟩
  | reset ch => exact ⟨ch, Option.some.inj hnamed, .inl rfl⟩
  | build len => cases hnamed
  | ckCompute len => cases hnamed
  | ckVerify => cases hnamed

/-- Settles O22: a step that changes a channel runs a command that changes it, or serves a power-on reset. -/
theorem channelsChangeOnlyByTheirCommands : Obligations.ChannelsChangeOnlyByTheirCommands := by
  intro s t c hst hne
  obtain ⟨w, rest, i, hq, hi, e⟩ | hreset | ⟨u, e, hkept⟩ := step_command_powerOn_or_keeps s
  · obtain ⟨ch, hch, rfl | ⟨len, hlen, rfl⟩⟩ := exec_changes_channel (e.symm.trans hst) hne
    · exact .inl ⟨w, rest, ch, hq, hch, .inl hi⟩
    · exact .inl ⟨w, rest, ch, hq, hch, .inr ⟨len, hlen, hi⟩⟩
  · exact .inr hreset
  · cases e.symm.trans hst
    exact absurd (hkept c) hne

/-! ## Power-on reset -/

/-- Below IN a read does not see the queue or the count of power-on resets; only an unwritten IN cell shows the count
(10_state.md R42). -/
theorem busRead_below_in {a : WordIndex} (h : a.toNat < 0x400) (s : State) (queue : List HostEvent) (count : Nat) :
    busRead cfg a { s with hostQueue := queue, powerCycle := count } = busRead cfg a s :=
  busRead_congr fun r hr => by
    cases r <;> simp only [HostReg.At] at hr
    case inCell j => omega
    all_goals rfl

/-- Settles O14: the state served is the reset state but for the queue and the count of power-on resets. -/
theorem powerOnResetReachesEveryState : Obligations.PowerOnResetReachesEveryState := by
  intro s rest hq
  obtain ⟨-, -, -, -, -, -, -, hcleared⟩ := resetReadsTheSpecifiedValues
  exact ⟨_, step_powerOn hq, rfl, rfl, rfl, rfl, rfl, rfl, rfl, hcleared, fun a ha => if_pos ha,
    fun a ha => if_neg (Nat.not_lt.mpr ha), fun a ha => busRead_below_in ha State.reset rest _⟩

end Sys2Proof.Machine
end
